-- ==== Sys2Proof/Word.lean ====
section
/-! DEFINITION. The two word types of the block: a byte (00_scope.md R6) and a host-visible
register value of REGW = 32 bits (00_scope.md R5). Counts, positions and lengths are natural
numbers without wrap-around (R6), so they are no words. -/

namespace Sys2Proof

/-- A byte: an unsigned 8-bit value, bit 7 the most significant (R6). -/
abbrev Byte := BitVec 8

/-- The value of a host-visible register, REGW = 32 bits wide (R5). -/
abbrev Word := BitVec 32

end Sys2Proof
end

