-- ==== Sys2Proof/Config.lean ====
section
/-! DEFINITION. What is fixed for a block: the source's two constants, the open parameter NMAX, and
the model's free value. -/

namespace Sys2Proof.Config

/-- MAXCOUNT, the largest count a record carries (00_scope.md R5). -/
abbrev maxCount : Nat := 127

/-- MINRUN, the number of equal bytes that starts a run, and the encoder's look-ahead (R5). -/
abbrev minRun : Nat := 3

/-- NMAX, the capacity in bytes of each frame-sized buffer: "open, any natural number" (R5; D16). It has
no body, so nothing can be proved of its value. DESIGN CHOICE, safe: log 1. -/
opaque nmax : Nat

/-- FREE VALUE: the k-th byte the block returns where the spec says only that some byte is returned
(43_commands.md R136). DESIGN CHOICE, safe: log 8. -/
opaque freeByte : Nat → Byte

end Sys2Proof.Config
end

