-- ==== Sys2Proof/Syntax.lean ====
section
/-! DEFINITION. The instructions of the block: the two record kinds of the compressed stream
(30_encoding.md R60) and the four host commands (R72), one constructor per row of the opcode table. -/

namespace Sys2Proof

/-- One instruction. `run` and `lit` are stream records, the other four are values written to CMD. -/
inductive Instr where
  /-- RUN count, value: `count` copies of `value` (R62). -/
  | run (count : BitVec 7) (value : Byte)
  /-- LIT b0 b1 ..: the raw bytes themselves, the count being their number (R63, R71). -/
  | lit (raw : List Byte)
  /-- NOP, code 0 (R135). -/
  | nop
  /-- DEC_FRAME, code 1 (R131). -/
  | decFrame
  /-- ENC_FRAME, code 2 (R132). -/
  | encFrame
  /-- CLEAR, code 3 (R133). -/
  | clear
  deriving DecidableEq, Repr

/-- Is the instruction a record of the compressed stream (R60), and not a host command (R72)? -/
def Instr.isRecord : Instr → Bool
  | .run _ _ => true
  | .lit _ => true
  | .nop => false
  | .decFrame => false
  | .encFrame => false
  | .clear => false

end Sys2Proof
end

