-- ==== Sys2Proof/WellFormed.lean ====
section
/-! DEFINITION. Which terms of Instr are instructions. The only check is the length of a literal: its
count is a 7-bit field (30_encoding.md R61, R63). Every other field is as wide as its encoding. -/

namespace Sys2Proof

/-- A literal record has at most 127 raw bytes (R63); every other term is well formed (R66, R68). -/
def Instr.wf : Instr → Bool
  | .run _ _ => true
  | .lit raw => decide (raw.length ≤ Config.maxCount)
  | .nop => true
  | .decFrame => true
  | .encFrame => true
  | .clear => true

end Sys2Proof
end

