-- ==== Sys2Proof/Decode.lean ====
section
/-! DEFINITION. Decoding: from stream bytes to a record (30_encoding.md R61 to R66), from a value
written to CMD to a command (R72); total, rejecting by name. After it the encoder, written from the
same formats. -/

namespace Sys2Proof

/-- Why some bytes or a CMD value are no instruction. The first three say that the stream ends
inside a record; they are the three points of 60_exceptions.md R151. No header is illegal (R68). -/
inductive Reject where
  /-- There is no header byte. -/
  | noHeader
  /-- A RUN header with this count, and no value byte after it. -/
  | noValue (count : BitVec 7)
  /-- A LIT header with this count, and only these raw bytes, fewer than the count, after it. -/
  | shortRaw (count : BitVec 7) (present : List Byte)
  /-- A CMD value other than 0, 1, 2 and 3 (60_exceptions.md R154). -/
  | badCommand (w : Word)
  deriving DecidableEq, Repr

/-- Header bit 7, the record kind: `false` RUN, `true` LIT (R61). -/
def kindBit (h : Byte) : Bool := h.msb

/-- Header bits 6 to 0, the count, unsigned, without bias (R61, R65). -/
def countField (h : Byte) : BitVec 7 := h.setWidth 7

/-- A RUN record from the bytes that follow its header (R62). -/
def decodeRun (count : BitVec 7) : List Byte → Except Reject (Instr × List Byte)
  | [] => .error (.noValue count)
  | v :: rest => .ok (.run count v, rest)

/-- A LIT record from the bytes that follow its header (R63). -/
def decodeLit (count : BitVec 7) (rest : List Byte) : Except Reject (Instr × List Byte) :=
  if (rest.take count.toNat).length = count.toNat then
    .ok (.lit (rest.take count.toNat), rest.drop count.toNat)
  else .error (.shortRaw count rest)

/-- The record at the front of some stream bytes, with the bytes after it (R64, R66). -/
def decodeRecord : List Byte → Except Reject (Instr × List Byte)
  | [] => .error .noHeader
  | h :: rest => if kindBit h then decodeLit (countField h) rest else decodeRun (countField h) rest

/-- The command a value written to CMD selects, all 32 bits compared (R72). -/
def decodeCommand (w : Word) : Except Reject Instr :=
  if w = 0x00000000#32 then .ok .nop
  else if w = 0x00000001#32 then .ok .decFrame
  else if w = 0x00000002#32 then .ok .encFrame
  else if w = 0x00000003#32 then .ok .clear
  else .error (.badCommand w)

/-- What an instruction is encoded as: bytes of the stream, or a value for CMD. -/
inductive Code where
  /-- Stream bytes, the header first (20_memory.md R44). -/
  | stream (bytes : List Byte)
  /-- A value written to CMD. -/
  | command (w : Word)
  deriving DecidableEq, Repr

/-- Decoding of either kind, with the stream bytes left over. -/
def decode : Code → Except Reject (Instr × List Byte)
  | .stream bytes => decodeRecord bytes
  | .command w =>
    match decodeCommand w with
    | .ok i => .ok (i, [])
    | .error r => .error r

/-- The header byte of a RUN record: `0x00 | count` (R61). -/
def runHeader (count : BitVec 7) : Byte := 0x00#8 ||| count.setWidth 8

/-- The header byte of a LIT record: `0x80 | count` (R61). -/
def litHeader (count : BitVec 7) : Byte := 0x80#8 ||| count.setWidth 8

/-- The count field of a literal of `n` bytes (R63). -/
def litCount (n : Nat) : BitVec 7 := BitVec.ofNat 7 n

/-- The stream bytes of a record (R62, R63); a command has none (R72). -/
def recordBytes : Instr → List Byte
  | .run count value => [runHeader count, value]
  | .lit raw => litHeader (litCount raw.length) :: raw
  | .nop => []
  | .decFrame => []
  | .encFrame => []
  | .clear => []

/-- The encoder: the code of an instruction (R62, R63, R72). -/
def encode : Instr → Code
  | .run count value => .stream (recordBytes (.run count value))
  | .lit raw => .stream (recordBytes (.lit raw))
  | .nop => .command 0x00000000#32
  | .decFrame => .command 0x00000001#32
  | .encFrame => .command 0x00000002#32
  | .clear => .command 0x00000003#32

/-- The bytes a record decodes to, `rep(value, count)` or the raw bytes (R62, R63); a command has none. -/
def payload : Instr → List Byte
  | .run count value => List.replicate count.toNat value
  | .lit raw => raw
  | .nop => []
  | .decFrame => []
  | .encFrame => []
  | .clear => []

/-- The longest record: a header and 127 raw bytes (R63). -/
abbrev maxRecordBytes : Nat := 128

/-- The stream bytes of a table row of `nbits` bits with value `w`, bits 7 to 0 in the first byte,
followed by zero bytes up to the longest record. -/
def tableBytes (nbits w : Nat) : List Byte :=
  (List.range (nbits / 8)).map (fun k => BitVec.ofNat 8 (w >>> (8 * k)))
    ++ List.replicate (maxRecordBytes - nbits / 8) 0x00#8

/-- The instruction the decoder reads from a row of the opcode table with its bits set to `w`. The
table's 32-bit rows are values of CMD, its 8-bit rows are header bytes in the stream. -/
def decodeTableWord (nbits w : Nat) : Option Instr :=
  if nbits = 32 then
    match decodeCommand (BitVec.ofNat 32 w) with
    | .ok i => some i
    | .error _ => none
  else
    match decodeRecord (tableBytes nbits w) with
    | .ok (i, _) => some i
    | .error _ => none

end Sys2Proof
end

