-- ==== Sys2Proof/Machine/Memory.lean ====
section
/-! DEFINITION. A frame-sized buffer (20_memory.md R40) as plain data: the bytes that are not 0x00, by
rising index. An index that is not listed reads 0x00, the reset value of F and P (10_state.md R22,
R26). DESIGN CHOICE: log 23. -/

namespace Sys2Proof.Machine

/-- The content of one buffer: (index, byte) pairs. -/
abbrev Memory := List Host.Cell

/-- The canonical form: indices strictly rising, and no entry equal to what an unlisted index reads. -/
abbrev Memory.wf (m : Memory) : Prop :=
  List.Pairwise (fun c c' : Host.Cell => c.1 < c'.1) m ∧ ∀ c ∈ m, c.2 ≠ 0x00#8

/-- Every listed index is below `n`. -/
abbrev Memory.below (n : Nat) (m : Memory) : Prop := ∀ c ∈ m, c.1 < n

/-- Element `a` of a buffer. -/
def Memory.read : Memory → Nat → Byte
  | [], _ => 0x00#8
  | c :: m, a => if c.1 = a then c.2 else Memory.read m a

/-- A buffer without its entry for index `a`. -/
def Memory.erase (m : Memory) (a : Nat) : Memory := List.filter (fun c => decide (c.1 ≠ a)) m

/-- A buffer with an entry for index `a` put where the rising order wants it. -/
def Memory.insert : Memory → Nat → Byte → Memory
  | [], a, b => [(a, b)]
  | c :: m, a, b => if a < c.1 then (a, b) :: c :: m else c :: Memory.insert m a b

/-- Element `a` of a buffer set to `b`; an entry that says what an unlisted index reads is left out. -/
def Memory.write (m : Memory) (a : Nat) (b : Byte) : Memory :=
  if b = 0x00#8 then Memory.erase m a else Memory.insert (Memory.erase m a) a b

/-- Consecutive elements from `a` on set to the bytes of a list, in order. -/
def Memory.writeAll : Memory → Nat → List Byte → Memory
  | m, _, [] => m
  | m, a, b :: bs => Memory.writeAll (Memory.write m a b) (a + 1) bs

/-- The elements `a` to `a + n - 1`, in order. -/
def Memory.slice (m : Memory) (a n : Nat) : List Byte :=
  (List.range n).map (fun k => Memory.read m (a + k))

/-- Elements 0 to `n - 1` set to 0x00 (the loop of CLEAR, 43_commands.md R133). -/
def Memory.clearBelow (n : Nat) (m : Memory) : Memory :=
  List.filter (fun c => decide (n ≤ c.1)) m

/-- A buffer whose elements from 0 on are the bytes of a list. -/
def Memory.ofBytes (bs : List Byte) : Memory := Memory.writeAll [] 0 bs

/-- ACCUMULATE on buffers, for j in 0 .. n-1: F[j] <- F[j] xor D[j] (42_delta.md R121). The element read
at j is `f`'s, since the turns before j wrote only elements below j. -/
def Memory.accumulate : Nat → Memory → Memory → Memory
  | 0, f, _ => f
  | n + 1, f, d =>
    Memory.write (Memory.accumulate n f d) n (Memory.read f n ^^^ Memory.read d n)

/-- The first half of DIFFERENCE, for j in 0 .. n-1: E[j] <- X[j] xor P[j] (R123). -/
def Memory.difference : Nat → Memory → Memory → Memory → Memory
  | 0, e, _, _ => e
  | n + 1, e, x, p =>
    Memory.write (Memory.difference n e x p) n (Memory.read x n ^^^ Memory.read p n)

/-- The second half of DIFFERENCE, for j in 0 .. n-1: P[j] <- X[j] (R123). -/
def Memory.copyBelow : Nat → Memory → Memory → Memory
  | 0, p, _ => p
  | n + 1, p, x => Memory.write (Memory.copyBelow n p x) n (Memory.read x n)

end Sys2Proof.Machine
end

