-- ==== Sys2Proof/Machine/State.lean ====
section
/-! DEFINITION. The state of the block (10_state.md R20), as plain data, with the host's accesses still
to come beside it; the reasons a step can stop; the state right after reset (R35). -/

namespace Sys2Proof.Machine

/-- The unit a frame command runs on (00_scope.md R2). -/
inductive Engine where
  | dec
  | enc
  deriving DecidableEq, Repr

/-- STATUS.CAUSE, an enumeration of five (10_state.md R30; 93_implementation_defined.md I11). -/
inductive Cause where
  | none
  | truncated
  | overrun
  | badCfg
  | badCmd
  deriving DecidableEq, Repr

/-- The granularity the machine is stepped at (00_scope.md R10; 43_commands.md R130): a command is one
transition, or one record is. -/
inductive Grain where
  | command
  | record
  deriving DecidableEq, Repr

/-- What reset leaves in the state that R35 calls unspecified: arbitrary values, said by the reset
action itself so that nothing is chosen for them. The buffers are given by their bytes from index 0. -/
structure Leftover where
  hdr : Byte
  cnt : BitVec 7
  val : Byte
  cur : Nat
  len : Fin 128
  d   : List Byte
  x   : List Byte
  e   : List Byte
  deriving DecidableEq, Repr

/-- One thing the host does to the block, or lets it do (R33; 43_commands.md R130, R138, R139;
70_reset_and_hazards.md R180; 20_memory.md R53). -/
inductive HostAction where
  /-- A write of `v` to register number `n`. -/
  | writeReg (n : Nat) (v : Word)
  /-- A read of register number `n`. -/
  | readReg (n : Nat)
  /-- A write of `b` through the X port at index `j`. -/
  | writeX (j : Nat) (b : Byte)
  /-- A read through the F port at index `j`. -/
  | readF (j : Nat)
  /-- No access: the block works for one step. -/
  | wait
  /-- No access, and a stream port makes the block wait (R53). -/
  | hold
  /-- The reset input, with the stream of the run that starts (70_reset_and_hazards.md R181). -/
  | reset (input : List Byte) (left : Leftover)
  deriving DecidableEq, Repr

/-- The state. Names and widths are those of 10_state.md R20; the last five fields are the model's own. -/
structure State where
  /-- NMAX, the parameter (R5): never changed. -/
  nmax : Nat
  /-- CFG_W (R21). -/
  cfgW : Word
  /-- CFG_H (R21). -/
  cfgH : Word
  /-- The unit whose frame command is in progress; STATUS.BUSY is 1 when there is one (R30). -/
  running : Option Engine
  /-- STATUS.FAULT (R30). -/
  fault : Bool
  /-- STATUS.CAUSE (R30). -/
  cause : Cause
  /-- IN (R29). -/
  input : List Byte
  /-- SP, the stream cursor (R25). -/
  sp : Nat
  /-- HDR (R24). -/
  hdr : Byte
  /-- CNT (R24). -/
  cnt : BitVec 7
  /-- VAL (R24). -/
  val : Byte
  /-- POS (R24). -/
  pos : Nat
  /-- D, the delta staging buffer (R23). -/
  d : Memory
  /-- F, the reconstructed-frame buffer (R22). -/
  f : Memory
  /-- X, the encoder's input frame (R27). -/
  x : Memory
  /-- P, the encoder's previous frame (R26). -/
  p : Memory
  /-- E, the encoder's delta buffer (R27). -/
  e : Memory
  /-- CUR, the encoder's cursor (R28). -/
  cur : Nat
  /-- LEN, the length of the record being formed (R28). -/
  len : Nat
  /-- OUT (R29). -/
  out : List Byte
  /-- The granularity of a step. -/
  grain : Grain
  /-- What the host does next, the next action first. -/
  host : List HostAction
  /-- What the last register read returned. -/
  regData : Word
  /-- What the last read through the F port returned. -/
  portData : Byte
  /-- How many free bytes have been handed out. -/
  free : Nat
  deriving DecidableEq, Repr

/-- Why the machine stops with a fault. The block's own four faults are no stops: they are taken, as a
next state (60_exceptions.md R156). -/
inductive Fault where
  /-- A frame command is in progress with N above NMAX, so a buffer element that does not exist would be
  reached. Raised by a record step, the commit and an emission; no reachable state is such a state
  (20_memory.md R43). Safe: log 12. -/
  | bufferRange
  deriving DecidableEq, Repr

/-- Why a term has no meaning in a state. -/
inductive Refusal where
  /-- The instruction of this mnemonic is not modelled. Raised by no arm of this model. Safe. -/
  | notModelled (mnemonic : String)
  /-- A record outside the state in which the decoder executes one: a DEC_FRAME in progress, no fault, POS
  below N (40_decoder.md R80). Raised by the meanings of RUN and LIT. Safe: log 11. -/
  | recordNotEnabled
  /-- A literal of more than 127 bytes, which no stream encodes (30_encoding.md R63). Raised by the meaning
  of LIT. Safe: log 13. -/
  | illFormed
  deriving DecidableEq, Repr

/-- The machine right after reset (10_state.md R35; 70_reset_and_hazards.md R180), with no stream presented
yet and the host doing nothing. The values R35 calls unspecified are DESIGN CHOICE: log 2, log 3. -/
def State.reset : State where
  nmax := Config.nmax
  cfgW := 0#32
  cfgH := 0#32
  running := none
  fault := false
  cause := .none
  input := []
  sp := 0
  hdr := 0#8
  cnt := 0#7
  val := 0#8
  pos := 0
  d := []
  f := []
  x := []
  p := []
  e := []
  cur := 0
  len := 0
  out := []
  grain := .command
  host := []
  regData := 0#32
  portData := 0#8
  free := 0

end Sys2Proof.Machine
end

