-- ==== Sys2Proof/Machine/Flags.lean ====
section
/-! DEFINITION. STATUS, the block's only flags (10_state.md R30): its three fields as one word, and the
two conditions read off it. -/

namespace Sys2Proof.Machine

/-- The code of a cause in STATUS.CAUSE (60_exceptions.md R150). -/
def Cause.code : Cause → BitVec 4
  | .none => 0#4
  | .truncated => 1#4
  | .overrun => 2#4
  | .badCfg => 3#4
  | .badCmd => 4#4

/-- STATUS.BUSY: a frame command is in progress (R30). -/
def State.busy (s : State) : Bool := s.running.isSome

/-- STATUS as the host reads it: CAUSE in bits 7 to 4, FAULT in bit 1, BUSY in bit 0, the other bits 0 (R30). -/
def State.statusWord (s : State) : Word :=
  0#24 ++ s.cause.code ++ 0#2 ++ BitVec.ofBool s.fault ++ BitVec.ofBool s.busy

/-- Idle and not faulted: the block accepts a command, a configuration write and an X write
(43_commands.md R130, R136, R137). -/
def State.accepts (s : State) : Bool := !s.busy && !s.fault

end Sys2Proof.Machine
end

