-- ==== Sys2Proof/Machine/Operands.lean ====
section
/-! DEFINITION. What the instructions and the host's accesses take as operands: the frame length, the
room left in a frame, the elements of E under the encoder's cursor, the register map. -/

namespace Sys2Proof.Machine

/-- N = CFG_W * CFG_H, the exact product (00_scope.md R12 (e); 10_state.md R21). -/
def State.frameLen (s : State) : Nat := s.cfgW.toNat * s.cfgH.toNat

/-- N - POS, the bytes still missing from the frame (40_decoder.md R80). -/
def State.room (s : State) : Nat := s.frameLen - s.pos

/-- The stream from the cursor on: what StreamRead has still to return (20_memory.md R41). -/
def State.ahead (s : State) : List Byte := s.input.drop s.sp

/-- `rem = n - CUR`, the bytes of E not yet encoded (41_encoder.md R100). -/
def State.rem (s : State) : Nat := s.frameLen - s.cur

/-- S[CUR + k], with S = E[0..N) (R100). -/
def State.look (s : State) (k : Nat) : Byte := Memory.read s.e (s.cur + k)

/-- The decoder executes a record: a DEC_FRAME is in progress, nothing has faulted, POS < N (R80). -/
def State.recordEnabled (s : State) : Bool :=
  decide (s.running = some .dec) && !s.fault && decide (s.pos < s.frameLen)

/-- A host-visible register as the host reads it (10_state.md R33): CMD reads 0, numbers above 5 select
nothing and read 0. POS is shown as a 32-bit number (log 10), SP modulo 2^32 (R25). -/
def State.readReg (s : State) : Nat → Word
  | 0 => s.cfgW
  | 1 => s.cfgH
  | 2 => 0#32
  | 3 => s.statusWord
  | 4 => BitVec.ofNat 32 s.pos
  | 5 => BitVec.ofNat 32 s.sp
  | _ => 0#32

end Sys2Proof.Machine
end

