-- ==== Sys2Proof/Machine/Ops.lean ====
section
/-! DEFINITION. The shared operations over the state: the two stream primitives, the buffer updates,
taking a fault, reset (the only way out of one), and the guards the meanings share. -/

namespace Sys2Proof.Machine

/-! ### Faults -/

/-- `raise <Fault>` (60_exceptions.md R156): CAUSE, FAULT and BUSY are written and the command ends;
everything else stays as it is. -/
def takeFault (c : Cause) (s : State) : State :=
  { s with cause := c, fault := true, running := none }

/-- Reset (70_reset_and_hazards.md R180), the only exit from the faulted state (R157): every piece of
the block's state at the value of 10_state.md R35, what R35 leaves unspecified taken from `left`. NMAX,
the host and the model's own fields are no state of the block and stay. -/
def applyReset (input : List Byte) (left : Leftover) (s : State) : State :=
  { s with
    cfgW := 0#32, cfgH := 0#32, running := none, fault := false, cause := .none
    input := input, sp := 0, hdr := left.hdr, cnt := left.cnt, val := left.val, pos := 0
    d := Memory.ofBytes (left.d.take s.nmax), f := [], x := Memory.ofBytes (left.x.take s.nmax), p := []
    e := Memory.ofBytes (left.e.take s.nmax), cur := left.cur, len := left.len.val, out := [] }

/-! ### The streams -/

/-- The cursor moves past one byte that StreamRead has returned (20_memory.md R41). -/
def advance (s : State) : State := { s with sp := s.sp + 1 }

/-- StreamRead (R41): the byte at SP with SP advanced, or nothing at the end of IN, where it raises
TRUNCATED. -/
def streamRead (s : State) : Option (Byte × State) :=
  match s.ahead with
  | [] => none
  | b :: _ => some (b, advance s)

/-- StreamWrite (R42). -/
def streamWrite (b : Byte) (s : State) : State := { s with out := s.out ++ [b] }

/-- StreamWrite of each byte of a list, in order. -/
def streamWriteAll : List Byte → State → State
  | [], s => s
  | b :: bs, s => streamWriteAll bs (streamWrite b s)

/-! ### The decoder's registers -/

/-- `HDR <- StreamRead(); CNT <- HDR & 0x7F` (40_decoder.md R80), the byte read being `h`. -/
def loadHeader (h : Byte) (s : State) : State :=
  { advance s with hdr := h, cnt := countField h }

/-- `VAL <- StreamRead()` (R81), the byte read being `v`. -/
def loadValue (v : Byte) (s : State) : State := { advance s with val := v }

/-- `D[POS] <- b; POS <- POS + 1` (10_state.md R23). -/
def produce (b : Byte) (s : State) : State :=
  { s with d := Memory.write s.d s.pos b, pos := s.pos + 1 }

/-- The loop of RUN: `count` times `produce v` (R81). -/
def produceRun (v : Byte) : Nat → State → State
  | 0, s => s
  | k + 1, s => produceRun v k (produce v s)

/-- The loop of LIT: each raw byte is read from the stream and produced (R82). -/
def copyRaw : List Byte → State → State
  | [], s => s
  | b :: bs, s => copyRaw bs (produce b (advance s))

/-- ACCUMULATE, the commit (42_delta.md R121). -/
def accumulate (s : State) : State := { s with f := Memory.accumulate s.frameLen s.f s.d }

/-! ### The encoder's registers -/

/-- DIFFERENCE (R123): E[j] <- X[j] xor P[j], P[j] <- X[j]. -/
def difference (s : State) : State :=
  { s with
    e := Memory.difference s.frameLen s.e s.x s.p
    p := Memory.copyBelow s.frameLen s.p s.x }

/-- `LEN <- n`. -/
def setLen (n : Nat) (s : State) : State := { s with len := n }

/-- `CUR <- CUR + LEN` (41_encoder.md R101 to R103). -/
def advanceCur (s : State) : State := { s with cur := s.cur + s.len }

/-! ### A frame command's beginning and end -/

/-- `BUSY <- 1; POS <- 0`: DEC_FRAME up to its first record (43_commands.md R131; 40_decoder.md R83). -/
def beginDec (s : State) : State := { s with running := some .dec, pos := 0 }

/-- `BUSY <- 1`, DIFFERENCE, `CUR <- 0`: ENC_FRAME up to its first record (R132; 41_encoder.md R100). -/
def beginEnc (s : State) : State := { difference s with running := some .enc, cur := 0 }

/-- `BUSY <- 0`: the command in progress is complete. -/
def finish (s : State) : State := { s with running := none }

/-! ### Guards -/

/-- A command is issued while the block is idle and not faulted, and ignored otherwise (R130, R136, R137). -/
def whenAccepting (s : State) (t : State) : State := if s.accepts then t else s

/-- The configuration check every frame command begins with (R134): BADCFG, or the command. -/
def checkConfig (s : State) (t : State) : State :=
  if s.nmax < s.frameLen then takeFault .badCfg s else t

/-- A unit at work reaches only elements below N, which must exist (20_memory.md R43; log 12). -/
def withinCapacity (s : State) (t : State) : Host.Outcome State Fault Refusal :=
  if s.nmax < s.frameLen then .fault .bufferRange else .next t

/-- A record is executed only where R80 enables it (log 11). -/
def whenRecordEnabled (s : State) (t : State) : Host.Outcome State Fault Refusal :=
  if s.recordEnabled then withinCapacity s t else .refused .recordNotEnabled

end Sys2Proof.Machine
end

