-- ==== Sys2Proof/Machine/Emit.lean ====
section
/-! DEFINITION. The record encoder (41_encoder.md): the three kinds of step and the loop. S is E[0..N). -/

namespace Sys2Proof.Machine

/-- The bytes S[CUR] .. S[CUR + n - 1]. -/
def State.lookAll (s : State) (n : Nat) : List Byte := Memory.slice s.e s.cur n

/-- Emit a literal of LEN bytes: `0x80 | LEN`, the bytes, the cursor moved on (R101, R103). -/
def emitLiteralOf (n : Nat) (s : State) : State :=
  advanceCur (streamWriteAll (litHeader (litCount n) :: s.lookAll n) (setLen n s))

/-- Emit tail (R101): the literal of the bytes left, after which the loop stops and the command is complete. -/
def emitTail (s : State) : State := finish (emitLiteralOf s.rem s)

/-- The scan of a run (R102): LEN grows while LEN < 127, CUR + LEN < n and S[CUR + LEN] = v; at most as many turns
as given. -/
def scanRun (s : State) (v : Byte) : Nat → Nat → Nat
  | 0, len => len
  | k + 1, len =>
    if len < Config.maxCount ∧ len < s.rem ∧ s.look len = v then scanRun s v k (len + 1) else len

/-- The LEN of the run at the cursor (R102): the scan starts at 3, and 124 turns reach 127. -/
def State.runLen (s : State) : Nat := scanRun s (s.look 0) (Config.maxCount - Config.minRun) Config.minRun

/-- Emit run (R102). -/
def emitRun (s : State) : State :=
  advanceCur
    (streamWriteAll [runHeader (BitVec.ofNat 7 s.runLen), s.look 0] (setLen s.runLen s))

/-- The extension loop of a literal (R103), its tests in the order of R104: the cap, the end of data, the repeat; at
most as many turns as given. -/
def scanLit (s : State) : Nat → Nat → Nat
  | 0, len => len
  | k + 1, len =>
    if len < Config.maxCount ∧ len < s.rem then
      if s.look len = s.look (len - 1) then len - 1 else scanLit s k (len + 1)
    else len

/-- The LEN of the literal at the cursor (R103, R104). -/
def State.litLen (s : State) : Nat := scanLit s (Config.maxCount - Config.minRun) Config.minRun

/-- Emit literal (R103). -/
def emitLit (s : State) : State := emitLiteralOf s.litLen s

/-- One iteration of the encoder loop (R100). -/
def encTurn (s : State) : State :=
  if s.rem < Config.minRun then emitTail s
  else if s.look 0 = s.look 1 ∧ s.look 1 = s.look 2 then emitRun s
  else emitLit s

/-- Iterations of ENC until its command has ended, at most as many as given. -/
def encLoop : Nat → State → State
  | 0, s => s
  | k + 1, s => if s.running = some .enc then encLoop k (encTurn s) else s

/-- Enough iterations for any ENC_FRAME: each but the last takes at least two bytes (R106). -/
def State.encTurns (s : State) : Nat := s.frameLen / 2 + 1

end Sys2Proof.Machine
end

