-- ==== Sys2Proof/Machine/Records.lean ====
section
/-! DEFINITION. The record family (40_decoder.md): the record step, its two kinds, the records that the
stream ends inside of, and the frame decode loop. -/

namespace Sys2Proof.Machine

/-- The record step after its header and count check (R80): OVERRUN if the count exceeds N - POS, before any
further read or write, else the record's own rule. -/
def recordStep (h : Byte) (body : State → State) (s : State) : State :=
  if s.room < (loadHeader h s).cnt.toNat then takeFault .overrun (loadHeader h s)
  else body (loadHeader h s)

/-- RUN (R81) on a record that the stream holds whole. -/
def runRecord (count : BitVec 7) (value : Byte) (s : State) : State :=
  recordStep (runHeader count) (fun t => produceRun value t.cnt.toNat (loadValue value t)) s

/-- LIT (R82) on a record that the stream holds whole. -/
def litRecord (raw : List Byte) (s : State) : State :=
  recordStep (litHeader (litCount raw.length)) (copyRaw raw) s

/-- The effect of a record; a command is no record and has none here. -/
def recordEffect : Instr → State → State
  | .run count value, s => runRecord count value s
  | .lit raw, s => litRecord raw s
  | .nop, s => s
  | .decFrame, s => s
  | .encFrame, s => s
  | .clear, s => s

/-- The record step where the stream ends first: no header (R80), no value byte (R81), too few raw bytes, those
present being copied (R82). The count check comes before (60_exceptions.md R155). -/
def recordCut : Reject → State → State
  | .noHeader, s => takeFault .truncated s
  | .noValue count, s => recordStep (runHeader count) (takeFault .truncated) s
  | .shortRaw count present, s =>
    recordStep (litHeader count) (fun t => takeFault .truncated (copyRaw present t)) s
  | .badCommand _, s => s

/-- One record step: the record at the cursor, or what is left of it. -/
def recordTurn (s : State) : State :=
  match decodeRecord s.ahead with
  | .ok (i, _) => recordEffect i s
  | .error r => recordCut r s

/-- ACCUMULATE and the end of the command, reached with POS = N (43_commands.md R131). -/
def commitTurn (s : State) : State := finish (accumulate s)

/-- One turn of DEC_FRAME: a record while POS < N, else the commit (R83, R131). -/
def decTurn (s : State) : State :=
  if s.pos < s.frameLen then recordTurn s else commitTurn s

/-- Turns of DEC until its command has ended, at most as many as given. -/
def decLoop : Nat → State → State
  | 0, s => s
  | k + 1, s => if s.running = some .dec then decLoop k (decTurn s) else s

/-- Enough turns for any DEC_FRAME: each record takes at least one stream byte (R86), then one more turn ends the
command. -/
def State.decTurns (s : State) : Nat := s.ahead.length + 2

/-- RUN count, value: one record step (R80, R81). -/
def execRun (count : BitVec 7) (value : Byte) (s : State) : Host.Outcome State Fault Refusal :=
  whenRecordEnabled s (runRecord count value s)

/-- LIT raw: one record step (R80, R82). -/
def execLit (raw : List Byte) (s : State) : Host.Outcome State Fault Refusal :=
  if (Instr.lit raw).wf then whenRecordEnabled s (litRecord raw s) else .refused .illFormed

end Sys2Proof.Machine
end

