-- ==== Sys2Proof/Machine/Commands.lean ====
section
/-! DEFINITION. The command family (43_commands.md): NOP, DEC_FRAME, ENC_FRAME, CLEAR, each one atomic
transition (R130), and a CMD value that is no command. -/

namespace Sys2Proof.Machine

/-- NOP (R135): no state changes, accepted or not. -/
def execNop (s : State) : Host.Outcome State Fault Refusal := .next s

/-- DEC_FRAME (R131): the configuration check, the frame decode loop, the commit. -/
def execDecFrame (s : State) : Host.Outcome State Fault Refusal :=
  .next (whenAccepting s (checkConfig s (decLoop s.decTurns (beginDec s))))

/-- ENC_FRAME (R132): the configuration check, DIFFERENCE, the encoder loop. -/
def execEncFrame (s : State) : Host.Outcome State Fault Refusal :=
  .next (whenAccepting s (checkConfig s (encLoop s.encTurns (beginEnc s))))

/-- F[j] <- 0x00, P[j] <- 0x00 for j below NMAX, POS <- 0 (R133). -/
def clearFrames (s : State) : State :=
  { s with f := Memory.clearBelow s.nmax s.f, p := Memory.clearBelow s.nmax s.p, pos := 0 }

/-- CLEAR (R133). -/
def execClear (s : State) : Host.Outcome State Fault Refusal :=
  .next (whenAccepting s (clearFrames s))

/-- A CMD value that selects no command raises BADCMD, where a command would be accepted (60_exceptions.md R154). -/
def badCommand (s : State) : State := whenAccepting s (takeFault .badCmd s)

end Sys2Proof.Machine
end

