-- ==== Sys2Proof/Machine/Dispatch.lean ====
section
/-! DEFINITION. The meaning of each instruction, one arm a constructor. -/

namespace Sys2Proof.Machine

-- The granularity of `exec` is one record for a record and one whole command for a command (43_commands.md R130).
def exec (i : Instr) (s : State) : Host.Outcome State Fault Refusal :=
  match i with
  | .run count value => Sys2Proof.Machine.execRun count value s
  | .lit raw => Sys2Proof.Machine.execLit raw s
  | .nop => Sys2Proof.Machine.execNop s
  | .decFrame => Sys2Proof.Machine.execDecFrame s
  | .encFrame => Sys2Proof.Machine.execEncFrame s
  | .clear => Sys2Proof.Machine.execClear s

end Sys2Proof.Machine
end

