-- ==== Sys2Proof/Machine/HostPort.lean ====
section
/-! DEFINITION. What one step is made of: the block working on a command in progress (40_decoder.md R80,
41_encoder.md R100), and the host's accesses (10_state.md R33; 43_commands.md R130, R136 to R139). -/

namespace Sys2Proof.Machine

/-- Where the stream ends inside the record at the cursor, the step that record still makes. -/
def recordRejected (r : Reject) (s : State) : Host.Outcome State Fault Refusal :=
  whenRecordEnabled s (recordCut r s)

/-- Fetch, decode and execute the record at the cursor (R80). -/
def recordFetch (s : State) : Host.Outcome State Fault Refusal :=
  match decodeRecord s.ahead with
  | .ok (i, _) => exec i s
  | .error r => recordRejected r s

/-- The block works for one step: one record or the commit of a DEC_FRAME in progress, one emitted record of an
ENC_FRAME in progress; an idle block keeps its state (60_exceptions.md R165). -/
def work (s : State) : Host.Outcome State Fault Refusal :=
  match s.running with
  | none => .next s
  | some .dec => if s.pos < s.frameLen then recordFetch s else withinCapacity s (commitTurn s)
  | some .enc => withinCapacity s (encTurn s)

/-- A command issued at the record granularity (R130): a frame command is begun, and worked off by the steps after
it; NOP and CLEAR complete within the issuing write. -/
def openCommand (i : Instr) (s : State) : Host.Outcome State Fault Refusal :=
  match i with
  | .run count value => exec (.run count value) s
  | .lit raw => exec (.lit raw) s
  | .nop => exec .nop s
  | .decFrame => .next (whenAccepting s (checkConfig s (beginDec s)))
  | .encFrame => .next (whenAccepting s (checkConfig s (beginEnc s)))
  | .clear => exec .clear s

/-- A write of `w` to CMD (10_state.md R31): it issues the command it selects, or raises BADCMD. -/
def issue (w : Word) (s : State) : Host.Outcome State Fault Refusal :=
  match decodeCommand w with
  | .error _ => .next (badCommand s)
  | .ok i =>
    match s.grain with
    | .command => exec i s
    | .record => openCommand i s

/-- A register write other than to CMD: CFG_W and CFG_H while idle and not faulted; every other is ignored
(10_state.md R33; R136, R137). -/
def writeConfig (n : Nat) (v : Word) (s : State) : State :=
  match n with
  | 0 => whenAccepting s { s with cfgW := v }
  | 1 => whenAccepting s { s with cfgH := v }
  | _ => s

/-- A register write by number (R33); number 2 is CMD. -/
def writeRegister (n : Nat) (v : Word) (s : State) : Host.Outcome State Fault Refusal :=
  if n = 2 then issue v s else .next (writeConfig n v s)

/-- A register read by number, without side effect on the block (R33; 20_memory.md R47). -/
def readRegister (n : Nat) (s : State) : State := { s with regData := s.readReg n }

/-- A write through the X port: ignored at an index of N or more, while busy and while faulted (R33, R136, R137), and
where there is no such element (log 9). -/
def writePort (j : Nat) (b : Byte) (s : State) : State :=
  if j < s.frameLen ∧ j < s.nmax then whenAccepting s { s with x := Memory.write s.x j b } else s

/-- A free byte is returned (R136). -/
def readFree (s : State) : State :=
  { s with portData := Config.freeByte s.free, free := s.free + 1 }

/-- A read through the F port: F[j] below N, 0x00 from N on (R33); while busy, and where there is no such element
(log 9), a free byte (R136). -/
def readPort (j : Nat) (s : State) : State :=
  if s.busy then readFree s
  else if s.frameLen ≤ j then { s with portData := 0x00#8 }
  else if s.nmax ≤ j then readFree s
  else { s with portData := Memory.read s.f j }

/-- One action of the host. -/
def hostAct (a : HostAction) (s : State) : Host.Outcome State Fault Refusal :=
  match a with
  | .writeReg n v => writeRegister n v s
  | .readReg n => .next (readRegister n s)
  | .writeX j b => .next (writePort j b s)
  | .readF j => .next (readPort j s)
  | .wait => work s
  | .hold => .next s
  | .reset input left => .next (applyReset input left s)

/-- The state in which the next step issues `w`: idle, not faulted, at the command granularity, the write to CMD the
host's next action. -/
def placeCommand (w : Word) (s : State) : State :=
  { s with
    running := none, fault := false, cause := .none, grain := .command
    host := .writeReg 2 w :: s.host }

/-- The state in which the next step executes the record at the front of `bytes`: a DEC_FRAME in progress at POS = 0 with
N = 128, above any count, the bytes put into IN at the cursor, and the host making no access. -/
def placeRecord (bytes : List Byte) (s : State) : State :=
  { s with
    nmax := s.nmax + maxRecordBytes, cfgW := BitVec.ofNat 32 maxRecordBytes, cfgH := 1#32
    running := some .dec, fault := false, cause := .none, pos := 0
    input := s.input.take s.sp ++ bytes, sp := (s.input.take s.sp).length
    host := .wait :: s.host }

end Sys2Proof.Machine
end

