-- ==== Sys2Proof/Machine/Step.lean ====
section
/-! DEFINITION. One step of the machine: the host's next action, or, where the host has none, the block
working on. -/

namespace Sys2Proof.Machine

/-- One step. An action of the host is used up by it. -/
def step (s : State) : Host.Outcome State Fault Refusal :=
  match s.host with
  | [] => work s
  | a :: rest => hostAct a { s with host := rest }

/-- `s` with the instruction of a table row placed where the next step fetches (log 16): a 32-bit row as the host's
write to CMD, an 8-bit row as stream bytes at the cursor of a DEC_FRAME in progress. -/
def State.withFetchWord (s : State) (nbits w : Nat) : State :=
  if nbits = 32 then placeCommand (BitVec.ofNat 32 w) s else placeRecord (tableBytes nbits w) s

end Sys2Proof.Machine
end

