-- ==== Sys2Proof/Machine/Codec.lean ====
section
/-! DEFINITION. The two pure functions of the spec, RLE_decode (40_decoder.md R84) and RLE_encode (41_encoder.md R105), in
their own recursive form, apart from the machine: what DEC_FRAME and ENC_FRAME are compared with. Beside them the record
step in the words of its pseudocode (R80 to R82), which the machine's own is compared with. -/

namespace Sys2Proof.Machine

/-! ### RLE_decode -/

/-- `dec(T, s, n, out)` of R84, `ahead` being T from s on. Each record takes a byte, so a count of turns above the
bytes ahead is never used up. -/
def decFrom : Nat → List Byte → Nat → Nat → List Byte → Except Cause (List Byte × Nat)
  | 0, _, _, _, _ => .error .truncated
  | k + 1, ahead, s, n, out =>
    if out.length = n then .ok (out, s)
    else
      match ahead with
      | [] => .error .truncated
      | h :: rest =>
        let c := h.toNat % 128
        if n - out.length < c then .error .overrun
        else if 128 ≤ h.toNat then
          if rest.length < c then .error .truncated
          else decFrom k (rest.drop c) (s + 1 + c) n (out ++ rest.take c)
        else
          match rest with
          | [] => .error .truncated
          | v :: rest' => decFrom k rest' (s + 2) n (out ++ List.replicate c v)

/-- RLE_decode(T, s, n): the n bytes and the index after the last record read, or the fault (R84). -/
def rleDecode (T : List Byte) (s n : Nat) : Except Cause (List Byte × Nat) :=
  decFrom ((T.drop s).length + 1) (T.drop s) s n []

/-! ### RLE_encode -/

/-- `runlen` of R105, on the bytes from the cursor on: how many equal `v`, at most 127. -/
def runLength (v : Byte) (S : List Byte) : Nat :=
  min Config.maxCount (S.takeWhile (fun b => b == v)).length

/-- `ext(L)` of R105, on the bytes from the cursor on; at most as many turns as given. -/
def litExtend (S : List Byte) : Nat → Nat → Nat
  | 0, L => L
  | k + 1, L =>
    if L = Config.maxCount ∨ L = S.length then L
    else if S.getD L 0x00#8 = S.getD (L - 1) 0x00#8 then L - 1
    else litExtend S k (L + 1)

/-- `litlen` of R105: `ext(3)`; L grows from 3 to at most 127. -/
def litLength (S : List Byte) : Nat := litExtend S (Config.maxCount - Config.minRun + 1) Config.minRun

/-- The first three bytes are equal: a run begins (R105). -/
def startsRun (S : List Byte) : Bool := S.getD 0 0x00#8 == S.getD 1 0x00#8 && S.getD 1 0x00#8 == S.getD 2 0x00#8

/-- The records `enc(S, c)` of R105 emits, on the bytes from the cursor on. Each but the last takes at least two bytes,
so a count of turns above their number is never used up. -/
def encRecords : Nat → List Byte → List Instr
  | 0, S => [.lit S]
  | k + 1, S =>
    if S.length < Config.minRun then [.lit S]
    else if startsRun S then
      .run (BitVec.ofNat 7 (runLength (S.getD 0 0x00#8) S)) (S.getD 0 0x00#8)
        :: encRecords k (S.drop (runLength (S.getD 0 0x00#8) S))
    else .lit (S.take (litLength S)) :: encRecords k (S.drop (litLength S))

/-- The records of RLE_encode(S), in order. -/
def rleRecords (S : List Byte) : List Instr := encRecords (S.length + 1) S

/-- The bytes of records, one after the other (30_encoding.md R70). -/
def streamOf (rs : List Instr) : List Byte := rs.flatMap recordBytes

/-- The concatenated decoded payloads of records (R69). -/
def payloadOf (rs : List Instr) : List Byte := rs.flatMap payload

/-- RLE_encode(S): the bytes passed to StreamWrite, in order (R105). -/
def rleEncode (S : List Byte) : List Byte := streamOf (rleRecords S)

/-! ### The record step as written -/

/-- The loop of LIT (R82), byte by byte through StreamRead. -/
def copyReads : Nat → State → State
  | 0, s => s
  | k + 1, s =>
    match streamRead s with
    | none => takeFault .truncated s
    | some (b, t) => copyReads k (produce b t)

/-- The loop of RUN (R81) after its value byte has been read through StreamRead. -/
def runReads (s : State) : State :=
  match streamRead s with
  | none => takeFault .truncated s
  | some (v, t) => produceRun v t.cnt.toNat { t with val := v }

/-- The pseudocode of R80, with R81 and R82, line by line through StreamRead. -/
def recordByReads (s : State) : State :=
  match streamRead s with
  | none => takeFault .truncated s
  | some (h, t) =>
    let u := { t with hdr := h, cnt := countField h }
    if u.room < u.cnt.toNat then takeFault .overrun u
    else if kindBit h then copyReads u.cnt.toNat u
    else runReads u

end Sys2Proof.Machine
end

