-- ==== Sys2Proof/Safety.lean ====
section
/-! DEFINITION. The states a run can be in, as an invariant (20_memory.md R43; 40_decoder.md R85; 41_encoder.md R106;
60_exceptions.md R156), and how a run ends (70_reset_and_hazards.md R192). -/

namespace Sys2Proof.Machine

/-- Each buffer is canonical data and lists only elements that exist, those below NMAX (R43). -/
abbrev State.BuffersOk (s : State) : Prop :=
  (s.d.wf ∧ s.d.below s.nmax) ∧ (s.f.wf ∧ s.f.below s.nmax) ∧ (s.x.wf ∧ s.x.below s.nmax)
    ∧ (s.p.wf ∧ s.p.below s.nmax) ∧ (s.e.wf ∧ s.e.below s.nmax)

/-- CAUSE is none exactly when FAULT is 0 (10_state.md R30), and nothing runs after a fault (R156). -/
abbrev State.StatusOk (s : State) : Prop :=
  (s.cause = .none ↔ s.fault = false) ∧ (s.fault = true → s.running = none)

/-- SP is at most the length of IN (R25, R85), POS at most NMAX (R33), LEN at most 127 (R28). -/
abbrev State.CursorsOk (s : State) : Prop :=
  s.sp ≤ s.input.length ∧ s.pos ≤ s.nmax ∧ s.len ≤ Config.maxCount

/-- While DEC works N fits the buffers and POS ≤ N (R85); while ENC works N fits and CUR ≤ N (R106). -/
abbrev State.WorkOk (s : State) : Prop :=
  (s.running = some .dec → s.frameLen ≤ s.nmax ∧ s.pos ≤ s.frameLen)
    ∧ (s.running = some .enc → s.frameLen ≤ s.nmax ∧ s.cur ≤ s.frameLen)

/-- The invariant of the machine. -/
abbrev State.Inv (s : State) : Prop :=
  s.BuffersOk ∧ s.StatusOk ∧ s.CursorsOk ∧ s.WorkOk

/-- A run that has ended successfully: `BUSY = 0`, `FAULT = 0`, and no access of the host left (R192). -/
abbrev State.Succeeded (s : State) : Prop := s.busy = false ∧ s.fault = false ∧ s.host = []

/-- A run that has ended in failure: `FAULT = 1` (R192, R157). -/
abbrev State.Failed (s : State) : Prop := s.fault = true

end Sys2Proof.Machine
end

