-- ==== Sys2Proof/Certificates/Slice0/Obligations.lean ====
section
/-! DEFINITION. The statements for the provers. Each docstring names the rule of spec/ it formalises; "log <n>" marks a clause
that is the model's choice. -/

open Sys2Proof Sys2Proof.Machine

/-! ### Reset and the invariant -/

/-- R35: after the reset event, from any state, every piece of state has the value of the table; what the table calls
unspecified is not spoken of. -/
def Obligations.ResetGivesTheStatedValues : Prop :=
  ∀ (s : State) (input : List Byte) (left : Leftover) (rest : List HostAction),
    s.host = .reset input left :: rest →
    ∃ t, step s = .next t ∧ t.cfgW = 0#32 ∧ t.cfgH = 0#32 ∧ t.statusWord = 0#32 ∧ t.readReg 2 = 0#32 ∧ t.sp = 0 ∧ t.pos = 0
      ∧ (∀ j, Memory.read t.f j = 0x00#8) ∧ (∀ j, Memory.read t.p j = 0x00#8)
      ∧ t.out = [] ∧ t.input = input ∧ t.nmax = s.nmax ∧ t.host = rest

/-- The state right after reset meets the invariant. What R35 leaves unspecified is the model's choice there: log 2, log 3. -/
def Obligations.ResetMeetsTheInvariant : Prop := State.reset.Inv

/-- The invariant of the machine (R43, R85, R106, R30, R156) is kept by every step, from every state that meets it. -/
def Obligations.StepKeepsTheInvariant : Prop :=
  ∀ s t : State, s.Inv → step s = .next t → t.Inv

/-- R9: there is no undefined outcome; every state that meets the invariant has a next state. -/
def Obligations.StepAlwaysAnswersANextState : Prop :=
  ∀ s : State, s.Inv → ∃ t, step s = .next t

/-! ### Encoding -/

/-- Words written out from the formats of R61 to R63 and the codes of R72. -/
def Obligations.WrittenOutWordsDecode : Prop :=
  decodeRecord [0b00000100#8, 0x00#8] = .ok (.run 4#7 0x00#8, [])
  ∧ decodeRecord [0b01111111#8, 0xAA#8, 0x03#8] = .ok (.run 127#7 0xAA#8, [0x03#8])
  ∧ decodeRecord [0b10000000#8, 0x41#8] = .ok (.lit [], [0x41#8])
  ∧ decodeRecord [0b10000010#8, 0xFF#8, 0x00#8] = .ok (.lit [0xFF#8, 0x00#8], [])
  ∧ decodeCommand 0x00000001#32 = .ok .decFrame ∧ decodeCommand 0x00000003#32 = .ok .clear

/-- Decode of encode is the instruction, for every well-formed instruction with every operand, and for a record whatever
bytes follow it. -/
def Obligations.DecodeOfEncodeIsTheInstruction : Prop :=
  ∀ i : Instr, i.wf = true →
    decode (encode i) = .ok (i, [])
    ∧ ∀ bytes rest, encode i = .stream bytes → decodeRecord (bytes ++ rest) = .ok (i, rest)

/-- The other direction: what decodes is the encoding of what it decodes to. -/
def Obligations.EncodeOfDecodeIsTheCode : Prop :=
  (∀ bs i rest, decodeRecord bs = .ok (i, rest) →
    i.wf = true ∧ i.isRecord = true ∧ encode i = .stream (recordBytes i) ∧ recordBytes i ++ rest = bs)
  ∧ ∀ w i, decodeCommand w = .ok i → i.isRecord = false ∧ encode i = .command w

/-- R66: all 256 headers are assigned, by bit 7 alone: below 0x80 a RUN of that count, from 0x80 on a LIT of the header minus
128, whatever the payload. -/
def Obligations.EveryHeaderSelectsARecord : Prop :=
  ∀ (h : Byte) (after : List Byte), 127 ≤ after.length →
    (h.toNat < 128 → ∃ v rest, after = v :: rest
      ∧ decodeRecord (h :: after) = .ok (.run (BitVec.ofNat 7 h.toNat) v, rest)
      ∧ payload (.run (BitVec.ofNat 7 h.toNat) v) = List.replicate h.toNat v)
    ∧ (128 ≤ h.toNat → decodeRecord (h :: after) = .ok (.lit (after.take (h.toNat - 128)), after.drop (h.toNat - 128))
      ∧ payload (.lit (after.take (h.toNat - 128))) = after.take (h.toNat - 128)
      ∧ (after.take (h.toNat - 128)).length = h.toNat - 128)

/-- R64: the length of a record is a function of its header byte alone, 2 for a RUN and 1 + count for a LIT, and the next
record's header is the byte after it. -/
def Obligations.HeaderGivesTheRecordLength : Prop :=
  ∀ (h : Byte) (after : List Byte) (i : Instr) (rest : List Byte), decodeRecord (h :: after) = .ok (i, rest) →
    rest = (h :: after).drop (if h.msb then 1 + (h &&& 0x7F#8).toNat else 2)
    ∧ (recordBytes i).length = if h.msb then 1 + (h &&& 0x7F#8).toNat else 2

/-- R72: the commands are selected by all 32 bits of the value written to CMD, and every other value is illegal and raises
BADCMD. -/
def Obligations.CommandCodesAreTheTables : Prop :=
  decodeCommand 0x00000000#32 = .ok .nop ∧ decodeCommand 0x00000001#32 = .ok .decFrame
  ∧ decodeCommand 0x00000002#32 = .ok .encFrame ∧ decodeCommand 0x00000003#32 = .ok .clear
  ∧ ∀ w : Word, 4 ≤ w.toNat → decodeCommand w = .error (.badCommand w)
      ∧ ∀ (s : State) (rest : List HostAction), s.host = .writeReg 2 w :: rest → s.accepts = true →
          ∃ t, step s = .next t ∧ t.fault = true ∧ t.cause = .badCmd

/-! ### A step runs the decoded instruction -/

/-- A write to CMD of a value that decodes to a command: at the command granularity the step is `exec` of that command, in
the state with the write used up. The host's list and the granularity are the model's own: log 5, log 6. -/
def Obligations.StepRunsTheDecodedCommand : Prop :=
  ∀ (s : State) (w : Word) (rest : List HostAction) (i : Instr),
    s.host = .writeReg 2 w :: rest → s.grain = .command → decodeCommand w = .ok i →
    step s = exec i { s with host := rest }

/-- A DEC_FRAME in progress with POS below N and the host making no access: the step is `exec` of the record the stream
holds at the cursor. The host's list is the model's own: log 5. -/
def Obligations.StepRunsTheDecodedRecord : Prop :=
  ∀ (s : State) (i : Instr) (after : List Byte),
    s.running = some .dec → s.pos < s.frameLen → decodeRecord (s.input.drop s.sp) = .ok (i, after) →
    (s.host = [] → step s = exec i s)
    ∧ ∀ rest, s.host = .wait :: rest → step s = exec i { s with host := rest }

/-! ### The record family -/

/-- R81: RUN writes `count` copies of its value from D[POS] on, with POS and SP moved on and nothing else changed; a count
of 0 only reads. Where the value byte is missing it raises TRUNCATED with VAL, D and POS unchanged and SP at the end of IN. -/
def Obligations.RunProducesItsCount : Prop :=
  ∀ (s : State) (c : BitVec 7), s.recordEnabled = true → s.frameLen ≤ s.nmax → c.toNat ≤ s.frameLen - s.pos →
    (∀ v : Byte, ∃ d, exec (.run c v) s = .next { s with
          hdr := 0x00#8 ||| c.setWidth 8, cnt := c, val := v, sp := s.sp + 2, pos := s.pos + c.toNat, d := d }
        ∧ ∀ j, Memory.read d j = if s.pos ≤ j ∧ j < s.pos + c.toNat then v else Memory.read s.d j)
    ∧ (s.host = [] → s.input.drop s.sp = [0x00#8 ||| c.setWidth 8] →
        step s = .next { s with
          hdr := 0x00#8 ||| c.setWidth 8, cnt := c, sp := s.input.length
          cause := .truncated, fault := true, running := none })

/-- R82: LIT copies its raw bytes to D from D[POS] on, with POS and SP moved on and nothing else changed; a count of 0 reads
only the header. Where raw bytes are missing those present are copied and counted, and it raises TRUNCATED with SP at the
end of IN. -/
def Obligations.LitCopiesItsBytes : Prop :=
  ∀ s : State, s.recordEnabled = true → s.frameLen ≤ s.nmax →
    (∀ raw : List Byte, (Instr.lit raw).wf = true → raw.length ≤ s.frameLen - s.pos →
      ∃ d, exec (.lit raw) s = .next { s with
          hdr := BitVec.ofNat 8 (128 + raw.length), cnt := BitVec.ofNat 7 raw.length, sp := s.sp + 1 + raw.length
          pos := s.pos + raw.length, d := d }
        ∧ ∀ j, Memory.read d j =
            if s.pos ≤ j ∧ j < s.pos + raw.length then raw.getD (j - s.pos) 0x00#8 else Memory.read s.d j)
    ∧ ∀ (c : BitVec 7) (present : List Byte), c.toNat ≤ s.frameLen - s.pos → present.length < c.toNat →
        s.host = [] → s.input.drop s.sp = (0x80#8 ||| c.setWidth 8) :: present →
        ∃ d, step s = .next { s with
            hdr := 0x80#8 ||| c.setWidth 8, cnt := c, sp := s.input.length, pos := s.pos + present.length, d := d
            cause := .truncated, fault := true, running := none }
          ∧ ∀ j, Memory.read d j =
              if s.pos ≤ j ∧ j < s.pos + present.length then present.getD (j - s.pos) 0x00#8 else Memory.read s.d j

/-- One step of a DEC_FRAME in progress with POS below N is the pseudocode of the record step (R80, R81, R82), read byte by byte. That
R80 enables a record nowhere else is in RecordsStopOnlyUnderAName. -/
def Obligations.RecordStepFollowsThePseudocode : Prop :=
  ∀ s : State, s.recordEnabled = true → s.frameLen ≤ s.nmax → s.host = [] → step s = .next (recordByReads s)

/-- R151: the three points at which the stream can end inside DEC_FRAME: STATUS.CAUSE = 1, SP = |IN|, POS the bytes of the
frame written to D before the stream ended. A stream that ends at a frame boundary is no fault by itself; the next DEC_FRAME
with N above 0 raises it, with POS = 0. That register 4 is POS mod 2^32 whatever NMAX is, is the model's choice (log 10), as is
the commit as a step of its own (log 22). -/
def Obligations.TruncatedAtEachPoint : Prop :=
  ∀ s : State, s.frameLen ≤ s.nmax → s.host = [] → s.sp ≤ s.input.length →
    (s.recordEnabled = true →
      (s.input.drop s.sp = [] →
        ∃ t, step s = .next t ∧ t.fault = true ∧ t.statusWord = 0x12#32 ∧ t.sp = t.input.length ∧ t.pos = s.pos
          ∧ t.readReg 5 = BitVec.ofNat 32 s.input.length ∧ t.readReg 4 = BitVec.ofNat 32 s.pos)
      ∧ (∀ c : BitVec 7, c.toNat ≤ s.frameLen - s.pos → s.input.drop s.sp = [0x00#8 ||| c.setWidth 8] →
        ∃ t, step s = .next t ∧ t.fault = true ∧ t.statusWord = 0x12#32 ∧ t.sp = t.input.length ∧ t.pos = s.pos
          ∧ t.readReg 5 = BitVec.ofNat 32 s.input.length ∧ t.readReg 4 = BitVec.ofNat 32 s.pos)
      ∧ ∀ (c : BitVec 7) (present : List Byte), c.toNat ≤ s.frameLen - s.pos → present.length < c.toNat →
          s.input.drop s.sp = (0x80#8 ||| c.setWidth 8) :: present →
        ∃ t, step s = .next t ∧ t.fault = true ∧ t.statusWord = 0x12#32 ∧ t.sp = t.input.length
          ∧ t.pos = s.pos + present.length ∧ Memory.slice t.d s.pos present.length = present
          ∧ t.readReg 5 = BitVec.ofNat 32 s.input.length ∧ t.readReg 4 = BitVec.ofNat 32 (s.pos + present.length))
    ∧ (s.input.drop s.sp = [] →
      (s.running = some .dec → s.fault = false → s.pos = s.frameLen → ∃ t, step s = .next t ∧ t.fault = false)
      ∧ (s.accepts = true → ∃ t, step s = .next t ∧ t.fault = false)
      ∧ (s.accepts = true → 0 < s.frameLen →
        ∃ t, exec .decFrame s = .next t ∧ t.fault = true ∧ t.statusWord = 0x12#32 ∧ t.sp = t.input.length ∧ t.pos = 0))

/-- R152: a count above N - POS raises OVERRUN directly after the header byte, whatever follows it in the stream and even if
nothing does: STATUS.CAUSE = 2, so that STATUS reads 0x22, SP just after the header, HDR and CNT the offending header and
count, POS and D as they were. The same for the record as an instruction. -/
def Obligations.OverrunDirectlyAfterTheHeader : Prop :=
  ∀ s : State, s.recordEnabled = true → s.frameLen ≤ s.nmax →
    (∀ (h : Byte) (after : List Byte), s.host = [] → s.input.drop s.sp = h :: after →
      s.frameLen - s.pos < (h &&& 0x7F#8).toNat →
      ∃ t, step s = .next t ∧ t.statusWord = 0x22#32 ∧ t = { s with
        hdr := h, cnt := h.setWidth 7, sp := s.sp + 1, cause := .overrun, fault := true, running := none })
    ∧ (∀ (c : BitVec 7) (v : Byte), s.frameLen - s.pos < c.toNat →
      ∃ t, exec (.run c v) s = .next t ∧ t.statusWord = 0x22#32 ∧ t = { s with
        hdr := 0x00#8 ||| c.setWidth 8, cnt := c, sp := s.sp + 1, cause := .overrun, fault := true, running := none })
    ∧ ∀ raw : List Byte, (Instr.lit raw).wf = true → s.frameLen - s.pos < raw.length →
      ∃ t, exec (.lit raw) s = .next t ∧ t.statusWord = 0x22#32 ∧ t = { s with
        hdr := BitVec.ofNat 8 (128 + raw.length), cnt := BitVec.ofNat 7 raw.length, sp := s.sp + 1
        cause := .overrun, fault := true, running := none }

/-- R80 enables a record only inside a DEC_FRAME with POS below N; elsewhere, for a literal too long to be one, and for an N
above NMAX (no reachable state, R43), RUN and LIT stop under a name. Which names is the model's choice: log 11, 12, 13. -/
def Obligations.RecordsStopOnlyUnderAName : Prop :=
  ∀ s : State,
    (s.recordEnabled = false → (∀ c v, exec (.run c v) s = .refused .recordNotEnabled)
      ∧ ∀ raw, (Instr.lit raw).wf = true → exec (.lit raw) s = .refused .recordNotEnabled)
    ∧ (∀ raw, (Instr.lit raw).wf = false → exec (.lit raw) s = .refused .illFormed)
    ∧ (s.recordEnabled = true → s.nmax < s.frameLen → (∀ c v, exec (.run c v) s = .fault .bufferRange)
      ∧ ∀ raw, (Instr.lit raw).wf = true → exec (.lit raw) s = .fault .bufferRange)

/-! ### The commands -/

/-- R135: NOP changes no state and cannot fault, in any state and at either granularity. -/
def Obligations.NopChangesNothing : Prop :=
  ∀ s : State, exec .nop s = .next s
    ∧ ∀ rest, s.host = .writeReg 2 0x00000000#32 :: rest → step s = .next { s with host := rest }

/-- R133: CLEAR, CMD value 3, sets F and P to zero up to NMAX and POS to 0, and changes nothing else; in the faulted state, and
while busy, it is ignored; directly after reset it changes nothing. -/
def Obligations.ClearRestartsBothUnits : Prop :=
  decodeCommand 0x00000003#32 = .ok .clear ∧ exec .clear State.reset = .next State.reset
  ∧ ∀ s : State,
    (s.accepts = true → ∃ f p, exec .clear s = .next { s with f := f, p := p, pos := 0 }
      ∧ ∀ j, Memory.read f j = (if j < s.nmax then 0x00#8 else Memory.read s.f j)
        ∧ Memory.read p j = if j < s.nmax then 0x00#8 else Memory.read s.p j)
    ∧ (s.accepts = false → exec .clear s = .next s)

/-- R131, on success: DEC_FRAME decodes the N bytes that RLE_decode (R84) gives for IN from SP on into D and XORs them into F;
SP is moved past the records read, POS is N, and apart from HDR, CNT and VAL nothing else changes. -/
def Obligations.DecFrameDecodesAndAccumulates : Prop :=
  ∀ (s : State) (bytes : List Byte) (e : Nat), s.accepts = true → s.frameLen ≤ s.nmax →
    rleDecode s.input s.sp s.frameLen = .ok (bytes, e) →
    ∃ hdr cnt val d f, exec .decFrame s = .next { s with
        sp := e, pos := s.frameLen, hdr := hdr, cnt := cnt, val := val, d := d, f := f }
      ∧ bytes.length = s.frameLen
      ∧ (∀ j, Memory.read d j = if j < s.frameLen then bytes.getD j 0x00#8 else Memory.read s.d j)
      ∧ ∀ j, Memory.read f j =
          if j < s.frameLen then Memory.read s.f j ^^^ bytes.getD j 0x00#8 else Memory.read s.f j

/-- R131 and R156, on a fault of the stream: DEC_FRAME raises the fault RLE_decode (R84) gives, F is unchanged, the frame is
short (POS below N), only the decoder's registers and D below N have changed, and for TRUNCATED SP is |IN|. -/
def Obligations.DecFrameFaultLeavesTheFrame : Prop :=
  ∀ (s : State) (c : Cause), s.accepts = true → s.frameLen ≤ s.nmax → s.sp ≤ s.input.length →
    rleDecode s.input s.sp s.frameLen = .error c →
    ∃ sp hdr cnt val pos d, exec .decFrame s = .next { s with
        sp := sp, hdr := hdr, cnt := cnt, val := val, pos := pos, d := d, cause := c, fault := true }
      ∧ (c = .truncated ∨ c = .overrun) ∧ pos < s.frameLen ∧ s.sp ≤ sp ∧ sp ≤ s.input.length
      ∧ (c = .truncated → sp = s.input.length)
      ∧ ∀ j, s.frameLen ≤ j → Memory.read d j = Memory.read s.d j

/-- R132: ENC_FRAME, CMD value 2, sets E to X xor P and P to X below N, appends RLE_encode (R105) of E[0..N) to OUT, leaves CUR
at N, and apart from LEN changes nothing else; its only fault is BADCFG. -/
def Obligations.EncFrameAppendsTheEncoding : Prop :=
  decodeCommand 0x00000002#32 = .ok .encFrame
  ∧ ∀ s : State, s.accepts = true →
    (s.frameLen ≤ s.nmax → ∃ e p len, exec .encFrame s = .next { s with
        e := e, p := p, cur := s.frameLen, len := len
        out := s.out ++ rleEncode (Memory.slice e 0 s.frameLen) }
      ∧ (∀ j, Memory.read e j =
          if j < s.frameLen then Memory.read s.x j ^^^ Memory.read s.p j else Memory.read s.e j)
      ∧ ∀ j, Memory.read p j = if j < s.frameLen then Memory.read s.x j else Memory.read s.p j)
    ∧ (s.nmax < s.frameLen → exec .encFrame s = .next { s with cause := .badCfg, fault := true })

/-- R153: an exact product above NMAX raises BADCFG as the first action of either frame command; nothing else has been done.
STATUS reads 0x32. -/
def Obligations.BadConfigurationBeforeAnythingElse : Prop :=
  ∀ (s : State) (i : Instr), s.accepts = true → s.nmax < s.cfgW.toNat * s.cfgH.toNat → (i = .decFrame ∨ i = .encFrame) →
    exec i s = .next { s with cause := .badCfg, fault := true }
    ∧ ({ s with cause := .badCfg, fault := true } : State).statusWord = 0x32#32

/-- R154: a CMD value other than 0 to 3 raises BADCMD while idle and not faulted, with no other change and STATUS 0x42; while
busy or faulted the write is ignored. -/
def Obligations.BadCommandOnlyWhereCommandsAreAccepted : Prop :=
  ∀ (s : State) (w : Word) (rest : List HostAction), s.host = .writeReg 2 w :: rest → 4 ≤ w.toNat →
    (s.accepts = true → step s = .next { s with host := rest, cause := .badCmd, fault := true }
      ∧ ({ s with host := rest, cause := .badCmd, fault := true } : State).statusWord = 0x42#32)
    ∧ (s.accepts = false → step s = .next { s with host := rest })

/-- With N = 0 (R83, R131, R132): DEC_FRAME reads nothing and commits nothing, ENC_FRAME appends the single byte 0x80. -/
def Obligations.EmptyFrames : Prop :=
  ∀ s : State, s.accepts = true → s.frameLen = 0 →
    exec .decFrame s = .next { s with pos := 0 }
    ∧ exec .encFrame s = .next { s with cur := 0, len := 0, out := s.out ++ [0x80#8] }

/-! ### The host's accesses -/

/-- In the faulted state (R137) every write is ignored, to CMD (whatever command), CFG_W, CFG_H and the X port alike; reads work and
return the frozen state, after a BADCFG (N above NMAX) too, through the F port at every index below NMAX or from N on (there is no
F[j] at another, R40: PortsWithoutAnElement); only reset clears FAULT. Where a read's value stands is the model's choice: log 7. -/
def Obligations.FaultedStateIgnoresWrites : Prop :=
  ∀ (s : State) (rest : List HostAction), s.fault = true →
    (∀ n v, s.host = .writeReg n v :: rest → step s = .next { s with host := rest })
    ∧ (∀ j b, s.host = .writeX j b :: rest → step s = .next { s with host := rest })
    ∧ (∀ n, s.host = .readReg n :: rest → step s = .next { s with host := rest, regData := s.readReg n })
    ∧ (∀ j, s.host = .readF j :: rest → s.busy = false → (j < s.nmax ∨ s.frameLen ≤ j) →
        step s = .next { s with host := rest, portData := if j < s.frameLen then Memory.read s.f j else 0x00#8 })
    ∧ ∀ t, step s = .next t → (∀ input left later, s.host ≠ .reset input left :: later) → t.fault = true

/-- While busy (R136), writes to CMD, CFG_W, CFG_H and the X port are ignored, no command is queued and nothing faults; a
register read returns the current value, with BUSY = 1 in STATUS; a read through the F port returns an unspecified byte and
changes no state of the block. Where a read's value stands is the model's choice: log 7. -/
def Obligations.BusyBlockIgnoresWrites : Prop :=
  ∀ (s : State) (rest : List HostAction), s.busy = true →
    (∀ n v, s.host = .writeReg n v :: rest → step s = .next { s with host := rest })
    ∧ (∀ j b, s.host = .writeX j b :: rest → step s = .next { s with host := rest })
    ∧ (∀ n, s.host = .readReg n :: rest → step s = .next { s with host := rest, regData := s.readReg n })
    ∧ s.statusWord.getLsbD 0 = true
    ∧ ∀ j, s.host = .readF j :: rest → ∃ b k, step s = .next { s with host := rest, portData := b, free := k }

/-- The register map with its reset values: what each number reads as in every state, busy and faulted ones included (R33, R136, R137,
R160); and writes and the two ports while the block is idle and not faulted (R138, R139), N above NMAX included: the F port at every index below NMAX or from N on, the X port at every index below both and from N on. The model's
choice: where a read's value stands (log 7), and register 4 as POS mod 2^32 whatever NMAX is (log 10). -/
def Obligations.RegisterMapAndPorts : Prop :=
  (∀ n, State.reset.readReg n = 0#32)
  ∧ (∀ s : State, s.readReg 0 = s.cfgW ∧ s.readReg 1 = s.cfgH ∧ s.readReg 2 = 0#32 ∧ s.readReg 3 = s.statusWord
    ∧ s.readReg 4 = BitVec.ofNat 32 s.pos ∧ s.readReg 5 = BitVec.ofNat 32 s.sp ∧ ∀ n, 6 ≤ n → s.readReg n = 0#32)
  ∧ (∀ (s : State) (n : Nat) (rest : List HostAction), s.host = .readReg n :: rest →
    step s = .next { s with host := rest, regData := s.readReg n })
  ∧ ∀ (s : State) (rest : List HostAction), s.accepts = true →
    (∀ v, s.host = .writeReg 0 v :: rest → step s = .next { s with host := rest, cfgW := v })
    ∧ (∀ v, s.host = .writeReg 1 v :: rest → step s = .next { s with host := rest, cfgH := v })
    ∧ (∀ n v, 3 ≤ n → s.host = .writeReg n v :: rest → step s = .next { s with host := rest })
    ∧ (∀ j, s.host = .readF j :: rest → (j < s.nmax ∨ s.frameLen ≤ j) →
        step s = .next { s with host := rest, portData := if j < s.frameLen then Memory.read s.f j else 0x00#8 })
    ∧ (∀ j b, s.host = .writeX j b :: rest → j < s.frameLen → j < s.nmax →
        ∃ x, step s = .next { s with host := rest, x := x }
          ∧ ∀ j', Memory.read x j' = if j' = j then b else Memory.read s.x j')
    ∧ ∀ j b, s.host = .writeX j b :: rest → s.frameLen ≤ j → step s = .next { s with host := rest }

/-- STATUS (R30): BUSY in bit 0, FAULT in bit 1, the code of CAUSE in bits 7 to 4, every other bit 0; and the five codes of CAUSE
(R30, R150): 0 none, 1 TRUNCATED, 2 OVERRUN, 3 BADCFG, 4 BADCMD. -/
def Obligations.StatusWordFields : Prop :=
  (Cause.code .none = 0#4 ∧ Cause.code .truncated = 1#4 ∧ Cause.code .overrun = 2#4 ∧ Cause.code .badCfg = 3#4
    ∧ Cause.code .badCmd = 4#4)
  ∧ ∀ s : State, s.statusWord.getLsbD 0 = s.busy ∧ s.statusWord.getLsbD 1 = s.fault
    ∧ s.statusWord.extractLsb' 4 4 = s.cause.code
    ∧ s.statusWord.extractLsb' 2 2 = 0#2 ∧ s.statusWord.extractLsb' 8 24 = 0#24

/-- An idle block keeps all its state while the host does nothing (R165), its list of actions being empty or beginning with a wait
(the list is the model's own: log 5). -/
def Obligations.IdleBlockWaits : Prop :=
  ∀ s : State, s.running = none →
    (s.host = [] → step s = .next s) ∧ ∀ rest, s.host = .wait :: rest → step s = .next { s with host := rest }

/-! ### Rules about the whole machine -/

/-- In the faulted state (R157) no step but a reset changes anything of the block, so that CAUSE stays the first one; reset
clears STATUS and leaves both units at the start of an animation. Only what reads left on the host's side can have changed, which
stands in fields of the model's own: log 5, log 7, log 8. -/
def Obligations.OnlyResetLeavesTheFaultedState : Prop :=
  ∀ s t : State, s.StatusOk → s.fault = true → step s = .next t →
    ((∀ input left rest, s.host ≠ .reset input left :: rest) →
      t = { s with host := s.host.tail, regData := t.regData, portData := t.portData, free := t.free })
    ∧ ((∃ input left rest, s.host = .reset input left :: rest) →
      t.fault = false ∧ t.statusWord = 0#32 ∧ t.sp = 0 ∧ t.pos = 0 ∧ t.out = []
      ∧ ∀ j, Memory.read t.f j = 0x00#8 ∧ Memory.read t.p j = 0x00#8)

/-- A step that raises a fault (R156): BUSY is 0 and CAUSE says why, F and everything of the encoder, the configuration and
the streams are as they were, and SP has not moved back. -/
def Obligations.FaultingStepLeavesTheFrame : Prop :=
  ∀ s t : State, step s = .next t → s.fault = false → t.fault = true →
    t.busy = false ∧ t.cause ≠ .none ∧ t.f = s.f ∧ t.x = s.x ∧ t.p = s.p ∧ t.e = s.e ∧ t.cur = s.cur ∧ t.len = s.len
    ∧ t.out = s.out ∧ t.input = s.input ∧ t.cfgW = s.cfgW ∧ t.cfgH = s.cfgH ∧ t.nmax = s.nmax ∧ s.sp ≤ t.sp

/-- Between resets IN does not change, SP never moves back, OUT only grows at its end, and NMAX is fixed (R25, R29, R51). -/
def Obligations.StreamsOnlyMoveForward : Prop :=
  ∀ s t : State, step s = .next t → (∀ input left rest, s.host ≠ .reset input left :: rest) →
    t.input = s.input ∧ s.sp ≤ t.sp ∧ s.out <+: t.out ∧ t.nmax = s.nmax

/-- From every state that meets the invariant, F changes only by the commit of a DEC_FRAME, by CLEAR and by reset; P only by an
ENC_FRAME, by CLEAR and by reset (R22, R26). That at the record granularity BUSY is 0 after the very step that changes F, and
that P changes in the very step that issues the ENC_FRAME, is the model's choice: log 22. -/
def Obligations.FramesChangeOnlyByTheirEvents : Prop :=
  ∀ s t : State, s.Inv → step s = .next t → (∀ input left rest, s.host ≠ .reset input left :: rest) →
    (∀ rest, s.host ≠ .writeReg 2 0x00000003#32 :: rest) →
    (t.f ≠ s.f → t.busy = false ∧ t.fault = false ∧ t.pos = t.frameLen
      ∧ (s.running = some .dec ∧ s.pos = s.frameLen
        ∨ s.accepts = true ∧ ∃ rest, s.host = .writeReg 2 0x00000001#32 :: rest))
    ∧ (t.p ≠ s.p → s.accepts = true ∧ ∃ rest, s.host = .writeReg 2 0x00000002#32 :: rest)

/-- CFG_W and CFG_H change only by a host write to them while idle and not faulted, and by reset (R21). -/
def Obligations.ConfigurationChangesOnlyByTheHost : Prop :=
  ∀ s t : State, step s = .next t → (∀ input left rest, s.host ≠ .reset input left :: rest) →
    (t.cfgW ≠ s.cfgW → s.accepts = true ∧ ∃ rest, s.host = .writeReg 0 t.cfgW :: rest)
    ∧ (t.cfgH ≠ s.cfgH → s.accepts = true ∧ ∃ rest, s.host = .writeReg 1 t.cfgH :: rest)

/-- The units share only the configuration and STATUS (R2, R20): what DEC_FRAME does cannot depend on the encoder's state and
leaves it as it is, and the other way round for ENC_FRAME. -/
def Obligations.UnitsShareOnlyTheConfiguration : Prop :=
  (∀ (s t : State) (x p e : Memory) (cur len : Nat) (out : List Byte), exec .decFrame s = .next t →
    exec .decFrame { s with x := x, p := p, e := e, cur := cur, len := len, out := out }
      = .next { t with x := x, p := p, e := e, cur := cur, len := len, out := out })
  ∧ ∀ (s t : State) (input : List Byte) (sp pos : Nat) (hdr val : Byte) (cnt : BitVec 7) (d f : Memory),
    exec .encFrame s = .next t →
    exec .encFrame { s with input := input, sp := sp, hdr := hdr, cnt := cnt, val := val, pos := pos, d := d, f := f }
      = .next { t with input := input, sp := sp, hdr := hdr, cnt := cnt, val := val, pos := pos, d := d, f := f }

/-- Only the product of CFG_W and CFG_H matters to the frame commands (R187, R5). -/
def Obligations.OnlyTheProductMatters : Prop :=
  ∀ (s t : State) (w h : Word) (i : Instr), (i = .decFrame ∨ i = .encFrame) → w.toNat * h.toNat = s.frameLen →
    exec i s = .next t →
    exec i { s with cfgW := w, cfgH := h } = .next { t with cfgW := w, cfgH := h }

/-- R130: a command issued at the record granularity reaches, in at most as many steps as it has stream bytes and frame bytes
and four more, exactly the state that the command as one transition gives. How a command is cut into steps is the model's: log 6, log 22. -/
def Obligations.RecordGranularityReachesTheSameState : Prop :=
  ∀ (s : State) (w : Word) (i : Instr), s.grain = .record → s.host = [.writeReg 2 w] → decodeCommand w = .ok i →
    ∃ k t, k ≤ (s.input.length - s.sp) + s.frameLen + 4
      ∧ exec i { s with host := [] } = .next t ∧ Host.Core.run Sys2Proof.core k s = .next t

/-- The loop invariants of DEC (R85), after any number of record steps of a frame that has not ended: POS at most N, D[0..POS)
the concatenated payloads of the records executed, SP a record boundary of the parse that began at the frame's first SP. -/
def Obligations.DecodedSoFarIsInStaging : Prop :=
  ∀ (s t : State) (k : Nat), s.accepts = true → s.sp ≤ s.input.length → t = decLoop k (beginDec s) →
    t.running = some .dec →
    ∃ rs : List Instr, (∀ i ∈ rs, i.isRecord = true ∧ i.wf = true)
      ∧ s.input.drop s.sp = streamOf rs ++ t.input.drop t.sp
      ∧ t.sp = s.sp + (streamOf rs).length ∧ t.sp ≤ t.input.length ∧ t.pos ≤ t.frameLen
      ∧ Memory.slice t.d 0 t.pos = payloadOf rs

/-! ### The encoder's steps -/

/-- R101: fewer than 3 bytes left: the literal of those bytes, and CUR at N. That the tail's own step also ends the command is the
model's choice: log 22. -/
def Obligations.TailEndsTheEncoding : Prop :=
  ∀ s : State, s.running = some .enc → s.host = [] → s.frameLen ≤ s.nmax → s.cur ≤ s.frameLen → s.frameLen - s.cur < 3 →
    step s = .next { s with
      running := none, len := s.frameLen - s.cur, cur := s.frameLen
      out := s.out ++ (0x80#8 ||| BitVec.ofNat 8 (s.frameLen - s.cur)) :: Memory.slice s.e s.cur (s.frameLen - s.cur) }

/-- R102: three equal bytes at the cursor: a RUN of all the equal bytes from there on, at least 3 and at most 127. -/
def Obligations.RunTakesTheEqualBytes : Prop :=
  ∀ s : State, s.running = some .enc → s.host = [] → s.frameLen ≤ s.nmax → s.cur + 3 ≤ s.frameLen →
    Memory.read s.e s.cur = Memory.read s.e (s.cur + 1) → Memory.read s.e (s.cur + 1) = Memory.read s.e (s.cur + 2) →
    ∃ L, 3 ≤ L ∧ L ≤ 127 ∧ s.cur + L ≤ s.frameLen
      ∧ (∀ k, k < L → Memory.read s.e (s.cur + k) = Memory.read s.e s.cur)
      ∧ (L = 127 ∨ s.cur + L = s.frameLen ∨ Memory.read s.e (s.cur + L) ≠ Memory.read s.e s.cur)
      ∧ step s = .next { s with
          len := L, cur := s.cur + L, out := s.out ++ [BitVec.ofNat 8 L, Memory.read s.e s.cur] }

/-- R103 and R104: otherwise a literal, extended from 3 bytes until the cap (tested first), the end of data, or a byte equal to
the last one included, which cuts it one byte shorter. -/
def Obligations.LiteralStopsBeforeARepeat : Prop :=
  ∀ s : State, s.running = some .enc → s.host = [] → s.frameLen ≤ s.nmax → s.cur + 3 ≤ s.frameLen →
    ¬ (Memory.read s.e s.cur = Memory.read s.e (s.cur + 1) ∧ Memory.read s.e (s.cur + 1) = Memory.read s.e (s.cur + 2)) →
    ∃ M L, 3 ≤ M ∧ M ≤ 127 ∧ s.cur + M ≤ s.frameLen
      ∧ (∀ k, 3 ≤ k → k < M → Memory.read s.e (s.cur + k) ≠ Memory.read s.e (s.cur + k - 1))
      ∧ ((M = 127 ∧ L = M) ∨ (s.cur + M = s.frameLen ∧ L = M)
        ∨ (M < 127 ∧ s.cur + M < s.frameLen ∧ Memory.read s.e (s.cur + M) = Memory.read s.e (s.cur + M - 1) ∧ L = M - 1))
      ∧ step s = .next { s with
          len := L, cur := s.cur + L, out := s.out ++ BitVec.ofNat 8 (128 + L) :: Memory.slice s.e s.cur L }

/-- The commit (R121): with POS = N the step XORs D into F below N, ends the command, and changes nothing else. That the commit is
a step of its own, which also ends the command, is the model's choice: log 22. -/
def Obligations.CommitAccumulatesTheDelta : Prop :=
  ∀ s : State, s.running = some .dec → s.host = [] → s.frameLen ≤ s.nmax → s.pos = s.frameLen →
    ∃ f, step s = .next { s with running := none, f := f }
      ∧ ∀ j, Memory.read f j =
          if j < s.frameLen then Memory.read s.f j ^^^ Memory.read s.d j else Memory.read s.f j

/-- R124: committing the same delta twice restores the earlier frame, the same data and all; and the order of two deltas does
not matter. -/
def Obligations.AccumulateTwiceRestores : Prop :=
  ∀ (s : State), s.f.wf →
    accumulate (accumulate s) = s
    ∧ ∀ d, (accumulate { accumulate s with d := d }).f = (accumulate { accumulate { s with d := d } with d := s.d }).f

/-! ### The pure codec -/

/-- Round trip (R89 (a)): RLE_decode of RLE_encode(S) is S, for every S, with the end index of R87: one short where the
encoding ends in an empty tail and S is not empty, 0 for the empty S. -/
def Obligations.RoundTripReturnsTheSequence : Prop :=
  ∀ S : List Byte, rleDecode (rleEncode S) 0 S.length = .ok (S,
    if S = [] then 0
    else if (rleRecords S).getLast? = some (.lit []) then (rleEncode S).length - 1
    else (rleEncode S).length)

/-- Acceptance (R89 (b)): any records whose payloads have total length n decode to the concatenated payloads, at any place of
any stream, and end just after the first record at which the total reaches n; what stands after it is left unread. -/
def Obligations.EveryWellFormedFrameIsAccepted : Prop :=
  ∀ (before after : List Byte) (rs : List Instr) (m : Nat), (∀ i ∈ rs, i.isRecord = true ∧ i.wf = true) → m ≤ rs.length →
    (payloadOf (rs.take m)).length = (payloadOf rs).length →
    (∀ k, k < m → (payloadOf (rs.take k)).length < (payloadOf rs).length) →
    rleDecode (before ++ streamOf rs ++ after) before.length (payloadOf rs).length
      = .ok (payloadOf rs, before.length + (streamOf (rs.take m)).length)

/-- Corruption (R89 (c)): a stream that ends before the last record of the frame does raises TRUNCATED. -/
def Obligations.TruncationIsDetected : Prop :=
  ∀ (rs : List Instr) (k : Nat), (∀ i ∈ rs, i.isRecord = true ∧ i.wf = true) →
    (∀ j, j < rs.length → (payloadOf (rs.take j)).length < (payloadOf rs).length) →
    k < (streamOf rs).length →
    rleDecode ((streamOf rs).take k) 0 (payloadOf rs).length = .error .truncated

/-- Shape and correctness of the encoder's output (R107, R108): the records' payloads tile S; every RUN has a count of 3 to
127, every LIT but the last a count of 2 to 127, and the last record is a LIT of at most 2 bytes. -/
def Obligations.EncodedRecordsTileTheSequence : Prop :=
  ∀ S : List Byte, ∃ rs tail, rleRecords S = rs ++ [.lit tail] ∧ tail.length ≤ 2 ∧ payloadOf rs ++ tail = S
    ∧ rleEncode S = streamOf rs ++ BitVec.ofNat 8 (128 + tail.length) :: tail
    ∧ ∀ i ∈ rs, (∃ c v, i = .run c v ∧ 3 ≤ c.toNat) ∨ ∃ raw, i = .lit raw ∧ 2 ≤ raw.length ∧ raw.length ≤ 127

/-- The bound |RLE_encode(S)| <= n + ceil(n / 2) + 1, which R109 marks as its own inference from R108; at the other extreme 127
equal bytes cost 3. -/
def Obligations.EncodingSizeBound : Prop :=
  (∀ S : List Byte, (rleEncode S).length ≤ S.length + (S.length + 1) / 2 + 1)
  ∧ ∀ v : Byte, rleEncode (List.replicate 127 v) = [0x7F#8, v, 0x80#8]

/-- R105: RLE_encode(S) is what the encoder loop (R100) appends to OUT when it is run on S, and it follows the recursive
definition, on the bytes from the cursor on, with `runlen` the largest and `litlen` as `ext` says. -/
def Obligations.EncodingFollowsItsRecursion : Prop :=
  ∀ S : List Byte,
    (∀ s : State, s.running = some .enc → s.cur ≤ s.frameLen → Memory.slice s.e s.cur (s.frameLen - s.cur) = S →
      (encLoop s.encTurns s).out = s.out ++ rleEncode S)
    ∧ (S.length < 3 → rleEncode S = (0x80#8 ||| BitVec.ofNat 8 S.length) :: S)
    ∧ (∀ v rest, S = v :: v :: v :: rest → ∃ L, 3 ≤ L ∧ L ≤ min 127 S.length ∧ (∀ k, k < L → S.getD k 0x00#8 = v)
      ∧ (∀ L', L' ≤ min 127 S.length → (∀ k, k < L' → S.getD k 0x00#8 = v) → L' ≤ L)
      ∧ rleEncode S = BitVec.ofNat 8 L :: v :: rleEncode (S.drop L))
    ∧ ∀ a b c rest, S = a :: b :: c :: rest → ¬ (a = b ∧ b = c) → ∃ ext : Nat → Nat,
      (∀ L, 3 ≤ L → L ≤ min 127 S.length → ext L =
        if L = 127 ∨ L = S.length then L
        else if S.getD L 0x00#8 = S.getD (L - 1) 0x00#8 then L - 1 else ext (L + 1))
      ∧ rleEncode S = BitVec.ofNat 8 (128 + ext 3) :: S.take (ext 3) ++ rleEncode (S.drop (ext 3))

/-- The recursion of RLE_decode (R84) over a first record, told apart by the stream's first bytes: no byte needed, a record that
fits, a count above what is missing, and a stream that ends inside the record. -/
def Obligations.DecodingFollowsItsRecursion : Prop :=
  ∀ (T : List Byte) (s n : Nat),
    rleDecode T s 0 = .ok ([], s)
    ∧ (∀ i after, decodeRecord (T.drop s) = .ok (i, after) → 0 < n → (payload i).length ≤ n →
      rleDecode T s n = match rleDecode T (s + (recordBytes i).length) (n - (payload i).length) with
        | .ok (bytes, e) => .ok (payload i ++ bytes, e)
        | .error c => .error c)
    ∧ (∀ h after, T.drop s = h :: after → 0 < n → n < h.toNat % 128 → rleDecode T s n = .error .overrun)
    ∧ ∀ r, decodeRecord (T.drop s) = .error r → 0 < n → (∀ h after, T.drop s = h :: after → h.toNat % 128 ≤ n) →
      rleDecode T s n = .error .truncated

/-- Encoder and decoder together (R125), one frame: where the decoder's F is the encoder's P and the decoder's stream goes on,
after at most a leftover empty tail, with what ENC_FRAME appends, DEC_FRAME makes F the frame that was encoded, and again leaves
at most an empty tail before what follows. -/
def Obligations.EncoderAndDecoderReproduceTheFrame : Prop :=
  ∀ (enc enc' dec : State) (leftover after : List Byte), enc.accepts = true → dec.accepts = true →
    enc.frameLen = dec.frameLen → 0 < dec.frameLen → enc.frameLen ≤ enc.nmax → dec.frameLen ≤ dec.nmax →
    (∀ j, j < dec.frameLen → Memory.read dec.f j = Memory.read enc.p j) →
    exec .encFrame enc = .next enc' → (leftover = [] ∨ leftover = [0x80#8]) →
    dec.input.drop dec.sp = leftover ++ enc'.out.drop enc.out.length ++ after →
    ∃ dec', exec .decFrame dec = .next dec' ∧ dec'.fault = false
      ∧ (∀ j, j < dec.frameLen → Memory.read dec'.f j = Memory.read enc.x j)
      ∧ (∀ j, j < dec.frameLen → Memory.read dec'.f j = Memory.read enc'.p j)
      ∧ (dec'.input.drop dec'.sp = after ∨ dec'.input.drop dec'.sp = 0x80#8 :: after)

/-! ### The issuing step at the record granularity, and the ports above NMAX -/

/-- At the record granularity (R130) the step that issues a frame command shows BUSY = 1 with the unit at its start: DEC_FRAME with
POS = 0, ENC_FRAME with the difference taken and CUR = 0, and nothing else changed; with N above NMAX it raises BADCFG instead
(R134), and CLEAR completes within the issuing step. That the issuing step does so much and no more is the model's choice: log 22
(the granularity: log 6). -/
def Obligations.FrameCommandsShowBusyFromIssue : Prop :=
  ∀ (s : State) (rest : List HostAction), s.grain = .record → s.accepts = true →
    (s.host = .writeReg 2 0x00000001#32 :: rest → s.frameLen ≤ s.nmax →
      ∃ t, step s = .next t ∧ t = { s with host := rest, running := some .dec, pos := 0 }
        ∧ t.statusWord.getLsbD 0 = true ∧ t.readReg 4 = 0#32)
    ∧ (s.host = .writeReg 2 0x00000002#32 :: rest → s.frameLen ≤ s.nmax →
      ∃ t e p, step s = .next t ∧ t = { s with host := rest, running := some .enc, cur := 0, e := e, p := p }
        ∧ t.statusWord.getLsbD 0 = true
        ∧ (∀ j, Memory.read e j =
            if j < s.frameLen then Memory.read s.x j ^^^ Memory.read s.p j else Memory.read s.e j)
        ∧ ∀ j, Memory.read p j = if j < s.frameLen then Memory.read s.x j else Memory.read s.p j)
    ∧ (∀ w : Word, (w = 0x00000001#32 ∨ w = 0x00000002#32) → s.host = .writeReg 2 w :: rest → s.nmax < s.frameLen →
      ∃ t, step s = .next t ∧ t = { s with host := rest, cause := .badCfg, fault := true } ∧ t.statusWord = 0x32#32)
    ∧ (s.host = .writeReg 2 0x00000003#32 :: rest →
      ∃ t, step s = .next t ∧ exec .clear { s with host := rest } = .next t ∧ t.statusWord.getLsbD 0 = false)

/-- The ports at an index from NMAX on and below N, where there is no element (R40): a read returns some byte, a write is ignored,
and nothing of the block changes. The model's choice throughout: log 9, log 7, log 8. -/
def Obligations.PortsWithoutAnElement : Prop :=
  ∀ (s : State) (rest : List HostAction) (j : Nat), s.busy = false → s.nmax ≤ j → j < s.frameLen →
    (s.host = .readF j :: rest → ∃ b k, step s = .next { s with host := rest, portData := b, free := k })
    ∧ ∀ b, s.host = .writeX j b :: rest → step s = .next { s with host := rest }

/-- Where the host makes no access (its action `wait`), the block does what it does with no host action left, in every state: a record
whole or cut short, the commit, an emission, or nothing, and the action is used up. Where a stream port makes the block wait (`hold`)
nothing changes (R53), and the action is used up. The two actions are the model's own: log 5, log 15. -/
def Obligations.WaitWorksAndHoldKeepsTheState : Prop :=
  ∀ (s : State) (rest : List HostAction),
    (s.host = .wait :: rest →
      (∀ t, step { s with host := [] } = .next t → step s = .next { t with host := rest })
      ∧ (∀ r, step { s with host := [] } = .fault r → step s = .fault r)
      ∧ ∀ r, step { s with host := [] } = .refused r → step s = .refused r)
    ∧ (s.host = .hold :: rest → step s = .next { s with host := rest })
end

