-- ==== Sys2Proof/Laws/Decode.lean ====
section
/-! SUPPORT. The laws of the header byte (30_encoding.md R61, R65) and what decoding can answer, said once. -/

namespace Sys2Proof

/-! ### The header byte -/

theorem countField_toNat (h : Byte) : (countField h).toNat = h.toNat % 128 := by
  simp [countField, BitVec.toNat_setWidth]

theorem kindBit_eq (h : Byte) : kindBit h = decide (128 ≤ h.toNat) := by
  simp [kindBit, BitVec.msb_eq_decide]

@[simp] theorem kindBit_runHeader (c : BitVec 7) : kindBit (runHeader c) = false := by
  revert c; decide

@[simp] theorem kindBit_litHeader (c : BitVec 7) : kindBit (litHeader c) = true := by
  revert c; decide

@[simp] theorem countField_runHeader (c : BitVec 7) : countField (runHeader c) = c := by
  revert c; decide

@[simp] theorem countField_litHeader (c : BitVec 7) : countField (litHeader c) = c := by
  revert c; decide

theorem runHeader_countField (h : Byte) (hk : kindBit h = false) : runHeader (countField h) = h := by
  revert h; decide

theorem litHeader_countField (h : Byte) (hk : kindBit h = true) : litHeader (countField h) = h := by
  revert h; decide

theorem runHeader_toNat (c : BitVec 7) : (runHeader c).toNat = c.toNat := by
  revert c; decide

theorem litHeader_toNat (c : BitVec 7) : (litHeader c).toNat = 128 + c.toNat := by
  revert c; decide

@[simp] theorem litCount_toNat (n : Nat) : (litCount n).toNat = n % 128 := by
  simp [litCount]

theorem litCount_length {raw : List Byte} (h : (Instr.lit raw).wf = true) :
    (litCount raw.length).toNat = raw.length := by
  have : raw.length ≤ 127 := by simpa [Instr.wf] using h
  simp; omega

theorem litCount_of_toNat (c : BitVec 7) : litCount c.toNat = c := by
  simp [litCount]

/-! ### What decoding answers -/

/-- The whole record decoder, by what the stream holds. -/
theorem decodeRecord_cases (bs : List Byte) :
    (bs = [] ∧ decodeRecord bs = .error .noHeader)
    ∨ (∃ c, bs = [runHeader c] ∧ decodeRecord bs = .error (.noValue c))
    ∨ (∃ c v rest, bs = runHeader c :: v :: rest ∧ decodeRecord bs = .ok (.run c v, rest))
    ∨ (∃ c present, bs = litHeader c :: present ∧ present.length < c.toNat
        ∧ decodeRecord bs = .error (.shortRaw c present))
    ∨ (∃ raw rest, bs = litHeader (litCount raw.length) :: (raw ++ rest) ∧ raw.length ≤ 127
        ∧ decodeRecord bs = .ok (.lit raw, rest)) := by
  cases bs with
  | nil => exact .inl ⟨rfl, rfl⟩
  | cons h rest =>
    cases hk : kindBit h
    · have hh := runHeader_countField h hk
      cases rest with
      | nil => exact .inr (.inl ⟨countField h, by rw [hh], by simp [decodeRecord, hk, decodeRun]⟩)
      | cons v rest =>
        exact .inr (.inr (.inl ⟨countField h, v, rest, by rw [hh], by simp [decodeRecord, hk, decodeRun]⟩))
    · have hh := litHeader_countField h hk
      have hc : (countField h).toNat < 128 := (countField h).isLt
      by_cases hl : (countField h).toNat ≤ rest.length
      · refine .inr (.inr (.inr (.inr ⟨rest.take (countField h).toNat, rest.drop (countField h).toNat, ?_, ?_, ?_⟩)))
        · rw [List.take_append_drop, List.length_take, Nat.min_eq_left hl, litCount_of_toNat, hh]
        · simp; omega
        · simp [decodeRecord, hk, decodeLit, hl]
      · refine .inr (.inr (.inr (.inl ⟨countField h, rest, by rw [hh], by omega, ?_⟩)))
        simp [decodeRecord, hk, decodeLit]; omega

theorem decodeRecord_run (c : BitVec 7) (v : Byte) (rest : List Byte) :
    decodeRecord (runHeader c :: v :: rest) = .ok (.run c v, rest) := by
  simp [decodeRecord, decodeRun]

theorem decodeRecord_lit {raw : List Byte} (rest : List Byte) (h : raw.length ≤ 127) :
    decodeRecord (litHeader (litCount raw.length) :: (raw ++ rest)) = .ok (.lit raw, rest) := by
  have hm : raw.length % 128 = raw.length := by omega
  simp [decodeRecord, decodeLit, hm]

theorem decodeRecord_noValue (c : BitVec 7) : decodeRecord [runHeader c] = .error (.noValue c) := by
  simp [decodeRecord, decodeRun]

theorem decodeRecord_shortRaw (c : BitVec 7) {present : List Byte} (h : present.length < c.toNat) :
    decodeRecord (litHeader c :: present) = .error (.shortRaw c present) := by
  simp [decodeRecord, decodeLit]; omega

/-- The four commands, and nothing else (R72). -/
theorem decodeCommand_cases (w : Word) :
    (w = 0#32 ∧ decodeCommand w = .ok .nop) ∨ (w = 1#32 ∧ decodeCommand w = .ok .decFrame)
    ∨ (w = 2#32 ∧ decodeCommand w = .ok .encFrame) ∨ (w = 3#32 ∧ decodeCommand w = .ok .clear)
    ∨ (4 ≤ w.toNat ∧ decodeCommand w = .error (.badCommand w)) := by
  by_cases h0 : w = 0#32
  · exact .inl ⟨h0, by simp [decodeCommand, h0]⟩
  by_cases h1 : w = 1#32
  · exact .inr (.inl ⟨h1, by simp [decodeCommand, h1]⟩)
  by_cases h2 : w = 2#32
  · exact .inr (.inr (.inl ⟨h2, by simp [decodeCommand, h2]⟩))
  by_cases h3 : w = 3#32
  · exact .inr (.inr (.inr (.inl ⟨h3, by simp [decodeCommand, h3]⟩)))
  refine .inr (.inr (.inr (.inr ⟨?_, by simp [decodeCommand, h0, h1, h2, h3]⟩)))
  bv_omega

end Sys2Proof
end

