-- ==== Sys2Proof/Laws/Memory.lean ====
section
/-! SUPPORT. The laws of the buffers: what each operation leaves at each index, and that each keeps the canonical form and
the bound on the indices. -/

namespace Sys2Proof.Machine

/-! ### Reading after one write -/

@[simp] theorem Memory.read_nil (a : Nat) : Memory.read [] a = 0#8 := rfl

theorem Memory.read_erase (m : Memory) (a a' : Nat) :
    Memory.read (Memory.erase m a) a' = if a' = a then 0#8 else Memory.read m a' := by
  induction m with
  | nil => simp [Memory.erase]
  | cons c m ih =>
    simp only [Memory.erase] at ih ⊢
    by_cases hc : c.1 = a
    · simp only [List.filter_cons, hc, ne_eq, not_true, decide_false, Bool.false_eq_true, if_false, ih, Memory.read]
      by_cases h : a' = a
      · simp [h]
      · simp [h, Ne.symm h]
    · simp only [List.filter_cons, ne_eq, hc, not_false_eq_true, decide_true, if_true, Memory.read, ih]
      by_cases h : c.1 = a'
      · subst h; simp [hc]
      · simp [h]

theorem Memory.read_insert (m : Memory) (a a' : Nat) (b : Byte) (hm : ∀ c ∈ m, c.1 ≠ a) :
    Memory.read (Memory.insert m a b) a' = if a' = a then b else Memory.read m a' := by
  induction m with
  | nil => by_cases h : a' = a <;> simp [Memory.insert, Memory.read, h, Ne.symm]
  | cons c m ih =>
    have ha : c.1 ≠ a := hm c (by simp)
    have ih := ih (fun c' h => hm c' (by simp [h]))
    simp only [Memory.insert]
    split
    · by_cases h : a' = a
      · simp [Memory.read, h]
      · simp [Memory.read, h, Ne.symm h]
    · simp only [Memory.read, ih]
      by_cases h : c.1 = a'
      · subst h; simp [ha]
      · simp [h]

theorem Memory.erase_ne (m : Memory) (a : Nat) : ∀ c ∈ Memory.erase m a, c.1 ≠ a := by
  intro c hc
  simpa using (List.mem_filter.mp hc).2

/-- A read after a write: the byte written at its index, what was there before at every other. -/
theorem Memory.read_write (m : Memory) (a a' : Nat) (b : Byte) :
    Memory.read (Memory.write m a b) a' = if a' = a then b else Memory.read m a' := by
  unfold Memory.write
  split
  · rename_i hb; subst hb; exact Memory.read_erase m a a'
  · rw [Memory.read_insert _ _ _ _ (Memory.erase_ne m a), Memory.read_erase]
    split <;> rfl

@[simp] theorem Memory.read_write_same (m : Memory) (a : Nat) (b : Byte) :
    Memory.read (Memory.write m a b) a = b := by simp [Memory.read_write]

theorem Memory.read_write_other (m : Memory) {a a' : Nat} (b : Byte) (h : a' ≠ a) :
    Memory.read (Memory.write m a b) a' = Memory.read m a' := by simp [Memory.read_write, h]

/-! ### One write keeps the form -/

theorem Memory.mem_insert {m : Memory} {a : Nat} {b : Byte} {c : Host.Cell}
    (h : c ∈ Memory.insert m a b) : c = (a, b) ∨ c ∈ m := by
  induction m with
  | nil => simpa [Memory.insert] using h
  | cons c' m ih =>
    simp only [Memory.insert] at h
    split at h
    · simpa using h
    · rcases List.mem_cons.mp h with h | h
      · exact .inr (by simp [h])
      · rcases ih h with h | h
        · exact .inl h
        · exact .inr (by simp [h])

theorem Memory.insert_sorted {m : Memory} {a : Nat} {b : Byte}
    (hm : List.Pairwise (fun c c' : Host.Cell => c.1 < c'.1) m) (ha : ∀ c ∈ m, c.1 ≠ a) :
    List.Pairwise (fun c c' : Host.Cell => c.1 < c'.1) (Memory.insert m a b) := by
  induction m with
  | nil => simp [Memory.insert]
  | cons c m ih =>
    obtain ⟨hc, hm'⟩ := List.pairwise_cons.mp hm
    simp only [Memory.insert]
    split
    · rename_i h
      refine List.pairwise_cons.mpr ⟨fun c' hc' => ?_, hm⟩
      rcases List.mem_cons.mp hc' with h' | h'
      · subst h'; exact h
      · exact Nat.lt_trans h (hc c' h')
    · rename_i h
      have hca : c.1 ≠ a := ha c (by simp)
      refine List.pairwise_cons.mpr ⟨fun c' hc' => ?_, ih hm' (fun c' h' => ha c' (by simp [h']))⟩
      rcases Memory.mem_insert hc' with h' | h'
      · subst h'; show c.1 < a; omega
      · exact hc c' h'

theorem Memory.erase_wf {m : Memory} (a : Nat) (hm : m.wf) : Memory.wf (Memory.erase m a) :=
  ⟨List.Pairwise.filter _ hm.1, fun c hc => hm.2 c (List.mem_of_mem_filter hc)⟩

theorem Memory.write_wf {m : Memory} (a : Nat) (b : Byte) (hm : m.wf) : Memory.wf (Memory.write m a b) := by
  have he := Memory.erase_wf a hm
  unfold Memory.write
  split
  · exact he
  · rename_i hb
    refine ⟨Memory.insert_sorted he.1 (Memory.erase_ne m a), fun c hc => ?_⟩
    rcases Memory.mem_insert hc with h | h
    · subst h; exact hb
    · exact he.2 c h

theorem Memory.write_below {m : Memory} {n a : Nat} (b : Byte) (hm : m.below n) (ha : a < n) :
    Memory.below n (Memory.write m a b) := by
  unfold Memory.write
  intro c hc
  split at hc
  · exact hm c (List.mem_of_mem_filter hc)
  · rcases Memory.mem_insert hc with h | h
    · subst h; exact ha
    · exact hm c (List.mem_of_mem_filter h)

/-! ### Equal memories are equal data -/

theorem Memory.read_of_lt {m : Memory} {a : Nat} (h : ∀ c ∈ m, a < c.1) : Memory.read m a = 0#8 := by
  induction m with
  | nil => rfl
  | cons c m ih =>
    have := h c (by simp)
    simp only [Memory.read]
    rw [if_neg (by omega)]
    exact ih (fun c' h' => h c' (by simp [h']))

/-- Two buffers in canonical form that read the same at every index are the same data. -/
theorem Memory.eq_of_read_eq {m m' : Memory} (hm : m.wf) (hm' : m'.wf)
    (h : ∀ a, Memory.read m a = Memory.read m' a) : m = m' := by
  induction m generalizing m' with
  | nil =>
    cases m' with
    | nil => rfl
    | cons c m' =>
      have := h c.1
      simp only [Memory.read, if_pos] at this
      exact absurd this.symm (hm'.2 c (by simp))
  | cons c m ih =>
    obtain ⟨hc, hs⟩ := List.pairwise_cons.mp hm.1
    cases m' with
    | nil =>
      have := h c.1
      simp only [Memory.read, if_pos] at this
      exact absurd this (hm.2 c (by simp))
    | cons c' m' =>
      obtain ⟨hc', hs'⟩ := List.pairwise_cons.mp hm'.1
      have hlt : ∀ {c c' : Host.Cell} {m m' : Memory}, (∀ d ∈ m, c.1 < d.1) → (∀ d ∈ m', c'.1 < d.1) → c.2 ≠ 0#8 →
          (∀ a, Memory.read (c :: m) a = Memory.read (c' :: m') a) → ¬ c.1 < c'.1 := by
        intro c c' m m' _ hc' hz h hlt
        have h1 := h c.1
        rw [Memory.read_of_lt (m := c' :: m') (a := c.1)] at h1
        · simp only [Memory.read, if_pos] at h1; exact hz h1
        · intro d hd
          rcases List.mem_cons.mp hd with hd | hd
          · subst hd; exact hlt
          · exact Nat.lt_trans hlt (hc' d hd)
      have h1 := hlt hc hc' (hm.2 c (by simp)) h
      have h2 := hlt hc' hc (hm'.2 c' (by simp)) (fun a => (h a).symm)
      have heq : c.1 = c'.1 := by omega
      have hval : c.2 = c'.2 := by
        have := h c.1
        simpa [Memory.read, heq] using this
      have htail : m = m' := by
        refine ih ⟨hs, fun d hd => hm.2 d (by simp [hd])⟩ ⟨hs', fun d hd => hm'.2 d (by simp [hd])⟩ (fun a => ?_)
        by_cases ha : c.1 = a
        · rw [Memory.read_of_lt (fun d hd => by have := hc d hd; omega),
            Memory.read_of_lt (fun d hd => by have := hc' d hd; omega)]
        · have := h a
          simp only [Memory.read, ← heq, if_neg ha] at this
          exact this
      rw [htail, Prod.ext heq hval]

/-! ### The loops over elements -/

theorem Memory.read_writeAll (m : Memory) (a : Nat) (bs : List Byte) (a' : Nat) :
    Memory.read (Memory.writeAll m a bs) a' =
      if a ≤ a' ∧ a' < a + bs.length then bs.getD (a' - a) 0#8 else Memory.read m a' := by
  induction bs generalizing m a with
  | nil => simp [Memory.writeAll]
  | cons b bs ih =>
    rw [Memory.writeAll, ih, Memory.read_write]
    by_cases h : a' = a
    · subst h; simp
    · by_cases h1 : a + 1 ≤ a' ∧ a' < a + 1 + bs.length
      · rw [if_pos h1, if_pos (by simp only [List.length_cons]; omega)]
        obtain ⟨k, hk⟩ : ∃ k, a' - a = k + 1 := ⟨a' - a - 1, by omega⟩
        rw [hk, List.getD_cons_succ]
        congr 1; omega
      · rw [if_neg h1, if_neg h, if_neg (by simp only [List.length_cons]; omega)]

theorem Memory.writeAll_wf {m : Memory} (a : Nat) (bs : List Byte) (hm : m.wf) :
    Memory.wf (Memory.writeAll m a bs) := by
  induction bs generalizing m a with
  | nil => exact hm
  | cons b bs ih => exact ih _ (Memory.write_wf a b hm)

theorem Memory.writeAll_below {m : Memory} {n a : Nat} {bs : List Byte} (hm : m.below n) (h : a + bs.length ≤ n) :
    Memory.below n (Memory.writeAll m a bs) := by
  induction bs generalizing m a with
  | nil => exact hm
  | cons b bs ih =>
    simp only [List.length_cons] at h
    exact ih (Memory.write_below b hm (by omega)) (by omega)

theorem Memory.ofBytes_wf (bs : List Byte) : Memory.wf (Memory.ofBytes bs) :=
  Memory.writeAll_wf 0 bs ⟨List.Pairwise.nil, by simp⟩

theorem Memory.ofBytes_below (n : Nat) (bs : List Byte) : Memory.below n (Memory.ofBytes (bs.take n)) :=
  Memory.writeAll_below (by simp) (by simp)

theorem Memory.read_ofBytes (bs : List Byte) (a : Nat) : Memory.read (Memory.ofBytes bs) a = bs.getD a 0#8 := by
  rw [Memory.ofBytes, Memory.read_writeAll]
  by_cases h : a < bs.length
  · simp [h]
  · simp [h]

@[simp] theorem Memory.length_slice (m : Memory) (a n : Nat) : (Memory.slice m a n).length = n := by
  simp [Memory.slice]

theorem Memory.getD_slice (m : Memory) (a n k : Nat) (h : k < n) :
    (Memory.slice m a n).getD k 0#8 = Memory.read m (a + k) := by
  simp [Memory.slice, h]

theorem Memory.read_clearBelow (n : Nat) (m : Memory) (a : Nat) :
    Memory.read (Memory.clearBelow n m) a = if a < n then 0#8 else Memory.read m a := by
  induction m with
  | nil => simp [Memory.clearBelow]
  | cons c m ih =>
    simp only [Memory.clearBelow] at ih ⊢
    by_cases hc : n ≤ c.1
    · simp only [List.filter_cons, hc, decide_true, if_true, Memory.read, ih]
      by_cases h : c.1 = a
      · rw [if_pos h, if_pos h, if_neg (by omega)]
      · rw [if_neg h, if_neg h]
    · simp only [List.filter_cons, hc, decide_false, Bool.false_eq_true, if_false, ih, Memory.read]
      by_cases h : c.1 = a
      · rw [if_pos (by omega), if_pos (by omega)]
      · rw [if_neg h]

theorem Memory.clearBelow_wf {n : Nat} {m : Memory} (hm : m.wf) : Memory.wf (Memory.clearBelow n m) :=
  ⟨List.Pairwise.filter _ hm.1, fun c hc => hm.2 c (List.mem_of_mem_filter hc)⟩

theorem Memory.clearBelow_below {n k : Nat} {m : Memory} (hm : m.below k) : Memory.below k (Memory.clearBelow n m) :=
  fun c hc => hm c (List.mem_of_mem_filter hc)

theorem Memory.read_accumulate (n : Nat) (f d : Memory) (a : Nat) :
    Memory.read (Memory.accumulate n f d) a =
      if a < n then Memory.read f a ^^^ Memory.read d a else Memory.read f a := by
  induction n with
  | zero => simp [Memory.accumulate]
  | succ n ih =>
    rw [Memory.accumulate, Memory.read_write, ih]
    by_cases h : a = n
    · subst h; simp
    · by_cases h1 : a < n
      · rw [if_neg h, if_pos h1, if_pos (by omega)]
      · rw [if_neg h, if_neg h1, if_neg (by omega)]

theorem Memory.accumulate_wf {n : Nat} {f : Memory} (d : Memory) (hf : f.wf) : Memory.wf (Memory.accumulate n f d) := by
  induction n with
  | zero => exact hf
  | succ n ih => exact Memory.write_wf _ _ ih

theorem Memory.accumulate_below {n k : Nat} {f : Memory} (d : Memory) (hf : f.below k) (h : n ≤ k) :
    Memory.below k (Memory.accumulate n f d) := by
  induction n with
  | zero => exact hf
  | succ n ih => exact Memory.write_below _ (ih (by omega)) (by omega)

theorem Memory.read_difference (n : Nat) (e x p : Memory) (a : Nat) :
    Memory.read (Memory.difference n e x p) a =
      if a < n then Memory.read x a ^^^ Memory.read p a else Memory.read e a := by
  induction n with
  | zero => simp [Memory.difference]
  | succ n ih =>
    rw [Memory.difference, Memory.read_write, ih]
    by_cases h : a = n
    · subst h; simp
    · by_cases h1 : a < n
      · rw [if_neg h, if_pos h1, if_pos (by omega)]
      · rw [if_neg h, if_neg h1, if_neg (by omega)]

theorem Memory.difference_wf {n : Nat} {e : Memory} (x p : Memory) (he : e.wf) :
    Memory.wf (Memory.difference n e x p) := by
  induction n with
  | zero => exact he
  | succ n ih => exact Memory.write_wf _ _ ih

theorem Memory.difference_below {n k : Nat} {e : Memory} (x p : Memory) (he : e.below k) (h : n ≤ k) :
    Memory.below k (Memory.difference n e x p) := by
  induction n with
  | zero => exact he
  | succ n ih => exact Memory.write_below _ (ih (by omega)) (by omega)

theorem Memory.read_copyBelow (n : Nat) (p x : Memory) (a : Nat) :
    Memory.read (Memory.copyBelow n p x) a = if a < n then Memory.read x a else Memory.read p a := by
  induction n with
  | zero => simp [Memory.copyBelow]
  | succ n ih =>
    rw [Memory.copyBelow, Memory.read_write, ih]
    by_cases h : a = n
    · subst h; simp
    · by_cases h1 : a < n
      · rw [if_neg h, if_pos h1, if_pos (by omega)]
      · rw [if_neg h, if_neg h1, if_neg (by omega)]

theorem Memory.copyBelow_wf {n : Nat} {p : Memory} (x : Memory) (hp : p.wf) : Memory.wf (Memory.copyBelow n p x) := by
  induction n with
  | zero => exact hp
  | succ n ih => exact Memory.write_wf _ _ ih

theorem Memory.copyBelow_below {n k : Nat} {p : Memory} (x : Memory) (hp : p.below k) (h : n ≤ k) :
    Memory.below k (Memory.copyBelow n p x) := by
  induction n with
  | zero => exact hp
  | succ n ih => exact Memory.write_below _ (ih (by omega)) (by omega)

end Sys2Proof.Machine
end

