-- ==== Sys2Proof/Laws/State.lean ====
section
/-! SUPPORT. What each named update does to each field of the state, and to the frame length, which is computed from
two of them. All are true by definition; later proofs rewrite with them and unfold no update. -/

namespace Sys2Proof.Machine

/-! ### takeFault -/

@[simp] theorem takeFault_nmax (c : Cause) (s : State) : (takeFault c s).nmax = s.nmax := rfl
@[simp] theorem takeFault_cfgW (c : Cause) (s : State) : (takeFault c s).cfgW = s.cfgW := rfl
@[simp] theorem takeFault_cfgH (c : Cause) (s : State) : (takeFault c s).cfgH = s.cfgH := rfl
@[simp] theorem takeFault_running (c : Cause) (s : State) : (takeFault c s).running = none := rfl
@[simp] theorem takeFault_fault (c : Cause) (s : State) : (takeFault c s).fault = true := rfl
@[simp] theorem takeFault_cause (c : Cause) (s : State) : (takeFault c s).cause = c := rfl
@[simp] theorem takeFault_input (c : Cause) (s : State) : (takeFault c s).input = s.input := rfl
@[simp] theorem takeFault_sp (c : Cause) (s : State) : (takeFault c s).sp = s.sp := rfl
@[simp] theorem takeFault_hdr (c : Cause) (s : State) : (takeFault c s).hdr = s.hdr := rfl
@[simp] theorem takeFault_cnt (c : Cause) (s : State) : (takeFault c s).cnt = s.cnt := rfl
@[simp] theorem takeFault_val (c : Cause) (s : State) : (takeFault c s).val = s.val := rfl
@[simp] theorem takeFault_pos (c : Cause) (s : State) : (takeFault c s).pos = s.pos := rfl
@[simp] theorem takeFault_d (c : Cause) (s : State) : (takeFault c s).d = s.d := rfl
@[simp] theorem takeFault_f (c : Cause) (s : State) : (takeFault c s).f = s.f := rfl
@[simp] theorem takeFault_x (c : Cause) (s : State) : (takeFault c s).x = s.x := rfl
@[simp] theorem takeFault_p (c : Cause) (s : State) : (takeFault c s).p = s.p := rfl
@[simp] theorem takeFault_e (c : Cause) (s : State) : (takeFault c s).e = s.e := rfl
@[simp] theorem takeFault_cur (c : Cause) (s : State) : (takeFault c s).cur = s.cur := rfl
@[simp] theorem takeFault_len (c : Cause) (s : State) : (takeFault c s).len = s.len := rfl
@[simp] theorem takeFault_out (c : Cause) (s : State) : (takeFault c s).out = s.out := rfl
@[simp] theorem takeFault_grain (c : Cause) (s : State) : (takeFault c s).grain = s.grain := rfl
@[simp] theorem takeFault_host (c : Cause) (s : State) : (takeFault c s).host = s.host := rfl
@[simp] theorem takeFault_regData (c : Cause) (s : State) : (takeFault c s).regData = s.regData := rfl
@[simp] theorem takeFault_portData (c : Cause) (s : State) : (takeFault c s).portData = s.portData := rfl
@[simp] theorem takeFault_free (c : Cause) (s : State) : (takeFault c s).free = s.free := rfl
@[simp] theorem takeFault_frameLen (c : Cause) (s : State) : (takeFault c s).frameLen = s.frameLen := rfl

/-! ### applyReset -/

@[simp] theorem applyReset_nmax (inp : List Byte) (left : Leftover) (s : State) :
    (applyReset inp left s).nmax = s.nmax := rfl
@[simp] theorem applyReset_cfgW (inp : List Byte) (left : Leftover) (s : State) :
    (applyReset inp left s).cfgW = 0#32 := rfl
@[simp] theorem applyReset_cfgH (inp : List Byte) (left : Leftover) (s : State) :
    (applyReset inp left s).cfgH = 0#32 := rfl
@[simp] theorem applyReset_running (inp : List Byte) (left : Leftover) (s : State) :
    (applyReset inp left s).running = none := rfl
@[simp] theorem applyReset_fault (inp : List Byte) (left : Leftover) (s : State) :
    (applyReset inp left s).fault = false := rfl
@[simp] theorem applyReset_cause (inp : List Byte) (left : Leftover) (s : State) :
    (applyReset inp left s).cause = .none := rfl
@[simp] theorem applyReset_input (inp : List Byte) (left : Leftover) (s : State) :
    (applyReset inp left s).input = inp := rfl
@[simp] theorem applyReset_sp (inp : List Byte) (left : Leftover) (s : State) : (applyReset inp left s).sp = 0 := rfl
@[simp] theorem applyReset_hdr (inp : List Byte) (left : Leftover) (s : State) :
    (applyReset inp left s).hdr = left.hdr := rfl
@[simp] theorem applyReset_cnt (inp : List Byte) (left : Leftover) (s : State) :
    (applyReset inp left s).cnt = left.cnt := rfl
@[simp] theorem applyReset_val (inp : List Byte) (left : Leftover) (s : State) :
    (applyReset inp left s).val = left.val := rfl
@[simp] theorem applyReset_pos (inp : List Byte) (left : Leftover) (s : State) :
    (applyReset inp left s).pos = 0 := rfl
@[simp] theorem applyReset_d (inp : List Byte) (left : Leftover) (s : State) :
    (applyReset inp left s).d = Memory.ofBytes (left.d.take s.nmax) := rfl
@[simp] theorem applyReset_f (inp : List Byte) (left : Leftover) (s : State) : (applyReset inp left s).f = [] := rfl
@[simp] theorem applyReset_x (inp : List Byte) (left : Leftover) (s : State) :
    (applyReset inp left s).x = Memory.ofBytes (left.x.take s.nmax) := rfl
@[simp] theorem applyReset_p (inp : List Byte) (left : Leftover) (s : State) : (applyReset inp left s).p = [] := rfl
@[simp] theorem applyReset_e (inp : List Byte) (left : Leftover) (s : State) :
    (applyReset inp left s).e = Memory.ofBytes (left.e.take s.nmax) := rfl
@[simp] theorem applyReset_cur (inp : List Byte) (left : Leftover) (s : State) :
    (applyReset inp left s).cur = left.cur := rfl
@[simp] theorem applyReset_len (inp : List Byte) (left : Leftover) (s : State) :
    (applyReset inp left s).len = left.len.val := rfl
@[simp] theorem applyReset_out (inp : List Byte) (left : Leftover) (s : State) :
    (applyReset inp left s).out = [] := rfl
@[simp] theorem applyReset_grain (inp : List Byte) (left : Leftover) (s : State) :
    (applyReset inp left s).grain = s.grain := rfl
@[simp] theorem applyReset_host (inp : List Byte) (left : Leftover) (s : State) :
    (applyReset inp left s).host = s.host := rfl
@[simp] theorem applyReset_regData (inp : List Byte) (left : Leftover) (s : State) :
    (applyReset inp left s).regData = s.regData := rfl
@[simp] theorem applyReset_portData (inp : List Byte) (left : Leftover) (s : State) :
    (applyReset inp left s).portData = s.portData := rfl
@[simp] theorem applyReset_free (inp : List Byte) (left : Leftover) (s : State) :
    (applyReset inp left s).free = s.free := rfl
@[simp] theorem applyReset_frameLen (inp : List Byte) (left : Leftover) (s : State) : (applyReset inp left s).frameLen = 0 := rfl

/-! ### advance -/

@[simp] theorem advance_nmax (s : State) : (advance s).nmax = s.nmax := rfl
@[simp] theorem advance_cfgW (s : State) : (advance s).cfgW = s.cfgW := rfl
@[simp] theorem advance_cfgH (s : State) : (advance s).cfgH = s.cfgH := rfl
@[simp] theorem advance_running (s : State) : (advance s).running = s.running := rfl
@[simp] theorem advance_fault (s : State) : (advance s).fault = s.fault := rfl
@[simp] theorem advance_cause (s : State) : (advance s).cause = s.cause := rfl
@[simp] theorem advance_input (s : State) : (advance s).input = s.input := rfl
@[simp] theorem advance_sp (s : State) : (advance s).sp = s.sp + 1 := rfl
@[simp] theorem advance_hdr (s : State) : (advance s).hdr = s.hdr := rfl
@[simp] theorem advance_cnt (s : State) : (advance s).cnt = s.cnt := rfl
@[simp] theorem advance_val (s : State) : (advance s).val = s.val := rfl
@[simp] theorem advance_pos (s : State) : (advance s).pos = s.pos := rfl
@[simp] theorem advance_d (s : State) : (advance s).d = s.d := rfl
@[simp] theorem advance_f (s : State) : (advance s).f = s.f := rfl
@[simp] theorem advance_x (s : State) : (advance s).x = s.x := rfl
@[simp] theorem advance_p (s : State) : (advance s).p = s.p := rfl
@[simp] theorem advance_e (s : State) : (advance s).e = s.e := rfl
@[simp] theorem advance_cur (s : State) : (advance s).cur = s.cur := rfl
@[simp] theorem advance_len (s : State) : (advance s).len = s.len := rfl
@[simp] theorem advance_out (s : State) : (advance s).out = s.out := rfl
@[simp] theorem advance_grain (s : State) : (advance s).grain = s.grain := rfl
@[simp] theorem advance_host (s : State) : (advance s).host = s.host := rfl
@[simp] theorem advance_regData (s : State) : (advance s).regData = s.regData := rfl
@[simp] theorem advance_portData (s : State) : (advance s).portData = s.portData := rfl
@[simp] theorem advance_free (s : State) : (advance s).free = s.free := rfl
@[simp] theorem advance_frameLen (s : State) : (advance s).frameLen = s.frameLen := rfl

/-! ### streamWrite -/

@[simp] theorem streamWrite_nmax (b : Byte) (s : State) : (streamWrite b s).nmax = s.nmax := rfl
@[simp] theorem streamWrite_cfgW (b : Byte) (s : State) : (streamWrite b s).cfgW = s.cfgW := rfl
@[simp] theorem streamWrite_cfgH (b : Byte) (s : State) : (streamWrite b s).cfgH = s.cfgH := rfl
@[simp] theorem streamWrite_running (b : Byte) (s : State) : (streamWrite b s).running = s.running := rfl
@[simp] theorem streamWrite_fault (b : Byte) (s : State) : (streamWrite b s).fault = s.fault := rfl
@[simp] theorem streamWrite_cause (b : Byte) (s : State) : (streamWrite b s).cause = s.cause := rfl
@[simp] theorem streamWrite_input (b : Byte) (s : State) : (streamWrite b s).input = s.input := rfl
@[simp] theorem streamWrite_sp (b : Byte) (s : State) : (streamWrite b s).sp = s.sp := rfl
@[simp] theorem streamWrite_hdr (b : Byte) (s : State) : (streamWrite b s).hdr = s.hdr := rfl
@[simp] theorem streamWrite_cnt (b : Byte) (s : State) : (streamWrite b s).cnt = s.cnt := rfl
@[simp] theorem streamWrite_val (b : Byte) (s : State) : (streamWrite b s).val = s.val := rfl
@[simp] theorem streamWrite_pos (b : Byte) (s : State) : (streamWrite b s).pos = s.pos := rfl
@[simp] theorem streamWrite_d (b : Byte) (s : State) : (streamWrite b s).d = s.d := rfl
@[simp] theorem streamWrite_f (b : Byte) (s : State) : (streamWrite b s).f = s.f := rfl
@[simp] theorem streamWrite_x (b : Byte) (s : State) : (streamWrite b s).x = s.x := rfl
@[simp] theorem streamWrite_p (b : Byte) (s : State) : (streamWrite b s).p = s.p := rfl
@[simp] theorem streamWrite_e (b : Byte) (s : State) : (streamWrite b s).e = s.e := rfl
@[simp] theorem streamWrite_cur (b : Byte) (s : State) : (streamWrite b s).cur = s.cur := rfl
@[simp] theorem streamWrite_len (b : Byte) (s : State) : (streamWrite b s).len = s.len := rfl
@[simp] theorem streamWrite_out (b : Byte) (s : State) : (streamWrite b s).out = s.out ++ [b] := rfl
@[simp] theorem streamWrite_grain (b : Byte) (s : State) : (streamWrite b s).grain = s.grain := rfl
@[simp] theorem streamWrite_host (b : Byte) (s : State) : (streamWrite b s).host = s.host := rfl
@[simp] theorem streamWrite_regData (b : Byte) (s : State) : (streamWrite b s).regData = s.regData := rfl
@[simp] theorem streamWrite_portData (b : Byte) (s : State) : (streamWrite b s).portData = s.portData := rfl
@[simp] theorem streamWrite_free (b : Byte) (s : State) : (streamWrite b s).free = s.free := rfl
@[simp] theorem streamWrite_frameLen (b : Byte) (s : State) : (streamWrite b s).frameLen = s.frameLen := rfl

/-! ### loadHeader -/

@[simp] theorem loadHeader_nmax (h : Byte) (s : State) : (loadHeader h s).nmax = s.nmax := rfl
@[simp] theorem loadHeader_cfgW (h : Byte) (s : State) : (loadHeader h s).cfgW = s.cfgW := rfl
@[simp] theorem loadHeader_cfgH (h : Byte) (s : State) : (loadHeader h s).cfgH = s.cfgH := rfl
@[simp] theorem loadHeader_running (h : Byte) (s : State) : (loadHeader h s).running = s.running := rfl
@[simp] theorem loadHeader_fault (h : Byte) (s : State) : (loadHeader h s).fault = s.fault := rfl
@[simp] theorem loadHeader_cause (h : Byte) (s : State) : (loadHeader h s).cause = s.cause := rfl
@[simp] theorem loadHeader_input (h : Byte) (s : State) : (loadHeader h s).input = s.input := rfl
@[simp] theorem loadHeader_sp (h : Byte) (s : State) : (loadHeader h s).sp = s.sp + 1 := rfl
@[simp] theorem loadHeader_hdr (h : Byte) (s : State) : (loadHeader h s).hdr = h := rfl
@[simp] theorem loadHeader_cnt (h : Byte) (s : State) : (loadHeader h s).cnt = countField h := rfl
@[simp] theorem loadHeader_val (h : Byte) (s : State) : (loadHeader h s).val = s.val := rfl
@[simp] theorem loadHeader_pos (h : Byte) (s : State) : (loadHeader h s).pos = s.pos := rfl
@[simp] theorem loadHeader_d (h : Byte) (s : State) : (loadHeader h s).d = s.d := rfl
@[simp] theorem loadHeader_f (h : Byte) (s : State) : (loadHeader h s).f = s.f := rfl
@[simp] theorem loadHeader_x (h : Byte) (s : State) : (loadHeader h s).x = s.x := rfl
@[simp] theorem loadHeader_p (h : Byte) (s : State) : (loadHeader h s).p = s.p := rfl
@[simp] theorem loadHeader_e (h : Byte) (s : State) : (loadHeader h s).e = s.e := rfl
@[simp] theorem loadHeader_cur (h : Byte) (s : State) : (loadHeader h s).cur = s.cur := rfl
@[simp] theorem loadHeader_len (h : Byte) (s : State) : (loadHeader h s).len = s.len := rfl
@[simp] theorem loadHeader_out (h : Byte) (s : State) : (loadHeader h s).out = s.out := rfl
@[simp] theorem loadHeader_grain (h : Byte) (s : State) : (loadHeader h s).grain = s.grain := rfl
@[simp] theorem loadHeader_host (h : Byte) (s : State) : (loadHeader h s).host = s.host := rfl
@[simp] theorem loadHeader_regData (h : Byte) (s : State) : (loadHeader h s).regData = s.regData := rfl
@[simp] theorem loadHeader_portData (h : Byte) (s : State) : (loadHeader h s).portData = s.portData := rfl
@[simp] theorem loadHeader_free (h : Byte) (s : State) : (loadHeader h s).free = s.free := rfl
@[simp] theorem loadHeader_frameLen (h : Byte) (s : State) : (loadHeader h s).frameLen = s.frameLen := rfl

/-! ### loadValue -/

@[simp] theorem loadValue_nmax (v : Byte) (s : State) : (loadValue v s).nmax = s.nmax := rfl
@[simp] theorem loadValue_cfgW (v : Byte) (s : State) : (loadValue v s).cfgW = s.cfgW := rfl
@[simp] theorem loadValue_cfgH (v : Byte) (s : State) : (loadValue v s).cfgH = s.cfgH := rfl
@[simp] theorem loadValue_running (v : Byte) (s : State) : (loadValue v s).running = s.running := rfl
@[simp] theorem loadValue_fault (v : Byte) (s : State) : (loadValue v s).fault = s.fault := rfl
@[simp] theorem loadValue_cause (v : Byte) (s : State) : (loadValue v s).cause = s.cause := rfl
@[simp] theorem loadValue_input (v : Byte) (s : State) : (loadValue v s).input = s.input := rfl
@[simp] theorem loadValue_sp (v : Byte) (s : State) : (loadValue v s).sp = s.sp + 1 := rfl
@[simp] theorem loadValue_hdr (v : Byte) (s : State) : (loadValue v s).hdr = s.hdr := rfl
@[simp] theorem loadValue_cnt (v : Byte) (s : State) : (loadValue v s).cnt = s.cnt := rfl
@[simp] theorem loadValue_val (v : Byte) (s : State) : (loadValue v s).val = v := rfl
@[simp] theorem loadValue_pos (v : Byte) (s : State) : (loadValue v s).pos = s.pos := rfl
@[simp] theorem loadValue_d (v : Byte) (s : State) : (loadValue v s).d = s.d := rfl
@[simp] theorem loadValue_f (v : Byte) (s : State) : (loadValue v s).f = s.f := rfl
@[simp] theorem loadValue_x (v : Byte) (s : State) : (loadValue v s).x = s.x := rfl
@[simp] theorem loadValue_p (v : Byte) (s : State) : (loadValue v s).p = s.p := rfl
@[simp] theorem loadValue_e (v : Byte) (s : State) : (loadValue v s).e = s.e := rfl
@[simp] theorem loadValue_cur (v : Byte) (s : State) : (loadValue v s).cur = s.cur := rfl
@[simp] theorem loadValue_len (v : Byte) (s : State) : (loadValue v s).len = s.len := rfl
@[simp] theorem loadValue_out (v : Byte) (s : State) : (loadValue v s).out = s.out := rfl
@[simp] theorem loadValue_grain (v : Byte) (s : State) : (loadValue v s).grain = s.grain := rfl
@[simp] theorem loadValue_host (v : Byte) (s : State) : (loadValue v s).host = s.host := rfl
@[simp] theorem loadValue_regData (v : Byte) (s : State) : (loadValue v s).regData = s.regData := rfl
@[simp] theorem loadValue_portData (v : Byte) (s : State) : (loadValue v s).portData = s.portData := rfl
@[simp] theorem loadValue_free (v : Byte) (s : State) : (loadValue v s).free = s.free := rfl
@[simp] theorem loadValue_frameLen (v : Byte) (s : State) : (loadValue v s).frameLen = s.frameLen := rfl

/-! ### produce -/

@[simp] theorem produce_nmax (b : Byte) (s : State) : (produce b s).nmax = s.nmax := rfl
@[simp] theorem produce_cfgW (b : Byte) (s : State) : (produce b s).cfgW = s.cfgW := rfl
@[simp] theorem produce_cfgH (b : Byte) (s : State) : (produce b s).cfgH = s.cfgH := rfl
@[simp] theorem produce_running (b : Byte) (s : State) : (produce b s).running = s.running := rfl
@[simp] theorem produce_fault (b : Byte) (s : State) : (produce b s).fault = s.fault := rfl
@[simp] theorem produce_cause (b : Byte) (s : State) : (produce b s).cause = s.cause := rfl
@[simp] theorem produce_input (b : Byte) (s : State) : (produce b s).input = s.input := rfl
@[simp] theorem produce_sp (b : Byte) (s : State) : (produce b s).sp = s.sp := rfl
@[simp] theorem produce_hdr (b : Byte) (s : State) : (produce b s).hdr = s.hdr := rfl
@[simp] theorem produce_cnt (b : Byte) (s : State) : (produce b s).cnt = s.cnt := rfl
@[simp] theorem produce_val (b : Byte) (s : State) : (produce b s).val = s.val := rfl
@[simp] theorem produce_pos (b : Byte) (s : State) : (produce b s).pos = s.pos + 1 := rfl
@[simp] theorem produce_d (b : Byte) (s : State) : (produce b s).d = Memory.write s.d s.pos b := rfl
@[simp] theorem produce_f (b : Byte) (s : State) : (produce b s).f = s.f := rfl
@[simp] theorem produce_x (b : Byte) (s : State) : (produce b s).x = s.x := rfl
@[simp] theorem produce_p (b : Byte) (s : State) : (produce b s).p = s.p := rfl
@[simp] theorem produce_e (b : Byte) (s : State) : (produce b s).e = s.e := rfl
@[simp] theorem produce_cur (b : Byte) (s : State) : (produce b s).cur = s.cur := rfl
@[simp] theorem produce_len (b : Byte) (s : State) : (produce b s).len = s.len := rfl
@[simp] theorem produce_out (b : Byte) (s : State) : (produce b s).out = s.out := rfl
@[simp] theorem produce_grain (b : Byte) (s : State) : (produce b s).grain = s.grain := rfl
@[simp] theorem produce_host (b : Byte) (s : State) : (produce b s).host = s.host := rfl
@[simp] theorem produce_regData (b : Byte) (s : State) : (produce b s).regData = s.regData := rfl
@[simp] theorem produce_portData (b : Byte) (s : State) : (produce b s).portData = s.portData := rfl
@[simp] theorem produce_free (b : Byte) (s : State) : (produce b s).free = s.free := rfl
@[simp] theorem produce_frameLen (b : Byte) (s : State) : (produce b s).frameLen = s.frameLen := rfl

/-! ### accumulate -/

@[simp] theorem accumulate_nmax (s : State) : (accumulate s).nmax = s.nmax := rfl
@[simp] theorem accumulate_cfgW (s : State) : (accumulate s).cfgW = s.cfgW := rfl
@[simp] theorem accumulate_cfgH (s : State) : (accumulate s).cfgH = s.cfgH := rfl
@[simp] theorem accumulate_running (s : State) : (accumulate s).running = s.running := rfl
@[simp] theorem accumulate_fault (s : State) : (accumulate s).fault = s.fault := rfl
@[simp] theorem accumulate_cause (s : State) : (accumulate s).cause = s.cause := rfl
@[simp] theorem accumulate_input (s : State) : (accumulate s).input = s.input := rfl
@[simp] theorem accumulate_sp (s : State) : (accumulate s).sp = s.sp := rfl
@[simp] theorem accumulate_hdr (s : State) : (accumulate s).hdr = s.hdr := rfl
@[simp] theorem accumulate_cnt (s : State) : (accumulate s).cnt = s.cnt := rfl
@[simp] theorem accumulate_val (s : State) : (accumulate s).val = s.val := rfl
@[simp] theorem accumulate_pos (s : State) : (accumulate s).pos = s.pos := rfl
@[simp] theorem accumulate_d (s : State) : (accumulate s).d = s.d := rfl
@[simp] theorem accumulate_f (s : State) : (accumulate s).f = Memory.accumulate s.frameLen s.f s.d := rfl
@[simp] theorem accumulate_x (s : State) : (accumulate s).x = s.x := rfl
@[simp] theorem accumulate_p (s : State) : (accumulate s).p = s.p := rfl
@[simp] theorem accumulate_e (s : State) : (accumulate s).e = s.e := rfl
@[simp] theorem accumulate_cur (s : State) : (accumulate s).cur = s.cur := rfl
@[simp] theorem accumulate_len (s : State) : (accumulate s).len = s.len := rfl
@[simp] theorem accumulate_out (s : State) : (accumulate s).out = s.out := rfl
@[simp] theorem accumulate_grain (s : State) : (accumulate s).grain = s.grain := rfl
@[simp] theorem accumulate_host (s : State) : (accumulate s).host = s.host := rfl
@[simp] theorem accumulate_regData (s : State) : (accumulate s).regData = s.regData := rfl
@[simp] theorem accumulate_portData (s : State) : (accumulate s).portData = s.portData := rfl
@[simp] theorem accumulate_free (s : State) : (accumulate s).free = s.free := rfl
@[simp] theorem accumulate_frameLen (s : State) : (accumulate s).frameLen = s.frameLen := rfl

/-! ### difference -/

@[simp] theorem difference_nmax (s : State) : (difference s).nmax = s.nmax := rfl
@[simp] theorem difference_cfgW (s : State) : (difference s).cfgW = s.cfgW := rfl
@[simp] theorem difference_cfgH (s : State) : (difference s).cfgH = s.cfgH := rfl
@[simp] theorem difference_running (s : State) : (difference s).running = s.running := rfl
@[simp] theorem difference_fault (s : State) : (difference s).fault = s.fault := rfl
@[simp] theorem difference_cause (s : State) : (difference s).cause = s.cause := rfl
@[simp] theorem difference_input (s : State) : (difference s).input = s.input := rfl
@[simp] theorem difference_sp (s : State) : (difference s).sp = s.sp := rfl
@[simp] theorem difference_hdr (s : State) : (difference s).hdr = s.hdr := rfl
@[simp] theorem difference_cnt (s : State) : (difference s).cnt = s.cnt := rfl
@[simp] theorem difference_val (s : State) : (difference s).val = s.val := rfl
@[simp] theorem difference_pos (s : State) : (difference s).pos = s.pos := rfl
@[simp] theorem difference_d (s : State) : (difference s).d = s.d := rfl
@[simp] theorem difference_f (s : State) : (difference s).f = s.f := rfl
@[simp] theorem difference_x (s : State) : (difference s).x = s.x := rfl
@[simp] theorem difference_p (s : State) : (difference s).p = Memory.copyBelow s.frameLen s.p s.x := rfl
@[simp] theorem difference_e (s : State) : (difference s).e = Memory.difference s.frameLen s.e s.x s.p := rfl
@[simp] theorem difference_cur (s : State) : (difference s).cur = s.cur := rfl
@[simp] theorem difference_len (s : State) : (difference s).len = s.len := rfl
@[simp] theorem difference_out (s : State) : (difference s).out = s.out := rfl
@[simp] theorem difference_grain (s : State) : (difference s).grain = s.grain := rfl
@[simp] theorem difference_host (s : State) : (difference s).host = s.host := rfl
@[simp] theorem difference_regData (s : State) : (difference s).regData = s.regData := rfl
@[simp] theorem difference_portData (s : State) : (difference s).portData = s.portData := rfl
@[simp] theorem difference_free (s : State) : (difference s).free = s.free := rfl
@[simp] theorem difference_frameLen (s : State) : (difference s).frameLen = s.frameLen := rfl

/-! ### setLen -/

@[simp] theorem setLen_nmax (n : Nat) (s : State) : (setLen n s).nmax = s.nmax := rfl
@[simp] theorem setLen_cfgW (n : Nat) (s : State) : (setLen n s).cfgW = s.cfgW := rfl
@[simp] theorem setLen_cfgH (n : Nat) (s : State) : (setLen n s).cfgH = s.cfgH := rfl
@[simp] theorem setLen_running (n : Nat) (s : State) : (setLen n s).running = s.running := rfl
@[simp] theorem setLen_fault (n : Nat) (s : State) : (setLen n s).fault = s.fault := rfl
@[simp] theorem setLen_cause (n : Nat) (s : State) : (setLen n s).cause = s.cause := rfl
@[simp] theorem setLen_input (n : Nat) (s : State) : (setLen n s).input = s.input := rfl
@[simp] theorem setLen_sp (n : Nat) (s : State) : (setLen n s).sp = s.sp := rfl
@[simp] theorem setLen_hdr (n : Nat) (s : State) : (setLen n s).hdr = s.hdr := rfl
@[simp] theorem setLen_cnt (n : Nat) (s : State) : (setLen n s).cnt = s.cnt := rfl
@[simp] theorem setLen_val (n : Nat) (s : State) : (setLen n s).val = s.val := rfl
@[simp] theorem setLen_pos (n : Nat) (s : State) : (setLen n s).pos = s.pos := rfl
@[simp] theorem setLen_d (n : Nat) (s : State) : (setLen n s).d = s.d := rfl
@[simp] theorem setLen_f (n : Nat) (s : State) : (setLen n s).f = s.f := rfl
@[simp] theorem setLen_x (n : Nat) (s : State) : (setLen n s).x = s.x := rfl
@[simp] theorem setLen_p (n : Nat) (s : State) : (setLen n s).p = s.p := rfl
@[simp] theorem setLen_e (n : Nat) (s : State) : (setLen n s).e = s.e := rfl
@[simp] theorem setLen_cur (n : Nat) (s : State) : (setLen n s).cur = s.cur := rfl
@[simp] theorem setLen_len (n : Nat) (s : State) : (setLen n s).len = n := rfl
@[simp] theorem setLen_out (n : Nat) (s : State) : (setLen n s).out = s.out := rfl
@[simp] theorem setLen_grain (n : Nat) (s : State) : (setLen n s).grain = s.grain := rfl
@[simp] theorem setLen_host (n : Nat) (s : State) : (setLen n s).host = s.host := rfl
@[simp] theorem setLen_regData (n : Nat) (s : State) : (setLen n s).regData = s.regData := rfl
@[simp] theorem setLen_portData (n : Nat) (s : State) : (setLen n s).portData = s.portData := rfl
@[simp] theorem setLen_free (n : Nat) (s : State) : (setLen n s).free = s.free := rfl
@[simp] theorem setLen_frameLen (n : Nat) (s : State) : (setLen n s).frameLen = s.frameLen := rfl

/-! ### advanceCur -/

@[simp] theorem advanceCur_nmax (s : State) : (advanceCur s).nmax = s.nmax := rfl
@[simp] theorem advanceCur_cfgW (s : State) : (advanceCur s).cfgW = s.cfgW := rfl
@[simp] theorem advanceCur_cfgH (s : State) : (advanceCur s).cfgH = s.cfgH := rfl
@[simp] theorem advanceCur_running (s : State) : (advanceCur s).running = s.running := rfl
@[simp] theorem advanceCur_fault (s : State) : (advanceCur s).fault = s.fault := rfl
@[simp] theorem advanceCur_cause (s : State) : (advanceCur s).cause = s.cause := rfl
@[simp] theorem advanceCur_input (s : State) : (advanceCur s).input = s.input := rfl
@[simp] theorem advanceCur_sp (s : State) : (advanceCur s).sp = s.sp := rfl
@[simp] theorem advanceCur_hdr (s : State) : (advanceCur s).hdr = s.hdr := rfl
@[simp] theorem advanceCur_cnt (s : State) : (advanceCur s).cnt = s.cnt := rfl
@[simp] theorem advanceCur_val (s : State) : (advanceCur s).val = s.val := rfl
@[simp] theorem advanceCur_pos (s : State) : (advanceCur s).pos = s.pos := rfl
@[simp] theorem advanceCur_d (s : State) : (advanceCur s).d = s.d := rfl
@[simp] theorem advanceCur_f (s : State) : (advanceCur s).f = s.f := rfl
@[simp] theorem advanceCur_x (s : State) : (advanceCur s).x = s.x := rfl
@[simp] theorem advanceCur_p (s : State) : (advanceCur s).p = s.p := rfl
@[simp] theorem advanceCur_e (s : State) : (advanceCur s).e = s.e := rfl
@[simp] theorem advanceCur_cur (s : State) : (advanceCur s).cur = s.cur + s.len := rfl
@[simp] theorem advanceCur_len (s : State) : (advanceCur s).len = s.len := rfl
@[simp] theorem advanceCur_out (s : State) : (advanceCur s).out = s.out := rfl
@[simp] theorem advanceCur_grain (s : State) : (advanceCur s).grain = s.grain := rfl
@[simp] theorem advanceCur_host (s : State) : (advanceCur s).host = s.host := rfl
@[simp] theorem advanceCur_regData (s : State) : (advanceCur s).regData = s.regData := rfl
@[simp] theorem advanceCur_portData (s : State) : (advanceCur s).portData = s.portData := rfl
@[simp] theorem advanceCur_free (s : State) : (advanceCur s).free = s.free := rfl
@[simp] theorem advanceCur_frameLen (s : State) : (advanceCur s).frameLen = s.frameLen := rfl

/-! ### beginDec -/

@[simp] theorem beginDec_nmax (s : State) : (beginDec s).nmax = s.nmax := rfl
@[simp] theorem beginDec_cfgW (s : State) : (beginDec s).cfgW = s.cfgW := rfl
@[simp] theorem beginDec_cfgH (s : State) : (beginDec s).cfgH = s.cfgH := rfl
@[simp] theorem beginDec_running (s : State) : (beginDec s).running = some .dec := rfl
@[simp] theorem beginDec_fault (s : State) : (beginDec s).fault = s.fault := rfl
@[simp] theorem beginDec_cause (s : State) : (beginDec s).cause = s.cause := rfl
@[simp] theorem beginDec_input (s : State) : (beginDec s).input = s.input := rfl
@[simp] theorem beginDec_sp (s : State) : (beginDec s).sp = s.sp := rfl
@[simp] theorem beginDec_hdr (s : State) : (beginDec s).hdr = s.hdr := rfl
@[simp] theorem beginDec_cnt (s : State) : (beginDec s).cnt = s.cnt := rfl
@[simp] theorem beginDec_val (s : State) : (beginDec s).val = s.val := rfl
@[simp] theorem beginDec_pos (s : State) : (beginDec s).pos = 0 := rfl
@[simp] theorem beginDec_d (s : State) : (beginDec s).d = s.d := rfl
@[simp] theorem beginDec_f (s : State) : (beginDec s).f = s.f := rfl
@[simp] theorem beginDec_x (s : State) : (beginDec s).x = s.x := rfl
@[simp] theorem beginDec_p (s : State) : (beginDec s).p = s.p := rfl
@[simp] theorem beginDec_e (s : State) : (beginDec s).e = s.e := rfl
@[simp] theorem beginDec_cur (s : State) : (beginDec s).cur = s.cur := rfl
@[simp] theorem beginDec_len (s : State) : (beginDec s).len = s.len := rfl
@[simp] theorem beginDec_out (s : State) : (beginDec s).out = s.out := rfl
@[simp] theorem beginDec_grain (s : State) : (beginDec s).grain = s.grain := rfl
@[simp] theorem beginDec_host (s : State) : (beginDec s).host = s.host := rfl
@[simp] theorem beginDec_regData (s : State) : (beginDec s).regData = s.regData := rfl
@[simp] theorem beginDec_portData (s : State) : (beginDec s).portData = s.portData := rfl
@[simp] theorem beginDec_free (s : State) : (beginDec s).free = s.free := rfl
@[simp] theorem beginDec_frameLen (s : State) : (beginDec s).frameLen = s.frameLen := rfl

/-! ### beginEnc -/

@[simp] theorem beginEnc_nmax (s : State) : (beginEnc s).nmax = s.nmax := rfl
@[simp] theorem beginEnc_cfgW (s : State) : (beginEnc s).cfgW = s.cfgW := rfl
@[simp] theorem beginEnc_cfgH (s : State) : (beginEnc s).cfgH = s.cfgH := rfl
@[simp] theorem beginEnc_running (s : State) : (beginEnc s).running = some .enc := rfl
@[simp] theorem beginEnc_fault (s : State) : (beginEnc s).fault = s.fault := rfl
@[simp] theorem beginEnc_cause (s : State) : (beginEnc s).cause = s.cause := rfl
@[simp] theorem beginEnc_input (s : State) : (beginEnc s).input = s.input := rfl
@[simp] theorem beginEnc_sp (s : State) : (beginEnc s).sp = s.sp := rfl
@[simp] theorem beginEnc_hdr (s : State) : (beginEnc s).hdr = s.hdr := rfl
@[simp] theorem beginEnc_cnt (s : State) : (beginEnc s).cnt = s.cnt := rfl
@[simp] theorem beginEnc_val (s : State) : (beginEnc s).val = s.val := rfl
@[simp] theorem beginEnc_pos (s : State) : (beginEnc s).pos = s.pos := rfl
@[simp] theorem beginEnc_d (s : State) : (beginEnc s).d = s.d := rfl
@[simp] theorem beginEnc_f (s : State) : (beginEnc s).f = s.f := rfl
@[simp] theorem beginEnc_x (s : State) : (beginEnc s).x = s.x := rfl
@[simp] theorem beginEnc_p (s : State) : (beginEnc s).p = Memory.copyBelow s.frameLen s.p s.x := rfl
@[simp] theorem beginEnc_e (s : State) : (beginEnc s).e = Memory.difference s.frameLen s.e s.x s.p := rfl
@[simp] theorem beginEnc_cur (s : State) : (beginEnc s).cur = 0 := rfl
@[simp] theorem beginEnc_len (s : State) : (beginEnc s).len = s.len := rfl
@[simp] theorem beginEnc_out (s : State) : (beginEnc s).out = s.out := rfl
@[simp] theorem beginEnc_grain (s : State) : (beginEnc s).grain = s.grain := rfl
@[simp] theorem beginEnc_host (s : State) : (beginEnc s).host = s.host := rfl
@[simp] theorem beginEnc_regData (s : State) : (beginEnc s).regData = s.regData := rfl
@[simp] theorem beginEnc_portData (s : State) : (beginEnc s).portData = s.portData := rfl
@[simp] theorem beginEnc_free (s : State) : (beginEnc s).free = s.free := rfl
@[simp] theorem beginEnc_frameLen (s : State) : (beginEnc s).frameLen = s.frameLen := rfl

/-! ### finish -/

@[simp] theorem finish_nmax (s : State) : (finish s).nmax = s.nmax := rfl
@[simp] theorem finish_cfgW (s : State) : (finish s).cfgW = s.cfgW := rfl
@[simp] theorem finish_cfgH (s : State) : (finish s).cfgH = s.cfgH := rfl
@[simp] theorem finish_running (s : State) : (finish s).running = none := rfl
@[simp] theorem finish_fault (s : State) : (finish s).fault = s.fault := rfl
@[simp] theorem finish_cause (s : State) : (finish s).cause = s.cause := rfl
@[simp] theorem finish_input (s : State) : (finish s).input = s.input := rfl
@[simp] theorem finish_sp (s : State) : (finish s).sp = s.sp := rfl
@[simp] theorem finish_hdr (s : State) : (finish s).hdr = s.hdr := rfl
@[simp] theorem finish_cnt (s : State) : (finish s).cnt = s.cnt := rfl
@[simp] theorem finish_val (s : State) : (finish s).val = s.val := rfl
@[simp] theorem finish_pos (s : State) : (finish s).pos = s.pos := rfl
@[simp] theorem finish_d (s : State) : (finish s).d = s.d := rfl
@[simp] theorem finish_f (s : State) : (finish s).f = s.f := rfl
@[simp] theorem finish_x (s : State) : (finish s).x = s.x := rfl
@[simp] theorem finish_p (s : State) : (finish s).p = s.p := rfl
@[simp] theorem finish_e (s : State) : (finish s).e = s.e := rfl
@[simp] theorem finish_cur (s : State) : (finish s).cur = s.cur := rfl
@[simp] theorem finish_len (s : State) : (finish s).len = s.len := rfl
@[simp] theorem finish_out (s : State) : (finish s).out = s.out := rfl
@[simp] theorem finish_grain (s : State) : (finish s).grain = s.grain := rfl
@[simp] theorem finish_host (s : State) : (finish s).host = s.host := rfl
@[simp] theorem finish_regData (s : State) : (finish s).regData = s.regData := rfl
@[simp] theorem finish_portData (s : State) : (finish s).portData = s.portData := rfl
@[simp] theorem finish_free (s : State) : (finish s).free = s.free := rfl
@[simp] theorem finish_frameLen (s : State) : (finish s).frameLen = s.frameLen := rfl

/-! ### clearFrames -/

@[simp] theorem clearFrames_nmax (s : State) : (clearFrames s).nmax = s.nmax := rfl
@[simp] theorem clearFrames_cfgW (s : State) : (clearFrames s).cfgW = s.cfgW := rfl
@[simp] theorem clearFrames_cfgH (s : State) : (clearFrames s).cfgH = s.cfgH := rfl
@[simp] theorem clearFrames_running (s : State) : (clearFrames s).running = s.running := rfl
@[simp] theorem clearFrames_fault (s : State) : (clearFrames s).fault = s.fault := rfl
@[simp] theorem clearFrames_cause (s : State) : (clearFrames s).cause = s.cause := rfl
@[simp] theorem clearFrames_input (s : State) : (clearFrames s).input = s.input := rfl
@[simp] theorem clearFrames_sp (s : State) : (clearFrames s).sp = s.sp := rfl
@[simp] theorem clearFrames_hdr (s : State) : (clearFrames s).hdr = s.hdr := rfl
@[simp] theorem clearFrames_cnt (s : State) : (clearFrames s).cnt = s.cnt := rfl
@[simp] theorem clearFrames_val (s : State) : (clearFrames s).val = s.val := rfl
@[simp] theorem clearFrames_pos (s : State) : (clearFrames s).pos = 0 := rfl
@[simp] theorem clearFrames_d (s : State) : (clearFrames s).d = s.d := rfl
@[simp] theorem clearFrames_f (s : State) : (clearFrames s).f = Memory.clearBelow s.nmax s.f := rfl
@[simp] theorem clearFrames_x (s : State) : (clearFrames s).x = s.x := rfl
@[simp] theorem clearFrames_p (s : State) : (clearFrames s).p = Memory.clearBelow s.nmax s.p := rfl
@[simp] theorem clearFrames_e (s : State) : (clearFrames s).e = s.e := rfl
@[simp] theorem clearFrames_cur (s : State) : (clearFrames s).cur = s.cur := rfl
@[simp] theorem clearFrames_len (s : State) : (clearFrames s).len = s.len := rfl
@[simp] theorem clearFrames_out (s : State) : (clearFrames s).out = s.out := rfl
@[simp] theorem clearFrames_grain (s : State) : (clearFrames s).grain = s.grain := rfl
@[simp] theorem clearFrames_host (s : State) : (clearFrames s).host = s.host := rfl
@[simp] theorem clearFrames_regData (s : State) : (clearFrames s).regData = s.regData := rfl
@[simp] theorem clearFrames_portData (s : State) : (clearFrames s).portData = s.portData := rfl
@[simp] theorem clearFrames_free (s : State) : (clearFrames s).free = s.free := rfl
@[simp] theorem clearFrames_frameLen (s : State) : (clearFrames s).frameLen = s.frameLen := rfl

end Sys2Proof.Machine
end

