-- ==== Sys2Proof/Laws/Emit.lean ====
section
/-! SUPPORT. The encoder family in closed form: what the scans of R102 and R103 answer, what each emission leaves, and
that the scans are the lengths of the pure function (41_encoder.md R105). -/

namespace Sys2Proof.Machine

/-! ### The writes -/

theorem streamWriteAll_eq (bs : List Byte) (s : State) : streamWriteAll bs s = { s with out := s.out ++ bs } := by
  induction bs generalizing s with
  | nil => simp [streamWriteAll]
  | cons b bs ih => rw [streamWriteAll, ih]; simp [streamWrite]

@[simp] theorem lookAll_length (s : State) (n : Nat) : (s.lookAll n).length = n := by simp [State.lookAll]

theorem lookAll_getD (s : State) {n k : Nat} (h : k < n) : (s.lookAll n).getD k 0#8 = s.look k := by
  simpa [State.lookAll, State.look] using Memory.getD_slice s.e s.cur n k h

theorem lookAll_take (s : State) {m n : Nat} (h : m ≤ n) : (s.lookAll n).take m = s.lookAll m := by
  simp [State.lookAll, Memory.slice, ← List.map_take, List.take_range, Nat.min_eq_left h]

theorem lookAll_drop (s : State) (m n : Nat) :
    (s.lookAll n).drop m = Memory.slice s.e (s.cur + m) (n - m) := by
  apply List.ext_getElem
  · simp
  · intro i h1 h2
    simp [State.lookAll, Memory.slice, Nat.add_assoc]

/-- Emission of a literal of n bytes (R101, R103). -/
theorem emitLiteralOf_eq (n : Nat) (s : State) :
    emitLiteralOf n s =
      { s with len := n, cur := s.cur + n, out := s.out ++ (litHeader (litCount n) :: s.lookAll n) } := by
  rw [emitLiteralOf, streamWriteAll_eq]
  rfl

/-- Emission of a run (R102). -/
theorem emitRun_eq (s : State) :
    emitRun s =
      { s with
        len := s.runLen, cur := s.cur + s.runLen
        out := s.out ++ [runHeader (BitVec.ofNat 7 s.runLen), s.look 0] } := by
  rw [emitRun, streamWriteAll_eq]
  rfl

theorem emitTail_eq (s : State) :
    emitTail s =
      { s with
        running := none, len := s.rem, cur := s.cur + s.rem
        out := s.out ++ (litHeader (litCount s.rem) :: s.lookAll s.rem) } := by
  rw [emitTail, emitLiteralOf_eq]
  rfl

/-! ### The scans -/

/-- What the scan of a run answers (R102): it stops at the first of the cap, the end of data and a mismatch. -/
theorem scanRun_spec (s : State) (v : Byte) (k len : Nat) :
    len ≤ scanRun s v k len
    ∧ (∀ j, len ≤ j → j < scanRun s v k len → j < 127 ∧ j < s.rem ∧ s.look j = v)
    ∧ (scanRun s v k len = len + k ∨ 127 ≤ scanRun s v k len ∨ s.rem ≤ scanRun s v k len
        ∨ s.look (scanRun s v k len) ≠ v) := by
  induction k generalizing len with
  | zero => exact ⟨Nat.le_refl _, fun j h1 h2 => by simp only [scanRun] at h2; omega, .inl rfl⟩
  | succ k ih =>
    rw [scanRun]
    split
    · rename_i h
      obtain ⟨h1, h2, h3⟩ := ih (len + 1)
      refine ⟨by omega, fun j hj hj' => ?_, ?_⟩
      · rcases Nat.eq_or_lt_of_le hj with rfl | hlt
        · exact h
        · exact h2 j hlt hj'
      · rcases h3 with h3 | h3
        · exact .inl (by omega)
        · exact .inr h3
    · rename_i h
      refine ⟨Nat.le_refl _, fun j h1 h2 => by omega, .inr ?_⟩
      by_cases h1 : len < 127
      · by_cases h2 : len < s.rem
        · exact .inr (.inr (fun h3 => h ⟨h1, h2, h3⟩))
        · exact .inr (.inl (by omega))
      · exact .inl (by show 127 ≤ len; omega)

/-- What the extension loop of a literal answers (R103, R104). -/
theorem scanLit_spec (s : State) (k len : Nat) (hk : len + k = 127) (h3 : 3 ≤ len) (hr : len ≤ s.rem) :
    len - 1 ≤ scanLit s k len ∧ scanLit s k len ≤ 127 ∧ scanLit s k len ≤ s.rem := by
  induction k generalizing len with
  | zero => simp only [scanLit]; omega
  | succ k ih =>
    rw [scanLit]
    split
    · split
      · omega
      · rename_i h _
        have := ih (len + 1) (by omega) (by omega) (by omega)
        omega
    · omega

theorem scanLit_eq_litExtend (s : State) (k len : Nat) (hk : len + k = 127) (h3 : 3 ≤ len) (hr : len ≤ s.rem) :
    scanLit s k len = litExtend (s.lookAll s.rem) (k + 1) len := by
  induction k generalizing len with
  | zero =>
    have : len = 127 := by omega
    simp [scanLit, litExtend, this]
  | succ k ih =>
    rw [scanLit, litExtend]
    by_cases h : len = 127 ∨ len = s.rem
    · rw [if_neg (by show ¬ (len < 127 ∧ len < s.rem); omega), if_pos (by simpa using h)]
    · have h1 : len < 127 := by omega
      have h2 : len < s.rem := by omega
      rw [if_pos ⟨h1, h2⟩, if_neg (c := len = Config.maxCount ∨ len = (s.lookAll s.rem).length) (by simpa using h),
        lookAll_getD s h2, lookAll_getD s (by omega : len - 1 < s.rem), ih (len + 1) (by omega) (by omega) (by omega)]

/-- The LEN of a literal is the pure function's (R103, R105). -/
theorem litLen_eq_litLength {s : State} (h : 3 ≤ s.rem) : s.litLen = litLength (s.lookAll s.rem) :=
  scanLit_eq_litExtend s 124 3 rfl (Nat.le_refl _) h

theorem takeWhile_length_eq {v : Byte} {S : List Byte} {L : Nat} (hL : L ≤ S.length)
    (h : ∀ j, j < L → S.getD j 0#8 = v) (hs : L = S.length ∨ S.getD L 0#8 ≠ v) :
    (S.takeWhile (fun b => b == v)).length = L := by
  induction S generalizing L with
  | nil => simp at hL; simp [hL]
  | cons b S ih =>
    cases L with
    | zero =>
      rcases hs with hs | hs
      · simp at hs
      · simp at hs; simp [hs]
    | succ L =>
      have h0 : b = v := by simpa using h 0 (by omega)
      simp only [List.length_cons] at hL hs
      have := ih (L := L) (by omega) (fun j hj => by simpa using h (j + 1) (by omega))
        (by rcases hs with hs | hs
            · exact .inl (by omega)
            · exact .inr (by simpa using hs))
      simp [h0, this]

theorem le_takeWhile_length {v : Byte} {S : List Byte} {L : Nat} (hL : L ≤ S.length)
    (h : ∀ j, j < L → S.getD j 0#8 = v) : L ≤ (S.takeWhile (fun b => b == v)).length := by
  induction S generalizing L with
  | nil => simpa using hL
  | cons b S ih =>
    cases L with
    | zero => omega
    | succ L =>
      have h0 : b = v := by simpa using h 0 (by omega)
      simp only [List.length_cons] at hL
      have := ih (L := L) (by omega) (fun j hj => by simpa using h (j + 1) (by omega))
      simp [h0, this]

/-- The LEN of a run: between 3 and 127, no more than is left, and the pure function's (R102, R105). -/
theorem runLen_eq_runLength {s : State} (h : 3 ≤ s.rem) (h01 : s.look 0 = s.look 1) (h12 : s.look 1 = s.look 2) :
    s.runLen = runLength (s.look 0) (s.lookAll s.rem) ∧ 3 ≤ s.runLen ∧ s.runLen ≤ 127 ∧ s.runLen ≤ s.rem
      ∧ ∀ j, j < s.runLen → s.look j = s.look 0 := by
  have hr : s.runLen = scanRun s (s.look 0) 124 3 := rfl
  obtain ⟨h1, h2, h3⟩ := scanRun_spec s (s.look 0) 124 3
  rw [← hr] at h1 h2 h3
  have hall : ∀ j, j < s.runLen → s.look j = s.look 0 := by
    intro j hj
    by_cases hj3 : 3 ≤ j
    · exact (h2 j hj3 hj).2.2
    · obtain rfl | rfl | rfl : j = 0 ∨ j = 1 ∨ j = 2 := by omega
      · rfl
      · exact h01.symm
      · rw [← h12, h01]
  have hle : s.runLen ≤ 127 ∧ s.runLen ≤ s.rem := by
    rcases Nat.eq_or_lt_of_le h1 with h' | h'
    · omega
    · have := h2 (s.runLen - 1) (by omega) (by omega); omega
  refine ⟨?_, h1, hle.1, hle.2, hall⟩
  have hget : ∀ j, j < s.runLen → (s.lookAll s.rem).getD j 0#8 = s.look 0 := fun j hj =>
    (lookAll_getD s (by omega : j < s.rem)).trans (hall j hj)
  have hlow := le_takeWhile_length (v := s.look 0) (S := s.lookAll s.rem) (L := s.runLen) (by simpa using hle.2) hget
  rw [runLength]
  by_cases h127 : 127 ≤ s.runLen
  · rw [Nat.min_eq_left (by show 127 ≤ _; omega)]; show s.runLen = 127; omega
  · have hs : s.runLen = (s.lookAll s.rem).length ∨ (s.lookAll s.rem).getD s.runLen 0#8 ≠ s.look 0 := by
      rcases h3 with h3 | h3 | h3 | h3
      · omega
      · omega
      · exact .inl (by simp; omega)
      · by_cases he : s.runLen = s.rem
        · exact .inl (by simpa using he)
        · exact .inr (by rw [lookAll_getD s (by omega)]; exact h3)
    rw [takeWhile_length_eq (by simpa using hle.2) hget hs]
    exact (Nat.min_eq_right (by show s.runLen ≤ 127; omega)).symm

/-! ### One iteration -/

/-- The three kinds of iteration (R100), with the length each forms. -/
theorem encTurn_cases (s : State) :
    (s.rem < 3 ∧ encTurn s = emitTail s)
    ∨ (3 ≤ s.rem ∧ (s.look 0 = s.look 1 ∧ s.look 1 = s.look 2) ∧ 3 ≤ s.runLen ∧ s.runLen ≤ 127 ∧ s.runLen ≤ s.rem
        ∧ encTurn s = emitRun s)
    ∨ (3 ≤ s.rem ∧ ¬ (s.look 0 = s.look 1 ∧ s.look 1 = s.look 2) ∧ 2 ≤ s.litLen ∧ s.litLen ≤ 127 ∧ s.litLen ≤ s.rem
        ∧ encTurn s = emitLit s) := by
  unfold encTurn
  by_cases h : s.rem < 3
  · exact .inl ⟨h, if_pos h⟩
  · rw [if_neg h]
    by_cases he : s.look 0 = s.look 1 ∧ s.look 1 = s.look 2
    · obtain ⟨_, h1, h2, h3, _⟩ := runLen_eq_runLength (by omega) he.1 he.2
      exact .inr (.inl ⟨by omega, he, h1, h2, h3, if_pos he⟩)
    · obtain ⟨h1, h2, h3⟩ := scanLit_spec s 124 3 rfl (Nat.le_refl _) (by omega)
      exact .inr (.inr ⟨by omega, he, h1, h2, h3, if_neg he⟩)

/-- What an iteration leaves alone: everything but the encoder's cursor and length, OUT and BUSY. -/
theorem encTurn_frame (s : State) :
    ∃ running cur len out, encTurn s = { s with running := running, cur := cur, len := len, out := s.out ++ out } := by
  rcases encTurn_cases s with ⟨_, h⟩ | ⟨_, _, _, _, _, h⟩ | ⟨_, _, _, _, _, h⟩ <;> rw [h]
  · exact ⟨_, _, _, _, emitTail_eq s⟩
  · exact ⟨_, _, _, _, emitRun_eq s⟩
  · exact ⟨_, _, _, _, emitLiteralOf_eq s.litLen s⟩

end Sys2Proof.Machine
end

