-- ==== Sys2Proof/Laws/Codec.lean ====
section
/-! SUPPORT. The laws of the pure codec: the turns counted out are never used up, one record is one turn of RLE_decode, and
what RLE_encode's records are. -/

namespace Sys2Proof.Machine

/-! ### Records as bytes -/

theorem recordBytes_run (c : BitVec 7) (v : Byte) : recordBytes (.run c v) = [runHeader c, v] := rfl

theorem recordBytes_lit (raw : List Byte) :
    recordBytes (.lit raw) = litHeader (litCount raw.length) :: raw := rfl

theorem wf_lit {raw : List Byte} : (Instr.lit raw).wf = true ↔ raw.length ≤ 127 := by simp [Instr.wf]

@[simp] theorem streamOf_nil : streamOf [] = [] := rfl
@[simp] theorem payloadOf_nil : payloadOf [] = [] := rfl
@[simp] theorem streamOf_cons (i : Instr) (rs : List Instr) : streamOf (i :: rs) = recordBytes i ++ streamOf rs := by
  simp [streamOf]
@[simp] theorem payloadOf_cons (i : Instr) (rs : List Instr) : payloadOf (i :: rs) = payload i ++ payloadOf rs := by
  simp [payloadOf]
@[simp] theorem streamOf_append (rs rs' : List Instr) : streamOf (rs ++ rs') = streamOf rs ++ streamOf rs' := by
  simp [streamOf]
@[simp] theorem payloadOf_append (rs rs' : List Instr) : payloadOf (rs ++ rs') = payloadOf rs ++ payloadOf rs' := by
  simp [payloadOf]

/-- A record's bytes are at least its header. -/
theorem recordBytes_ne_nil {i : Instr} (h : i.isRecord = true) : 0 < (recordBytes i).length := by
  cases i <;> simp [Instr.isRecord, recordBytes] at *

/-- A record at the front of the stream decodes to itself (30_encoding.md R64). -/
theorem decodeRecord_recordBytes {i : Instr} (hr : i.isRecord = true) (hw : i.wf = true) (after : List Byte) :
    decodeRecord (recordBytes i ++ after) = .ok (i, after) := by
  cases i with
  | run c v => exact decodeRecord_run c v after
  | lit raw => exact decodeRecord_lit after (wf_lit.mp hw)
  | nop => simp [Instr.isRecord] at hr
  | decFrame => simp [Instr.isRecord] at hr
  | encFrame => simp [Instr.isRecord] at hr
  | clear => simp [Instr.isRecord] at hr

/-! ### RLE_decode -/

theorem decFrom_done (k : Nat) (ahead : List Byte) (s : Nat) (out : List Byte) :
    decFrom (k + 1) ahead s out.length out = .ok (out, s) := by
  simp [decFrom]

theorem decFrom_nil (k s n : Nat) {out : List Byte} (h : out.length ≠ n) :
    decFrom k [] s n out = .error .truncated := by
  cases k <;> simp [decFrom, h]

theorem decFrom_overrun (k s n : Nat) {out rest : List Byte} {h : Byte} (ho : out.length ≠ n)
    (hc : n - out.length < h.toNat % 128) : decFrom (k + 1) (h :: rest) s n out = .error .overrun := by
  simp [decFrom, ho, hc]

/-- One record that fits is one turn (40_decoder.md R84). -/
theorem decFrom_record (k s n : Nat) {i : Instr} {out after : List Byte} (hr : i.isRecord = true) (hw : i.wf = true)
    (ho : out.length ≠ n) (hc : (payload i).length ≤ n - out.length) :
    decFrom (k + 1) (recordBytes i ++ after) s n out =
      decFrom k after (s + (recordBytes i).length) n (out ++ payload i) := by
  cases i with
  | run c v =>
    have h1 : (runHeader c).toNat % 128 = c.toNat := by rw [runHeader_toNat]; omega
    have h2 : ¬ 128 ≤ (runHeader c).toNat := by rw [runHeader_toNat]; omega
    have h3 : ¬ n - out.length < c.toNat := by simpa [payload] using hc
    simp [decFrom, ho, recordBytes, h1, h2, h3, payload]
  | lit raw =>
    have hl := wf_lit.mp hw
    have h1 : (litHeader (litCount raw.length)).toNat % 128 = raw.length := by
      rw [litHeader_toNat, litCount_toNat]; omega
    have h2 : 128 ≤ (litHeader (litCount raw.length)).toNat := by rw [litHeader_toNat]; omega
    have h3 : ¬ n - out.length < raw.length := by simpa [payload] using hc
    simp [decFrom, ho, recordBytes, h1, h2, h3, payload, Nat.add_assoc, Nat.add_comm 1]
  | nop => simp [Instr.isRecord] at hr
  | decFrame => simp [Instr.isRecord] at hr
  | encFrame => simp [Instr.isRecord] at hr
  | clear => simp [Instr.isRecord] at hr

theorem decFrom_noValue (k s n : Nat) {c : BitVec 7} {out : List Byte} (ho : out.length ≠ n)
    (hc : c.toNat ≤ n - out.length) : decFrom (k + 1) [runHeader c] s n out = .error .truncated := by
  have h1 : (runHeader c).toNat % 128 = c.toNat := by rw [runHeader_toNat]; omega
  have h2 : ¬ 128 ≤ (runHeader c).toNat := by rw [runHeader_toNat]; omega
  simp [decFrom, ho, h1, h2, Nat.not_lt.mpr hc]

theorem decFrom_shortRaw (k s n : Nat) {c : BitVec 7} {out present : List Byte} (ho : out.length ≠ n)
    (hc : c.toNat ≤ n - out.length) (hp : present.length < c.toNat) :
    decFrom (k + 1) (litHeader c :: present) s n out = .error .truncated := by
  have h1 : (litHeader c).toNat % 128 = c.toNat := by rw [litHeader_toNat]; omega
  have h2 : 128 ≤ (litHeader c).toNat := by rw [litHeader_toNat]; omega
  simp [decFrom, ho, h1, h2, Nat.not_lt.mpr hc, hp]

/-- The whole of one turn, by what the stream holds: a record that fits, an overrun, or the end of the stream. -/
theorem decFrom_cases (k s n : Nat) (ahead out : List Byte) (ho : out.length ≠ n) :
    (∃ i after, ahead = recordBytes i ++ after ∧ i.isRecord = true ∧ i.wf = true ∧ (payload i).length ≤ n - out.length
      ∧ decFrom (k + 1) ahead s n out = decFrom k after (s + (recordBytes i).length) n (out ++ payload i))
    ∨ ((∃ h rest, ahead = h :: rest ∧ n - out.length < h.toNat % 128)
      ∧ decFrom (k + 1) ahead s n out = .error .overrun)
    ∨ ((ahead = [] ∨ (∃ c : BitVec 7, ahead = [runHeader c] ∧ c.toNat ≤ n - out.length)
        ∨ ∃ (c : BitVec 7) (present : List Byte), ahead = litHeader c :: present ∧ present.length < c.toNat
            ∧ c.toNat ≤ n - out.length)
      ∧ decFrom (k + 1) ahead s n out = .error .truncated) := by
  rcases decodeRecord_cases ahead with ⟨ha, _⟩ | ⟨c, ha, _⟩ | ⟨c, v, rest, ha, _⟩ | ⟨c, present, ha, hl, _⟩ |
    ⟨raw, rest, ha, hl, _⟩
  · exact .inr (.inr ⟨.inl ha, by rw [ha, decFrom_nil _ _ _ ho]⟩)
  · by_cases hc : n - out.length < c.toNat
    · have h1 : n - out.length < (runHeader c).toNat % 128 := by rw [runHeader_toNat]; omega
      exact .inr (.inl ⟨⟨_, _, ha, h1⟩, by rw [ha, decFrom_overrun _ _ _ ho h1]⟩)
    · have hc := Nat.not_lt.mp hc
      exact .inr (.inr ⟨.inr (.inl ⟨c, ha, hc⟩), by rw [ha, decFrom_noValue _ _ _ ho hc]⟩)
  · by_cases hc : n - out.length < c.toNat
    · have h1 : n - out.length < (runHeader c).toNat % 128 := by rw [runHeader_toNat]; omega
      exact .inr (.inl ⟨⟨_, _, ha, h1⟩, by rw [ha, decFrom_overrun _ _ _ ho h1]⟩)
    · have hp : (payload (.run c v)).length ≤ n - out.length := by simpa [payload] using hc
      exact .inl ⟨.run c v, rest, ha, rfl, rfl, hp, by
        rw [ha]; exact decFrom_record (i := .run c v) k s n rfl rfl ho hp⟩
  · by_cases hc : n - out.length < c.toNat
    · have h1 : n - out.length < (litHeader c).toNat % 128 := by rw [litHeader_toNat]; omega
      exact .inr (.inl ⟨⟨_, _, ha, h1⟩, by rw [ha, decFrom_overrun _ _ _ ho h1]⟩)
    · have hc := Nat.not_lt.mp hc
      exact .inr (.inr ⟨.inr (.inr ⟨c, present, ha, hl, hc⟩), by rw [ha, decFrom_shortRaw _ _ _ ho hc hl]⟩)
  · by_cases hc : n - out.length < raw.length
    · have h1 : n - out.length < (litHeader (litCount raw.length)).toNat % 128 := by
        rw [litHeader_toNat, litCount_toNat]; omega
      exact .inr (.inl ⟨⟨_, _, ha, h1⟩, by rw [ha, decFrom_overrun _ _ _ ho h1]⟩)
    · have hp : (payload (.lit raw)).length ≤ n - out.length := by simpa [payload] using hc
      have hw : (Instr.lit raw).wf = true := wf_lit.mpr hl
      exact .inl ⟨.lit raw, rest, ha, rfl, hw, hp, by
        rw [ha]; exact decFrom_record (i := .lit raw) k s n rfl hw ho hp⟩

/-- The number of turns allowed does not matter once it exceeds the bytes ahead (R86). -/
theorem decFrom_turns {k k' : Nat} {ahead : List Byte} (s n : Nat) (out : List Byte) (h : ahead.length < k)
    (h' : ahead.length < k') : decFrom k ahead s n out = decFrom k' ahead s n out := by
  induction k generalizing k' ahead s out with
  | zero => omega
  | succ k ih =>
    obtain ⟨k', rfl⟩ : ∃ j, k' = j + 1 := ⟨k' - 1, by omega⟩
    by_cases ho : out.length = n
    · subst ho; rw [decFrom_done, decFrom_done]
    · rcases decFrom_cases k s n ahead out ho with ⟨i, after, ha, hr, hw, hp, he⟩ | ⟨⟨x, rest, ha, hc⟩, he⟩ | ⟨ha, he⟩
      · have := recordBytes_ne_nil hr
        rw [he, ha, decFrom_record k' s n hr hw ho hp]
        have hlen : ahead.length = (recordBytes i).length + after.length := by rw [ha]; simp
        exact ih _ _ (by omega) (by omega)
      · rw [he, ha, decFrom_overrun k' s n ho hc]
      · rw [he]
        rcases ha with ha | ⟨c, ha, hc⟩ | ⟨c, present, ha, hl, hc⟩ <;> rw [ha]
        · rw [decFrom_nil _ _ _ ho]
        · rw [decFrom_noValue _ _ _ ho hc]
        · rw [decFrom_shortRaw _ _ _ ho hc hl]

/-- Several records that bring the total to n, the total reached by none before the last, are decoded whole (R89). -/
theorem decFrom_records (rs : List Instr) (k s : Nat) (out after : List Byte)
    (hr : ∀ i ∈ rs, i.isRecord = true ∧ i.wf = true)
    (hm : ∀ j, j < rs.length → (payloadOf (rs.take j)).length < (payloadOf rs).length)
    (hk : rs.length < k) :
    decFrom k (streamOf rs ++ after) s (out.length + (payloadOf rs).length) out
      = .ok (out ++ payloadOf rs, s + (streamOf rs).length) := by
  induction rs generalizing k s out with
  | nil =>
    obtain ⟨k, rfl⟩ : ∃ j, k = j + 1 := ⟨k - 1, by simp at hk; omega⟩
    simpa using decFrom_done k after s out
  | cons i rs ih =>
    obtain ⟨k, rfl⟩ : ∃ j, k = j + 1 := ⟨k - 1, by simp at hk; omega⟩
    obtain ⟨h1, h2⟩ := hr i (by simp)
    have h0 := hm 0 (by simp)
    simp only [List.take_zero, payloadOf_nil, List.length_nil, payloadOf_cons, List.length_append] at h0
    rw [streamOf_cons, List.append_assoc, decFrom_record k s _ h1 h2
      (by simp only [payloadOf_cons, List.length_append]; omega)
      (by simp only [payloadOf_cons, List.length_append]; omega)]
    have := ih k (s + (recordBytes i).length) (out ++ payload i) (fun i' h => hr i' (by simp [h]))
      (fun j hj => by
        have := hm (j + 1) (by simpa using hj)
        simpa using this)
      (by simp at hk; omega)
    simp only [List.length_append, payloadOf_cons, Nat.add_assoc, List.append_assoc] at this ⊢
    exact this

/-! ### RLE_encode -/

theorem startsRun_eq (a b c : Byte) (rest : List Byte) :
    startsRun (a :: b :: c :: rest) = (decide (a = b) && decide (b = c)) := by
  simp [startsRun, Bool.beq_eq_decide_eq]

theorem getD_of_lt_takeWhile {v : Byte} {S : List Byte} {j : Nat}
    (h : j < (S.takeWhile (fun b => b == v)).length) : S.getD j 0#8 = v := by
  induction S generalizing j with
  | nil => simp at h
  | cons b S ih =>
    by_cases hb : b = v
    · cases j with
      | zero => simpa using hb
      | succ j =>
        simp only [List.takeWhile_cons, hb, beq_self_eq_true, if_true, List.length_cons] at h
        simpa using ih (by omega : j < _)
    · simp [hb] at h

theorem runLength_le (v : Byte) (S : List Byte) : runLength v S ≤ 127 ∧ runLength v S ≤ S.length := by
  have : (S.takeWhile (fun b => b == v)).length ≤ S.length := (List.takeWhile_sublist _).length_le
  have : runLength v S = min 127 (S.takeWhile (fun b => b == v)).length := rfl
  omega

theorem getD_of_lt_runLength {v : Byte} {S : List Byte} {j : Nat} (h : j < runLength v S) : S.getD j 0#8 = v :=
  getD_of_lt_takeWhile (Nat.lt_of_lt_of_le h (Nat.min_le_right _ _))

/-- `runlen` is the largest length of equal bytes, up to 127 (R105). -/
theorem le_runLength {v : Byte} {S : List Byte} {L : Nat} (h127 : L ≤ 127) (hL : L ≤ S.length)
    (h : ∀ j, j < L → S.getD j 0#8 = v) : L ≤ runLength v S :=
  Nat.le_min.mpr ⟨h127, le_takeWhile_length hL h⟩

theorem take_runLength (v : Byte) (S : List Byte) : S.take (runLength v S) = List.replicate (runLength v S) v := by
  have hl := (runLength_le v S).2
  apply List.ext_getElem
  · simp [hl]
  · intro j h1 h2
    have hj : j < runLength v S := by simpa using h2
    have := getD_of_lt_runLength hj
    have hlt : j < S.length := by omega
    simpa [List.getD_eq_getElem?_getD, hlt] using this

theorem three_le_runLength {S : List Byte} (h3 : 3 ≤ S.length) (hs : startsRun S = true) :
    3 ≤ runLength (S.getD 0 0#8) S := by
  refine le_runLength (by omega) h3 (fun j hj => ?_)
  simp only [startsRun, Bool.and_eq_true, beq_iff_eq] at hs
  obtain rfl | rfl | rfl : j = 0 ∨ j = 1 ∨ j = 2 := by omega
  · rfl
  · exact hs.1.symm
  · rw [← hs.2, hs.1]

theorem litExtend_spec (S : List Byte) (k L : Nat) (hk : L + k = 128) (h127 : L ≤ 127) (h3 : 3 ≤ L)
    (hl : L ≤ S.length) : L - 1 ≤ litExtend S k L ∧ litExtend S k L ≤ 127 ∧ litExtend S k L ≤ S.length := by
  induction k generalizing L with
  | zero => omega
  | succ k ih =>
    rw [litExtend]
    split
    · rename_i h
      have h : L = 127 ∨ L = S.length := h
      omega
    · rename_i h
      have h : ¬ (L = 127 ∨ L = S.length) := h
      split
      · omega
      · have := ih (L + 1) (by omega) (by omega) (by omega) (by omega); omega

theorem litLength_spec {S : List Byte} (h3 : 3 ≤ S.length) :
    2 ≤ litLength S ∧ litLength S ≤ 127 ∧ litLength S ≤ S.length := by
  have := litExtend_spec S 125 3 rfl (by omega) (by omega) h3
  exact ⟨by have := this.1; show 2 ≤ litExtend S 125 3; omega, this.2.1, this.2.2⟩

/-- One turn of the encoder (R105). -/
theorem encRecords_cases (k : Nat) (S : List Byte) :
    (S.length < 3 ∧ encRecords (k + 1) S = [.lit S])
    ∨ (3 ≤ S.length ∧ startsRun S = true ∧ 3 ≤ runLength (S.getD 0 0#8) S ∧ encRecords (k + 1) S =
        .run (BitVec.ofNat 7 (runLength (S.getD 0 0#8) S)) (S.getD 0 0#8)
          :: encRecords k (S.drop (runLength (S.getD 0 0#8) S)))
    ∨ (3 ≤ S.length ∧ startsRun S = false ∧ 2 ≤ litLength S ∧ encRecords (k + 1) S =
        .lit (S.take (litLength S)) :: encRecords k (S.drop (litLength S))) := by
  by_cases h : S.length < 3
  · exact .inl ⟨h, by simp [encRecords, h]⟩
  · have h3 : 3 ≤ S.length := by omega
    cases hs : startsRun S
    · exact .inr (.inr ⟨h3, rfl, (litLength_spec h3).1, by
        simp only [encRecords, hs, Bool.false_eq_true, if_false, if_neg h]⟩)
    · exact .inr (.inl ⟨h3, rfl, three_le_runLength h3 hs, by
        simp only [encRecords, hs, if_true, if_neg h]⟩)

/-- The number of turns allowed does not matter once it exceeds the bytes left (R106). -/
theorem encRecords_turns {k k' : Nat} {S : List Byte} (h : S.length < k) (h' : S.length < k') :
    encRecords k S = encRecords k' S := by
  induction k generalizing k' S with
  | zero => omega
  | succ k ih =>
    obtain ⟨k', rfl⟩ : ∃ j, k' = j + 1 := ⟨k' - 1, by omega⟩
    rcases encRecords_cases k S with ⟨h1, he⟩ | ⟨h1, h2, h3, he⟩ | ⟨h1, h2, h3, he⟩ <;>
      rcases encRecords_cases k' S with ⟨g1, ge⟩ | ⟨g1, g2, g3, ge⟩ | ⟨g1, g2, g3, ge⟩
    · rw [he, ge]
    · omega
    · omega
    · omega
    · rw [he, ge, ih (k' := k') (by rw [List.length_drop]; omega) (by rw [List.length_drop]; omega)]
    · rw [h2] at g2; exact absurd g2 (by decide)
    · omega
    · rw [h2] at g2; exact absurd g2 (by decide)
    · rw [he, ge, ih (k' := k') (by rw [List.length_drop]; omega) (by rw [List.length_drop]; omega)]

theorem rleRecords_eq {k : Nat} {S : List Byte} (h : S.length < k) : encRecords k S = rleRecords S :=
  encRecords_turns h (Nat.lt_succ_self _)

theorem runLength_toNat (v : Byte) (S : List Byte) :
    (BitVec.ofNat 7 (runLength v S)).toNat = runLength v S := by
  have := (runLength_le v S).1
  simp; omega

/-- What RLE_encode's records are (R107, R108): their payloads tile S, the last is a literal of at most two bytes, every other
covers at least two bytes, a run at least three. -/
theorem encRecords_shape (k : Nat) (S : List Byte) (hk : S.length < k) :
    ∃ rs tail, encRecords k S = rs ++ [.lit tail] ∧ tail.length ≤ 2 ∧ payloadOf rs ++ tail = S
      ∧ ∀ i ∈ rs, (∃ c v, i = .run c v ∧ 3 ≤ c.toNat) ∨ ∃ raw, i = .lit raw ∧ 2 ≤ raw.length ∧ raw.length ≤ 127 := by
  induction k generalizing S with
  | zero => omega
  | succ k ih =>
    rcases encRecords_cases k S with ⟨h1, he⟩ | ⟨h1, h2, h3, he⟩ | ⟨h1, h2, h3, he⟩
    · exact ⟨[], S, he, by omega, rfl, by simp⟩
    · obtain ⟨rs, tail, e, h4, h5, h6⟩ :=
        ih (S.drop (runLength (S.getD 0 0#8) S)) (by rw [List.length_drop]; omega)
      refine ⟨_ :: rs, tail, by rw [he, e]; rfl, h4, ?_, ?_⟩
      · rw [payloadOf_cons, List.append_assoc, h5, payload, runLength_toNat, ← take_runLength, List.take_append_drop]
      · intro i hi
        rcases List.mem_cons.mp hi with hi | hi
        · exact .inl ⟨_, _, hi, by rw [runLength_toNat]; exact h3⟩
        · exact h6 i hi
    · obtain ⟨rs, tail, e, h4, h5, h6⟩ := ih (S.drop (litLength S)) (by rw [List.length_drop]; omega)
      refine ⟨_ :: rs, tail, by rw [he, e]; rfl, h4, ?_, ?_⟩
      · rw [payloadOf_cons, List.append_assoc, h5, payload, List.take_append_drop]
      · intro i hi
        have hl := litLength_spec h1
        rcases List.mem_cons.mp hi with hi | hi
        · exact .inr ⟨_, hi, by simp; omega, by simp; omega⟩
        · exact h6 i hi

end Sys2Proof.Machine
end

