-- ==== Sys2Proof/Laws/Records.lean ====
section
/-! SUPPORT. The record family in closed form: what the loops of RUN and LIT leave, what one record step leaves, and
every way a turn of DEC can end. -/

namespace Sys2Proof.Machine

/-! ### The loops -/

theorem produceRun_eq (v : Byte) (k : Nat) (s : State) :
    produceRun v k s =
      { s with d := Memory.writeAll s.d s.pos (List.replicate k v), pos := s.pos + k } := by
  induction k generalizing s with
  | zero => rfl
  | succ k ih =>
    rw [produceRun, ih, List.replicate_succ, Memory.writeAll]
    simp only [produce, Nat.add_assoc, Nat.add_comm 1 k]

theorem copyRaw_eq (bs : List Byte) (s : State) :
    copyRaw bs s =
      { s with
        sp := s.sp + bs.length, d := Memory.writeAll s.d s.pos bs, pos := s.pos + bs.length } := by
  induction bs generalizing s with
  | nil => rfl
  | cons b bs ih =>
    rw [copyRaw, ih, Memory.writeAll]
    simp only [produce, advance, List.length_cons, Nat.add_assoc, Nat.add_comm 1 bs.length]

/-! ### One record step -/

/-- A record whose count exceeds the room (R152): the header is read, nothing else. -/
theorem recordStep_overrun {h : Byte} {body : State → State} {s : State} (hc : s.room < (countField h).toNat) :
    recordStep h body s = takeFault .overrun (loadHeader h s) := by
  simp [recordStep, hc]

theorem recordStep_fits {h : Byte} {body : State → State} {s : State} (hc : (countField h).toNat ≤ s.room) :
    recordStep h body s = body (loadHeader h s) := by
  rw [recordStep, if_neg (by simpa using hc)]

/-- RUN that fits (R81): `count` copies of the value in D, POS and SP moved on. -/
theorem runRecord_eq {c : BitVec 7} {v : Byte} {s : State} (hc : c.toNat ≤ s.room) :
    runRecord c v s =
      { s with
        hdr := runHeader c, cnt := c, val := v, sp := s.sp + 2, pos := s.pos + c.toNat
        d := Memory.writeAll s.d s.pos (List.replicate c.toNat v) } := by
  rw [runRecord, recordStep_fits (by simpa using hc), produceRun_eq]
  simp [loadValue, loadHeader, advance]

/-- LIT that fits (R82): the raw bytes in D, POS and SP moved on. -/
theorem litRecord_eq {raw : List Byte} {s : State} (hl : raw.length ≤ 127) (hc : raw.length ≤ s.room) :
    litRecord raw s =
      { s with
        hdr := litHeader (litCount raw.length), cnt := litCount raw.length
        sp := s.sp + 1 + raw.length, pos := s.pos + raw.length
        d := Memory.writeAll s.d s.pos raw } := by
  rw [litRecord, recordStep_fits (by simp; omega), copyRaw_eq]
  simp [loadHeader, advance]

theorem runRecord_overrun {c : BitVec 7} {v : Byte} {s : State} (hc : s.room < c.toNat) :
    runRecord c v s = takeFault .overrun (loadHeader (runHeader c) s) :=
  recordStep_overrun (by simpa using hc)

theorem litRecord_overrun {raw : List Byte} {s : State} (hl : raw.length ≤ 127) (hc : s.room < raw.length) :
    litRecord raw s = takeFault .overrun (loadHeader (litHeader (litCount raw.length)) s) :=
  recordStep_overrun (by simp; omega)

/-- Every way a record step can end: a record of the stream done whole, OVERRUN after its header, or TRUNCATED with what
the stream still held of it. -/
theorem recordTurn_cases (s : State) :
    (s.ahead = [] ∧ recordTurn s = takeFault .truncated s)
    ∨ (∃ h rest, s.ahead = h :: rest ∧ s.room < h.toNat % 128
        ∧ recordTurn s = takeFault .overrun (loadHeader h s))
    ∨ (∃ c, s.ahead = [runHeader c] ∧ c.toNat ≤ s.room
        ∧ recordTurn s = takeFault .truncated (loadHeader (runHeader c) s))
    ∨ (∃ c present, s.ahead = litHeader c :: present ∧ present.length < c.toNat ∧ c.toNat ≤ s.room
        ∧ recordTurn s = takeFault .truncated (copyRaw present (loadHeader (litHeader c) s)))
    ∨ (∃ c v rest, s.ahead = runHeader c :: v :: rest ∧ c.toNat ≤ s.room ∧ recordTurn s = runRecord c v s)
    ∨ (∃ raw rest, s.ahead = litHeader (litCount raw.length) :: (raw ++ rest) ∧ raw.length ≤ 127
        ∧ raw.length ≤ s.room ∧ recordTurn s = litRecord raw s) := by
  unfold recordTurn
  rcases decodeRecord_cases s.ahead with ⟨ha, hd⟩ | ⟨c, ha, hd⟩ | ⟨c, v, rest, ha, hd⟩ | ⟨c, present, ha, hl, hd⟩ |
    ⟨raw, rest, ha, hl, hd⟩ <;> simp only [hd]
  · exact .inl ⟨ha, rfl⟩
  · by_cases hc : s.room < c.toNat
    · refine .inr (.inl ⟨_, _, ha, by rw [runHeader_toNat]; omega, by
        rw [recordCut]; exact recordStep_overrun (by simpa using hc)⟩)
    · exact .inr (.inr (.inl ⟨c, ha, by omega, by
        rw [recordCut]; exact recordStep_fits (by simp; omega)⟩))
  · by_cases hc : s.room < c.toNat
    · refine .inr (.inl ⟨_, _, ha, by rw [runHeader_toNat]; omega, runRecord_overrun hc⟩)
    · exact .inr (.inr (.inr (.inr (.inl ⟨c, v, rest, ha, by omega, rfl⟩))))
  · by_cases hc : s.room < c.toNat
    · refine .inr (.inl ⟨_, _, ha, by rw [litHeader_toNat]; omega, by
        rw [recordCut]; exact recordStep_overrun (by simpa using hc)⟩)
    · exact .inr (.inr (.inr (.inl ⟨c, present, ha, hl, by omega, by
        rw [recordCut]; exact recordStep_fits (by simp; omega)⟩)))
  · by_cases hc : s.room < raw.length
    · refine .inr (.inl ⟨_, _, ha, ?_, litRecord_overrun hl hc⟩)
      rw [litHeader_toNat, litCount_toNat]; omega
    · exact .inr (.inr (.inr (.inr (.inr ⟨raw, rest, ha, hl, by omega, rfl⟩))))

/-- What a record step leaves alone, whatever the record: everything but the decoder's registers, D and STATUS. -/
theorem recordTurn_frame (s : State) :
    ∃ running fault cause sp hdr cnt val pos d,
      recordTurn s = { s with
        running := running, fault := fault, cause := cause, sp := sp, hdr := hdr, cnt := cnt, val := val, pos := pos
        d := d } := by
  rcases recordTurn_cases s with ⟨_, h⟩ | ⟨_, _, _, _, h⟩ | ⟨_, _, _, h⟩ | ⟨_, present, _, _, _, h⟩ |
    ⟨c, v, _, _, hc, h⟩ | ⟨raw, _, _, hl, hc, h⟩ <;> rw [h]
  · exact ⟨_, _, _, _, _, _, _, _, _, rfl⟩
  · exact ⟨_, _, _, _, _, _, _, _, _, rfl⟩
  · exact ⟨_, _, _, _, _, _, _, _, _, rfl⟩
  · rw [copyRaw_eq]; exact ⟨_, _, _, _, _, _, _, _, _, rfl⟩
  · rw [runRecord_eq hc]; exact ⟨_, _, _, _, _, _, _, _, _, rfl⟩
  · rw [litRecord_eq hl hc]; exact ⟨_, _, _, _, _, _, _, _, _, rfl⟩

end Sys2Proof.Machine
end

