-- ==== Sys2Proof/Laws/Step.lean ====
section
/-! SUPPORT. What the meanings, the host's accesses and a step can answer, each said once. -/

namespace Sys2Proof.Machine

/-! ### Conditions -/

theorem accepts_iff {s : State} : s.accepts = true ↔ s.running = none ∧ s.fault = false := by
  cases hr : s.running <;> cases hf : s.fault <;> simp [State.accepts, State.busy, hr, hf]

theorem accepts_of_fault {s : State} (h : s.fault = true) : s.accepts = false := by simp [State.accepts, h]

theorem accepts_of_busy {s : State} (h : s.busy = true) : s.accepts = false := by simp [State.accepts, h]

theorem recordEnabled_iff {s : State} :
    s.recordEnabled = true ↔ s.running = some .dec ∧ s.fault = false ∧ s.pos < s.frameLen := by
  simp [State.recordEnabled, and_assoc]

/-! ### The guards -/

theorem whenAccepting_of {s t : State} (h : s.accepts = true) : whenAccepting s t = t := by simp [whenAccepting, h]

theorem whenAccepting_not {s t : State} (h : s.accepts = false) : whenAccepting s t = s := by simp [whenAccepting, h]

theorem checkConfig_bad {s t : State} (h : s.nmax < s.frameLen) : checkConfig s t = takeFault .badCfg s := by
  simp [checkConfig, h]

theorem checkConfig_ok {s t : State} (h : s.frameLen ≤ s.nmax) : checkConfig s t = t := by
  simp [checkConfig, Nat.not_lt.mpr h]

theorem withinCapacity_ok {s t : State} (h : s.frameLen ≤ s.nmax) : withinCapacity s t = .next t := by
  simp [withinCapacity, Nat.not_lt.mpr h]

theorem whenRecordEnabled_ok {s t : State} (he : s.recordEnabled = true) (h : s.frameLen ≤ s.nmax) :
    whenRecordEnabled s t = .next t := by
  simp [whenRecordEnabled, he, withinCapacity_ok h]

theorem withinCapacity_next {s t u : State} (h : withinCapacity s t = .next u) : s.frameLen ≤ s.nmax ∧ u = t := by
  unfold withinCapacity at h
  split at h
  · cases h
  · cases h; exact ⟨by omega, rfl⟩

theorem whenRecordEnabled_next {s t u : State} (h : whenRecordEnabled s t = .next u) :
    s.recordEnabled = true ∧ s.frameLen ≤ s.nmax ∧ u = t := by
  unfold whenRecordEnabled at h
  split at h
  · rename_i he; exact ⟨he, withinCapacity_next h⟩
  · cases h

/-! ### Working -/

/-- While DEC has a record to execute, a step of work is the record step (R80). -/
theorem recordFetch_eq {s : State} (he : s.recordEnabled = true) (h : s.frameLen ≤ s.nmax) :
    recordFetch s = .next (recordTurn s) := by
  unfold recordFetch recordTurn
  rcases decodeRecord_cases s.ahead with ⟨_, hd⟩ | ⟨c, _, hd⟩ | ⟨c, v, rest, _, hd⟩ | ⟨c, present, _, _, hd⟩ |
    ⟨raw, rest, _, hl, hd⟩ <;> simp only [hd]
  · exact whenRecordEnabled_ok he h
  · exact whenRecordEnabled_ok he h
  · exact whenRecordEnabled_ok he h
  · exact whenRecordEnabled_ok he h
  · show execLit raw s = _
    rw [execLit, if_pos (by simpa [Instr.wf] using hl)]
    exact whenRecordEnabled_ok he h

theorem recordFetch_next {s t : State} (h : recordFetch s = .next t) :
    s.recordEnabled = true ∧ s.frameLen ≤ s.nmax ∧ t = recordTurn s := by
  have key : s.recordEnabled = true ∧ s.frameLen ≤ s.nmax := by
    unfold recordFetch at h
    rcases decodeRecord_cases s.ahead with ⟨_, hd⟩ | ⟨c, _, hd⟩ | ⟨c, v, rest, _, hd⟩ | ⟨c, present, _, _, hd⟩ |
      ⟨raw, rest, _, hl, hd⟩ <;> simp only [hd] at h
    · exact ⟨(whenRecordEnabled_next h).1, (whenRecordEnabled_next h).2.1⟩
    · exact ⟨(whenRecordEnabled_next h).1, (whenRecordEnabled_next h).2.1⟩
    · exact ⟨(whenRecordEnabled_next h).1, (whenRecordEnabled_next h).2.1⟩
    · exact ⟨(whenRecordEnabled_next h).1, (whenRecordEnabled_next h).2.1⟩
    · have h : execLit raw s = .next t := h
      rw [execLit, if_pos (by simpa [Instr.wf] using hl)] at h
      exact ⟨(whenRecordEnabled_next h).1, (whenRecordEnabled_next h).2.1⟩
  refine ⟨key.1, key.2, ?_⟩
  rw [recordFetch_eq key.1 key.2] at h
  cases h; rfl

/-- Everything one step of work can do. -/
theorem work_cases {s t : State} (h : work s = .next t) :
    (s.running = none ∧ t = s)
    ∨ (s.running = some .dec ∧ s.fault = false ∧ s.pos < s.frameLen ∧ s.frameLen ≤ s.nmax ∧ t = recordTurn s)
    ∨ (s.running = some .dec ∧ s.frameLen ≤ s.pos ∧ s.frameLen ≤ s.nmax ∧ t = commitTurn s)
    ∨ (s.running = some .enc ∧ s.frameLen ≤ s.nmax ∧ t = encTurn s) := by
  unfold work at h
  split at h
  · rename_i hr; cases h; exact .inl ⟨hr, rfl⟩
  · rename_i hr
    split at h
    · rename_i hp
      obtain ⟨he, hn, ht⟩ := recordFetch_next h
      exact .inr (.inl ⟨hr, (recordEnabled_iff.mp he).2.1, hp, hn, ht⟩)
    · rename_i hp
      obtain ⟨hn, ht⟩ := withinCapacity_next h
      exact .inr (.inr (.inl ⟨hr, by omega, hn, ht⟩))
  · rename_i hr
    obtain ⟨hn, ht⟩ := withinCapacity_next h
    exact .inr (.inr (.inr ⟨hr, hn, ht⟩))

theorem work_record {s : State} (he : s.recordEnabled = true) (h : s.frameLen ≤ s.nmax) :
    work s = .next (recordTurn s) := by
  obtain ⟨hr, _, hp⟩ := recordEnabled_iff.mp he
  simp only [work, hr, if_pos hp, recordFetch_eq he h]

theorem work_commit {s : State} (hr : s.running = some .dec) (hp : s.frameLen ≤ s.pos) (h : s.frameLen ≤ s.nmax) :
    work s = .next (commitTurn s) := by
  simp only [work, hr, if_neg (Nat.not_lt.mpr hp), withinCapacity_ok h]

theorem work_enc {s : State} (hr : s.running = some .enc) (h : s.frameLen ≤ s.nmax) : work s = .next (encTurn s) := by
  simp only [work, hr, withinCapacity_ok h]

theorem work_idle {s : State} (hr : s.running = none) : work s = .next s := by simp only [work, hr]

/-! ### Issuing -/

/-- Everything a write to CMD can do: it is ignored, completes as one transition, or begins a frame command. -/
theorem issue_cases {w : Word} {s t : State} (h : issue w s = .next t) :
    t = s
    ∨ (s.accepts = true ∧
      ((4 ≤ w.toNat ∧ t = takeFault .badCmd s)
      ∨ (w = 3#32 ∧ t = clearFrames s)
      ∨ ((w = 1#32 ∨ w = 2#32) ∧ s.nmax < s.frameLen ∧ t = takeFault .badCfg s)
      ∨ (w = 1#32 ∧ s.frameLen ≤ s.nmax ∧ s.grain = .command ∧ t = decLoop s.decTurns (beginDec s))
      ∨ (w = 1#32 ∧ s.frameLen ≤ s.nmax ∧ s.grain = .record ∧ t = beginDec s)
      ∨ (w = 2#32 ∧ s.frameLen ≤ s.nmax ∧ s.grain = .command ∧ t = encLoop s.encTurns (beginEnc s))
      ∨ (w = 2#32 ∧ s.frameLen ≤ s.nmax ∧ s.grain = .record ∧ t = beginEnc s))) := by
  cases ha : s.accepts
  · refine .inl ?_
    rcases decodeCommand_cases w with ⟨_, hd⟩ | ⟨_, hd⟩ | ⟨_, hd⟩ | ⟨_, hd⟩ | ⟨_, hd⟩ <;>
      cases hg : s.grain <;>
      simp only [issue, hd, hg, exec, openCommand, execNop, execDecFrame, execEncFrame, execClear, badCommand,
        whenAccepting_not ha] at h <;> cases h <;> rfl
  · by_cases hn : s.nmax < s.frameLen
    · rcases decodeCommand_cases w with ⟨hw, hd⟩ | ⟨hw, hd⟩ | ⟨hw, hd⟩ | ⟨hw, hd⟩ | ⟨hw, hd⟩ <;>
        cases hg : s.grain <;>
        simp only [issue, hd, hg, exec, openCommand, execNop, execDecFrame, execEncFrame, execClear, badCommand,
          whenAccepting_of ha, checkConfig_bad hn] at h <;> cases h <;> simp [hw, hn]
    · have hn' : s.frameLen ≤ s.nmax := by omega
      rcases decodeCommand_cases w with ⟨hw, hd⟩ | ⟨hw, hd⟩ | ⟨hw, hd⟩ | ⟨hw, hd⟩ | ⟨hw, hd⟩ <;>
        cases hg : s.grain <;>
        simp only [issue, hd, hg, exec, openCommand, execNop, execDecFrame, execEncFrame, execClear, badCommand,
          whenAccepting_of ha, checkConfig_ok hn'] at h <;> cases h <;> simp [hw, hn']

/-! ### The host's other accesses -/

theorem writeConfig_cases (n : Nat) (v : Word) (s : State) :
    writeConfig n v s = s
    ∨ (s.accepts = true ∧ n = 0 ∧ writeConfig n v s = { s with cfgW := v })
    ∨ (s.accepts = true ∧ n = 1 ∧ writeConfig n v s = { s with cfgH := v }) := by
  cases ha : s.accepts
  · left
    match n with
    | 0 => simp [writeConfig, whenAccepting_not ha]
    | 1 => simp [writeConfig, whenAccepting_not ha]
    | n + 2 => rfl
  · match n with
    | 0 => exact .inr (.inl ⟨rfl, rfl, by simp [writeConfig, whenAccepting_of ha]⟩)
    | 1 => exact .inr (.inr ⟨rfl, rfl, by simp [writeConfig, whenAccepting_of ha]⟩)
    | n + 2 => exact .inl rfl

theorem writePort_cases (j : Nat) (b : Byte) (s : State) :
    writePort j b s = s
    ∨ (s.accepts = true ∧ j < s.frameLen ∧ j < s.nmax ∧ writePort j b s = { s with x := Memory.write s.x j b }) := by
  unfold writePort
  split
  · rename_i h
    cases ha : s.accepts
    · exact .inl (whenAccepting_not ha)
    · exact .inr ⟨rfl, h.1, h.2, whenAccepting_of ha⟩
  · exact .inl rfl

/-- A read through the F port changes the model's own fields and nothing of the block. -/
theorem readPort_frame (j : Nat) (s : State) : ∃ b k, readPort j s = { s with portData := b, free := k } := by
  unfold readPort
  split
  · exact ⟨_, _, rfl⟩
  · split
    · exact ⟨_, _, rfl⟩
    · split <;> exact ⟨_, _, rfl⟩

/-! ### A step -/

theorem step_nil {s : State} (h : s.host = []) : step s = work s := by simp only [step, h]

theorem step_cons {s : State} {a : HostAction} {rest : List HostAction} (h : s.host = a :: rest) :
    step s = hostAct a { s with host := rest } := by simp only [step, h]

/-- Everything one step can do, `u` being the state with the host's action used up. -/
theorem step_cases {s t : State} (h : step s = .next t) :
    (work { s with host := s.host.tail } = .next t ∧ (s.host = [] ∨ ∃ rest, s.host = .wait :: rest))
    ∨ (∃ rest, s.host = .hold :: rest ∧ t = { s with host := rest })
    ∨ (∃ input left rest, s.host = .reset input left :: rest ∧ t = applyReset input left { s with host := rest })
    ∨ (∃ w rest, s.host = .writeReg 2 w :: rest ∧ issue w { s with host := rest } = .next t)
    ∨ (∃ n v rest, s.host = .writeReg n v :: rest ∧ n ≠ 2 ∧ t = writeConfig n v { s with host := rest })
    ∨ (∃ n rest, s.host = .readReg n :: rest ∧ t = readRegister n { s with host := rest })
    ∨ (∃ j b rest, s.host = .writeX j b :: rest ∧ t = writePort j b { s with host := rest })
    ∨ (∃ j rest, s.host = .readF j :: rest ∧ t = readPort j { s with host := rest }) := by
  cases hh : s.host with
  | nil =>
    rw [step_nil hh] at h
    refine .inl ⟨?_, .inl rfl⟩
    rw [show ({ s with host := ([] : List HostAction).tail } : State) = s by cases s; simp at hh; simp [hh]]
    exact h
  | cons a rest =>
    rw [step_cons hh] at h
    cases a with
    | writeReg n v =>
      by_cases hn : n = 2
      · subst hn
        exact .inr (.inr (.inr (.inl ⟨v, rest, rfl, by simpa [hostAct, writeRegister] using h⟩)))
      · refine .inr (.inr (.inr (.inr (.inl ⟨n, v, rest, rfl, hn, ?_⟩))))
        simp only [hostAct, writeRegister, if_neg hn] at h
        cases h; rfl
    | readReg n => cases h; exact .inr (.inr (.inr (.inr (.inr (.inl ⟨n, rest, rfl, rfl⟩)))))
    | writeX j b => cases h; exact .inr (.inr (.inr (.inr (.inr (.inr (.inl ⟨j, b, rest, rfl, rfl⟩))))))
    | readF j => cases h; exact .inr (.inr (.inr (.inr (.inr (.inr (.inr ⟨j, rest, rfl, rfl⟩))))))
    | wait => exact .inl ⟨h, .inr ⟨rest, rfl⟩⟩
    | hold => cases h; exact .inr (.inl ⟨rest, rfl, rfl⟩)
    | reset input left => cases h; exact .inr (.inr (.inl ⟨input, left, rest, rfl, rfl⟩))

/-! ### The loops of the atomic commands -/

theorem decLoop_idle {s : State} (k : Nat) (h : s.running ≠ some .dec) : decLoop k s = s := by
  cases k <;> simp [decLoop, h]

theorem decLoop_succ {s : State} (k : Nat) (h : s.running = some .dec) : decLoop (k + 1) s = decLoop k (decTurn s) := by
  simp [decLoop, h]

theorem encLoop_idle {s : State} (k : Nat) (h : s.running ≠ some .enc) : encLoop k s = s := by
  cases k <;> simp [encLoop, h]

theorem encLoop_succ {s : State} (k : Nat) (h : s.running = some .enc) : encLoop (k + 1) s = encLoop k (encTurn s) := by
  simp [encLoop, h]

/-- An induction along a DEC_FRAME: what a turn of a running DEC keeps, the loop keeps. -/
theorem decLoop_keeps {P : State → Prop} (ht : ∀ s, s.running = some .dec → P s → P (decTurn s)) (k : Nat) (s : State)
    (h : P s) : P (decLoop k s) := by
  induction k generalizing s with
  | zero => exact h
  | succ k ih =>
    by_cases hr : s.running = some .dec
    · rw [decLoop_succ k hr]; exact ih _ (ht s hr h)
    · rw [decLoop_idle _ hr]; exact h

/-- An induction along an ENC_FRAME. -/
theorem encLoop_keeps {P : State → Prop} (ht : ∀ s, s.running = some .enc → P s → P (encTurn s)) (k : Nat) (s : State)
    (h : P s) : P (encLoop k s) := by
  induction k generalizing s with
  | zero => exact h
  | succ k ih =>
    by_cases hr : s.running = some .enc
    · rw [encLoop_succ k hr]; exact ih _ (ht s hr h)
    · rw [encLoop_idle _ hr]; exact h

/-! ### The frame commands, where they are accepted and pass their check -/

theorem execDecFrame_eq {s : State} (ha : s.accepts = true) (hn : s.frameLen ≤ s.nmax) :
    exec .decFrame s = .next (decLoop s.decTurns (beginDec s)) := by
  simp [exec, execDecFrame, whenAccepting_of ha, checkConfig_ok hn]

theorem execEncFrame_eq {s : State} (ha : s.accepts = true) (hn : s.frameLen ≤ s.nmax) :
    exec .encFrame s = .next (encLoop s.encTurns (beginEnc s)) := by
  simp [exec, execEncFrame, whenAccepting_of ha, checkConfig_ok hn]

/-- A step of a run, of any machine. -/
theorem run_succ (M : Host.Core) (k : Nat) (s s' : M.State) (h : M.step s = .next s') : M.run (k + 1) s = M.run k s' := by
  simp [Host.Core.run, h]

end Sys2Proof.Machine
end

