-- ==== Sys2Proof/Laws/Frames.lean ====
section
/-! SUPPORT. The two loops of the frame commands against the pure functions: what the frame decode loop (40_decoder.md R83) and
the encoder loop (41_encoder.md R100) leave, said once. -/

namespace Sys2Proof.Machine

/-! ### DEC -/

/-- A whole record at the cursor that fits (R81, R82): its payload goes to D, POS and SP move past it. -/
theorem recordTurn_record {s : State} {i : Instr} {after : List Byte} (hr : i.isRecord = true) (hw : i.wf = true)
    (ha : s.ahead = recordBytes i ++ after) (hc : (payload i).length ≤ s.room) :
    ∃ hdr cnt val, recordTurn s = { s with
      hdr := hdr, cnt := cnt, val := val, sp := s.sp + (recordBytes i).length, pos := s.pos + (payload i).length
      d := Memory.writeAll s.d s.pos (payload i) } := by
  have hd : recordTurn s = recordEffect i s := by
    rw [recordTurn, ha, decodeRecord_recordBytes hr hw after]
  rw [hd]
  cases i with
  | run c v =>
    have hc' : c.toNat ≤ s.room := by simpa [payload] using hc
    refine ⟨runHeader c, c, v, ?_⟩
    rw [recordEffect, runRecord_eq hc']
    simp [payload, recordBytes]
  | lit raw =>
    refine ⟨litHeader (litCount raw.length), litCount raw.length, s.val, ?_⟩
    rw [recordEffect, litRecord_eq (wf_lit.mp hw) hc]
    simp [payload, recordBytes, Nat.add_assoc, Nat.add_comm 1]
  | nop => simp [Instr.isRecord] at hr
  | decFrame => simp [Instr.isRecord] at hr
  | encFrame => simp [Instr.isRecord] at hr
  | clear => simp [Instr.isRecord] at hr

/-- A header whose count exceeds the room (R152). -/
theorem recordTurn_overrun {s : State} {h : Byte} {rest : List Byte} (ha : s.ahead = h :: rest)
    (hc : s.room < h.toNat % 128) : recordTurn s = takeFault .overrun (loadHeader h s) := by
  have hc' : s.room < (countField h).toNat := by rw [countField_toNat]; exact hc
  rcases recordTurn_cases s with ⟨h1, _⟩ | ⟨h', rest', h1, _, h3⟩ | ⟨c, h1, h2, _⟩ | ⟨c, p, h1, _, h2, _⟩ |
    ⟨c, v, rest', h1, h2, _⟩ | ⟨raw, rest', h1, hl, h2, _⟩ <;> rw [ha] at h1
  · cases h1
  · cases h1; exact h3
  · cases h1; rw [countField_runHeader] at hc'; omega
  · cases h1; rw [countField_litHeader] at hc'; omega
  · cases h1; rw [countField_runHeader] at hc'; omega
  · cases h1; rw [countField_litHeader, litCount_toNat] at hc'; omega

/-- A stream that ends at a header, a value byte or a raw byte that is needed (R151): the decoder's registers and D from POS on
are all that has moved, and SP is at the end. -/
theorem recordTurn_truncated {s : State}
    (ha : s.ahead = [] ∨ (∃ c : BitVec 7, s.ahead = [runHeader c] ∧ c.toNat ≤ s.room)
      ∨ ∃ (c : BitVec 7) (present : List Byte), s.ahead = litHeader c :: present ∧ present.length < c.toNat
          ∧ c.toNat ≤ s.room) :
    ∃ hdr cnt present, recordTurn s = { s with
        hdr := hdr, cnt := cnt, sp := s.sp + s.ahead.length, pos := s.pos + present.length
        d := Memory.writeAll s.d s.pos present, cause := .truncated, fault := true, running := none }
      ∧ (present = [] ∨ present.length < s.room) := by
  rcases ha with ha | ⟨c, ha, hc⟩ | ⟨c, present, ha, hl, hc⟩
  · refine ⟨s.hdr, s.cnt, [], ?_, .inl rfl⟩
    rw [recordTurn, ha]; rfl
  · refine ⟨runHeader c, c, [], ?_, .inl rfl⟩
    rw [recordTurn, ha, decodeRecord_noValue]
    simp only [recordCut]
    rw [recordStep_fits (by simpa using hc)]
    simp [takeFault, loadHeader, advance, Memory.writeAll]
  · refine ⟨litHeader c, c, present, ?_, .inr (by omega)⟩
    rw [recordTurn, ha, decodeRecord_shortRaw c hl]
    simp only [recordCut]
    rw [recordStep_fits (by simpa using hc), copyRaw_eq]
    simp [takeFault, loadHeader, advance, Nat.add_assoc, Nat.add_comm 1]

/-- The frame decode loop and the commit, from any point of a frame at which `out` is what has been decoded of it: RLE_decode
gives the whole delta and the end, and the commit follows (R83, R121, R131). -/
theorem decLoop_ok (k : Nat) (s : State) (out bytes : List Byte) (e : Nat) (hr : s.running = some .dec)
    (hpos : s.pos = out.length) (hN : s.pos ≤ s.frameLen) (hd : ∀ j, j < s.pos → Memory.read s.d j = out.getD j 0#8)
    (hk : s.ahead.length + 2 ≤ k) (h : decFrom (s.ahead.length + 1) s.ahead s.sp s.frameLen out = .ok (bytes, e)) :
    ∃ hdr cnt val d, decLoop k s = commitTurn { s with
        sp := e, pos := s.frameLen, hdr := hdr, cnt := cnt, val := val, d := d }
      ∧ bytes.length = s.frameLen
      ∧ ∀ j, Memory.read d j = if j < s.frameLen then bytes.getD j 0#8 else Memory.read s.d j := by
  induction k generalizing s out with
  | zero => omega
  | succ k ih =>
    rw [decLoop_succ k hr, decTurn]
    by_cases hp : s.pos = s.frameLen
    · rw [if_neg (by omega)]
      rw [← hp, hpos, decFrom_done] at h
      cases h
      refine ⟨s.hdr, s.cnt, s.val, s.d, ?_, by omega, fun j => ?_⟩
      · rw [decLoop_idle k (by simp [commitTurn]), ← hp]
      · split
        · rename_i hj; exact hd j (by omega)
        · rfl
    · rw [if_pos (by omega)]
      have ho : out.length ≠ s.frameLen := by omega
      have hroom : s.room = s.frameLen - out.length := by rw [State.room, hpos]
      rcases decFrom_cases s.ahead.length s.sp s.frameLen s.ahead out ho with
        ⟨i, after, ha, hri, hwi, hpi, he⟩ | ⟨_, he⟩ | ⟨_, he⟩
      · obtain ⟨hdr, cnt, val, ht⟩ := recordTurn_record hri hwi ha (by rw [hroom]; exact hpi)
        rw [he] at h
        have hpos' := recordBytes_ne_nil hri
        have hlen : s.ahead.length = (recordBytes i).length + after.length := by rw [ha]; simp
        have hah : (recordTurn s).ahead = after := by
          rw [ht]
          show s.input.drop (s.sp + (recordBytes i).length) = after
          rw [← List.drop_drop, show s.input.drop s.sp = recordBytes i ++ after from ha]
          simp
        have hfl : (recordTurn s).frameLen = s.frameLen := by rw [ht]; rfl
        have hd' : ∀ j, Memory.read (recordTurn s).d j =
            if s.pos ≤ j ∧ j < s.pos + (payload i).length then (payload i).getD (j - s.pos) 0#8
            else Memory.read s.d j := by rw [ht]; exact fun j => Memory.read_writeAll _ _ _ _
        obtain ⟨hdr', cnt', val', d, h1, h2, h3⟩ := ih (recordTurn s) (out ++ payload i) (by rw [ht]; exact hr)
          (by rw [ht]; simp [hpos]) (by rw [hfl, ht]; show s.pos + _ ≤ _; omega)
          (fun j hj => by
            have hj : j < s.pos + (payload i).length := by rw [ht] at hj; exact hj
            rw [hd']
            by_cases hjp : s.pos ≤ j
            · rw [if_pos ⟨hjp, hj⟩, List.getD_append_right _ _ _ _ (by omega), hpos]
            · rw [if_neg (by omega), hd j (by omega), List.getD_append _ _ _ _ (by omega)])
          (by rw [hah]; omega)
          (by
            rw [hah, hfl, ← h, show (recordTurn s).sp = s.sp + (recordBytes i).length by rw [ht]]
            exact decFrom_turns _ _ _ (by omega) (by omega))
        refine ⟨hdr', cnt', val', d, ?_, by rw [← hfl]; exact h2, fun j => ?_⟩
        · rw [h1, hfl, ht]
        · rw [h3, hfl, hd']
          split
          · rfl
          · rw [if_neg (by omega)]
      · rw [he] at h; cases h
      · rw [he] at h; cases h

/-- The frame decode loop on a stream that RLE_decode gives a fault for: that fault is taken, with the frame short (R151, R152,
R156). -/
theorem decLoop_error (k : Nat) (s : State) (out : List Byte) (c : Cause) (hr : s.running = some .dec)
    (hpos : s.pos = out.length) (hN : s.pos ≤ s.frameLen) (hsp : s.sp ≤ s.input.length)
    (hk : s.ahead.length + 2 ≤ k) (h : decFrom (s.ahead.length + 1) s.ahead s.sp s.frameLen out = .error c) :
    ∃ sp hdr cnt val pos d, decLoop k s = { s with
        sp := sp, hdr := hdr, cnt := cnt, val := val, pos := pos, d := d, cause := c, fault := true, running := none }
      ∧ (c = .truncated ∨ c = .overrun) ∧ pos < s.frameLen ∧ s.sp ≤ sp ∧ sp ≤ s.input.length
      ∧ (c = .truncated → sp = s.input.length)
      ∧ ∀ j, s.frameLen ≤ j → Memory.read d j = Memory.read s.d j := by
  induction k generalizing s out with
  | zero => omega
  | succ k ih =>
    rw [decLoop_succ k hr, decTurn]
    by_cases hp : s.pos = s.frameLen
    · rw [← hp, hpos, decFrom_done] at h; cases h
    · rw [if_pos (by omega)]
      have ho : out.length ≠ s.frameLen := by omega
      have hroom : s.room = s.frameLen - out.length := by rw [State.room, hpos]
      have hal : s.ahead.length = s.input.length - s.sp := by simp [State.ahead]
      rcases decFrom_cases s.ahead.length s.sp s.frameLen s.ahead out ho with
        ⟨i, after, ha, hri, hwi, hpi, he⟩ | ⟨⟨x, rest, ha, hc⟩, he⟩ | ⟨ha, he⟩
      · obtain ⟨hdr, cnt, val, ht⟩ := recordTurn_record hri hwi ha (by rw [hroom]; exact hpi)
        rw [he] at h
        have hpos' := recordBytes_ne_nil hri
        have hlen : s.ahead.length = (recordBytes i).length + after.length := by rw [ha]; simp
        have hah : (recordTurn s).ahead = after := by
          rw [ht]
          show s.input.drop (s.sp + (recordBytes i).length) = after
          rw [← List.drop_drop, show s.input.drop s.sp = recordBytes i ++ after from ha]
          simp
        have hfl : (recordTurn s).frameLen = s.frameLen := by rw [ht]; rfl
        have hd' : ∀ j, s.frameLen ≤ j → Memory.read (recordTurn s).d j = Memory.read s.d j := by
          intro j hj
          rw [ht]
          show Memory.read (Memory.writeAll _ _ _) j = _
          rw [Memory.read_writeAll, if_neg (by omega)]
        obtain ⟨sp', hdr', cnt', val', pos', d, h1, h2, h3, h4, h5, h6, h7⟩ := ih (recordTurn s) (out ++ payload i)
          (by rw [ht]; exact hr) (by rw [ht]; simp [hpos]) (by rw [hfl, ht]; show s.pos + _ ≤ _; omega)
          (by rw [ht]; show s.sp + _ ≤ s.input.length; omega) (by rw [hah]; omega)
          (by
            rw [hah, hfl, ← h, show (recordTurn s).sp = s.sp + (recordBytes i).length by rw [ht]]
            exact decFrom_turns _ _ _ (by omega) (by omega))
        rw [hfl] at h3
        rw [show (recordTurn s).sp = s.sp + (recordBytes i).length by rw [ht]] at h4
        rw [show (recordTurn s).input = s.input by rw [ht]] at h5 h6
        refine ⟨sp', hdr', cnt', val', pos', d, ?_, h2, h3, by omega, h5, h6, fun j hj => ?_⟩
        · rw [h1, ht]
        · rw [h7 j (by rw [hfl]; exact hj), hd' j hj]
      · rw [he] at h; cases h
        rw [recordTurn_overrun ha (by rw [hroom]; exact hc), decLoop_idle k (by simp)]
        have : 0 < s.ahead.length := by rw [ha]; simp
        exact ⟨s.sp + 1, x, countField x, s.val, s.pos, s.d, rfl, .inr rfl, by omega, by omega, by omega,
          (fun h => nomatch h), fun _ _ => rfl⟩
      · rw [he] at h; cases h
        obtain ⟨hdr, cnt, present, ht, hpr⟩ := recordTurn_truncated (s := s) (by rw [hroom]; exact ha)
        rw [ht, decLoop_idle k (by simp)]
        have hlt : s.pos + present.length < s.frameLen := by
          rcases hpr with rfl | hpr
          · simp; omega
          · have : s.room = s.frameLen - s.pos := rfl
            omega
        exact ⟨_, _, _, _, _, _, rfl, .inl rfl, hlt, by omega, by omega, fun _ => by omega, fun j hj => by
          rw [Memory.read_writeAll, if_neg (by omega)]⟩

/-! ### ENC -/

/-- The encoder loop from any cursor: the encoding of the bytes from there on is appended, and the command ends with CUR at N
(R100, R105, R106). -/
theorem encLoop_eq (k : Nat) (s : State) (hr : s.running = some .enc) (hc : s.cur ≤ s.frameLen) (hk : s.rem / 2 + 1 ≤ k) :
    ∃ len, encLoop k s = { s with
      running := none, cur := s.frameLen, len := len, out := s.out ++ rleEncode (s.lookAll s.rem) } := by
  induction k generalizing s with
  | zero => omega
  | succ k ih =>
    have hrem : s.rem = s.frameLen - s.cur := rfl
    have henc : ∀ S : List Byte, rleEncode S = streamOf (encRecords (S.length + 1) S) := fun _ => rfl
    have h0 : 3 ≤ s.rem → startsRun (s.lookAll s.rem) = (decide (s.look 0 = s.look 1) && decide (s.look 1 = s.look 2)) := by
      intro h3
      simp only [startsRun, lookAll_getD s (by omega : 0 < s.rem), lookAll_getD s (by omega : 1 < s.rem),
        lookAll_getD s (by omega : 2 < s.rem), Bool.beq_eq_decide_eq]
    rw [encLoop_succ k hr]
    rcases encTurn_cases s with ⟨h3, ht⟩ | ⟨h3, heq, h4, h5, h6, ht⟩ | ⟨h3, hne, h4, h5, h6, ht⟩
    · rw [ht, emitTail_eq, encLoop_idle k (by simp), henc]
      rcases encRecords_cases (s.lookAll s.rem).length (s.lookAll s.rem) with ⟨_, he⟩ | ⟨h1, _⟩ | ⟨h1, _⟩
      · rw [he]
        refine ⟨s.rem, ?_⟩
        rw [show s.cur + s.rem = s.frameLen by omega]
        simp [recordBytes]
      · simp at h1; omega
      · simp at h1; omega
    · obtain ⟨hL, _⟩ := runLen_eq_runLength h3 heq.1 heq.2
      have hg : (s.lookAll s.rem).getD 0 0#8 = s.look 0 := lookAll_getD s (by omega)
      rcases encRecords_cases (s.lookAll s.rem).length (s.lookAll s.rem) with ⟨h1, _⟩ | ⟨_, _, _, he⟩ | ⟨_, h1, _⟩
      · simp at h1; omega
      · rw [hg, ← hL] at he
        have hu : encTurn s = { s with
            len := s.runLen, cur := s.cur + s.runLen
            out := s.out ++ [runHeader (BitVec.ofNat 7 s.runLen), s.look 0] } := by rw [ht, emitRun_eq]
        have hrem' : (encTurn s).rem = s.rem - s.runLen := by rw [hu]; show s.frameLen - (s.cur + s.runLen) = _; omega
        have hlook : (encTurn s).lookAll (encTurn s).rem = (s.lookAll s.rem).drop s.runLen := by
          rw [hrem', lookAll_drop, hu]; rfl
        obtain ⟨len, hi⟩ := ih (encTurn s) (by rw [hu]; exact hr)
          (by rw [hu]; show s.cur + s.runLen ≤ s.frameLen; omega) (by rw [hrem']; omega)
        refine ⟨len, ?_⟩
        rw [hi, hlook, henc (s.lookAll s.rem), he, streamOf_cons, recordBytes_run,
          rleRecords_eq (by rw [List.length_drop]; simp; omega), hu]
        simp [rleEncode, State.frameLen]
      · rw [h0 h3, heq.1, heq.2] at h1; simp at h1
    · have hL := litLen_eq_litLength h3
      rcases encRecords_cases (s.lookAll s.rem).length (s.lookAll s.rem) with ⟨h1, _⟩ | ⟨_, h1, _⟩ | ⟨_, _, _, he⟩
      · simp at h1; omega
      · rw [h0 h3] at h1
        simp only [Bool.and_eq_true, decide_eq_true_eq] at h1
        exact absurd h1 hne
      · rw [← hL] at he
        have hu : encTurn s = { s with
            len := s.litLen, cur := s.cur + s.litLen
            out := s.out ++ (litHeader (litCount s.litLen) :: s.lookAll s.litLen) } := by rw [ht, emitLit, emitLiteralOf_eq]
        have hrem' : (encTurn s).rem = s.rem - s.litLen := by rw [hu]; show s.frameLen - (s.cur + s.litLen) = _; omega
        have hlook : (encTurn s).lookAll (encTurn s).rem = (s.lookAll s.rem).drop s.litLen := by
          rw [hrem', lookAll_drop, hu]; rfl
        obtain ⟨len, hi⟩ := ih (encTurn s) (by rw [hu]; exact hr)
          (by rw [hu]; show s.cur + s.litLen ≤ s.frameLen; omega) (by rw [hrem']; omega)
        refine ⟨len, ?_⟩
        rw [hi, hlook, henc (s.lookAll s.rem), he, streamOf_cons, recordBytes_lit,
          rleRecords_eq (by rw [List.length_drop]; simp; omega), hu, lookAll_take s h6]
        simp [rleEncode, State.frameLen]

end Sys2Proof.Machine
end

