-- ==== Sys2Proof/Laws/Invariant.lean ====
section
/-! SUPPORT. The invariant of Safety.lean across the shared operations, one lemma each. -/

namespace Sys2Proof.Machine

/-- Nothing runs in a state that has faulted, so a running unit has no fault (60_exceptions.md R156). -/
theorem fault_of_running {s : State} {g : Engine} (hi : s.StatusOk) (hr : s.running = some g) : s.fault = false := by
  cases h : s.fault
  · rfl
  · have := hi.2 h; rw [hr] at this; cases this

/-- A record step in the middle of a frame keeps the invariant (40_decoder.md R85). -/
theorem recordTurn_inv {s : State} (hi : s.Inv) (hr : s.running = some .dec) (hp : s.pos < s.frameLen)
    (hn : s.frameLen ≤ s.nmax) : (recordTurn s).Inv := by
  obtain ⟨⟨hd, hrest⟩, ⟨hs1, hs2⟩, ⟨hc1, hc2, hc3⟩, hw1, hw2⟩ := hi
  have hroom : s.room = s.frameLen - s.pos := rfl
  have hal : s.ahead.length = s.input.length - s.sp := by simp [State.ahead]
  rcases recordTurn_cases s with ⟨ha, h⟩ | ⟨x, rest, ha, hcc, h⟩ | ⟨c, ha, hcc, h⟩ | ⟨c, present, ha, hl, hcc, h⟩ |
    ⟨c, v, rest, ha, hcc, h⟩ | ⟨raw, rest, ha, hl, hcc, h⟩ <;> rw [h] <;> rw [ha] at hal <;> simp at hal
  · exact ⟨⟨hd, hrest⟩, ⟨by simp [takeFault], by simp [takeFault]⟩, ⟨hc1, hc2, hc3⟩, by simp [takeFault],
      by simp [takeFault]⟩
  · exact ⟨⟨hd, hrest⟩, ⟨by simp [takeFault], by simp [takeFault]⟩, ⟨by simp [takeFault, loadHeader, advance]; omega,
      hc2, hc3⟩, by simp [takeFault], by simp [takeFault]⟩
  · exact ⟨⟨hd, hrest⟩, ⟨by simp [takeFault], by simp [takeFault]⟩, ⟨by simp [takeFault, loadHeader, advance]; omega,
      hc2, hc3⟩, by simp [takeFault], by simp [takeFault]⟩
  · rw [copyRaw_eq]
    refine ⟨⟨⟨Memory.writeAll_wf _ _ hd.1, Memory.writeAll_below hd.2 ?_⟩, hrest⟩, ⟨by simp [takeFault],
        by simp [takeFault]⟩, ⟨?_, ?_, hc3⟩, by simp [takeFault], by simp [takeFault]⟩
    · show s.pos + present.length ≤ s.nmax; omega
    · show s.sp + 1 + present.length ≤ s.input.length; omega
    · show s.pos + present.length ≤ s.nmax; omega
  · rw [runRecord_eq hcc]
    refine ⟨⟨⟨Memory.writeAll_wf _ _ hd.1, Memory.writeAll_below hd.2 (by simp; omega)⟩, hrest⟩, ⟨hs1, hs2⟩, ⟨?_, ?_,
        hc3⟩, fun _ => ⟨hn, ?_⟩, fun h => by rw [hr] at h; cases h⟩
    · show s.sp + 2 ≤ s.input.length; omega
    · show s.pos + c.toNat ≤ s.nmax; omega
    · show s.pos + c.toNat ≤ s.frameLen; omega
  · rw [litRecord_eq hl hcc]
    refine ⟨⟨⟨Memory.writeAll_wf _ _ hd.1, Memory.writeAll_below hd.2 (by show s.pos + raw.length ≤ s.nmax; omega)⟩,
        hrest⟩, ⟨hs1, hs2⟩, ⟨?_, ?_, hc3⟩, fun _ => ⟨hn, ?_⟩, fun h => by rw [hr] at h; cases h⟩
    · show s.sp + 1 + raw.length ≤ s.input.length; omega
    · show s.pos + raw.length ≤ s.nmax; omega
    · show s.pos + raw.length ≤ s.frameLen; omega

/-- The commit keeps the invariant (42_delta.md R121). -/
theorem commitTurn_inv {s : State} (hi : s.Inv) (hn : s.frameLen ≤ s.nmax) : (commitTurn s).Inv := by
  obtain ⟨⟨hd, hf, hx, hp, he⟩, ⟨hs1, hs2⟩, ⟨hc1, hc2, hc3⟩, hw1, hw2⟩ := hi
  exact ⟨⟨hd, ⟨Memory.accumulate_wf _ hf.1, Memory.accumulate_below _ hf.2 hn⟩, hx, hp, he⟩, ⟨hs1, fun _ => rfl⟩, ⟨hc1,
      hc2, hc3⟩,
    by simp [commitTurn, finish], by simp [commitTurn, finish]⟩

/-- A turn of a running DEC keeps the invariant. -/
theorem decTurn_inv {s : State} (hi : s.Inv) (hr : s.running = some .dec) : (decTurn s).Inv := by
  have hn := (hi.2.2.2.1 hr).1
  unfold decTurn
  split
  · exact recordTurn_inv hi hr ‹_› hn
  · exact commitTurn_inv hi hn

/-- An iteration of a running ENC keeps the invariant (41_encoder.md R106). -/
theorem encTurn_inv {s : State} (hi : s.Inv) (hr : s.running = some .enc) : (encTurn s).Inv := by
  obtain ⟨hb, ⟨hs1, hs2⟩, ⟨hc1, hc2, hc3⟩, hw1, hw2⟩ := hi
  obtain ⟨hn, hc⟩ := hw2 hr
  have hrem : s.rem = s.frameLen - s.cur := rfl
  rcases encTurn_cases s with ⟨h3, ht⟩ | ⟨h3, heq, h4, h5, h6, ht⟩ | ⟨h3, hne, h4, h5, h6, ht⟩ <;> rw [ht]
  · rw [emitTail_eq]
    exact ⟨hb, ⟨hs1, fun _ => rfl⟩, ⟨hc1, hc2, by show s.rem ≤ 127; omega⟩, by simp, by simp⟩
  · rw [emitRun_eq]
    exact ⟨hb, ⟨hs1, hs2⟩, ⟨hc1, hc2, h5⟩, (fun h => by rw [hr] at h; cases h), fun _ => ⟨hn,
        by show s.cur + s.runLen ≤ s.frameLen; omega⟩⟩
  · rw [emitLit, emitLiteralOf_eq]
    exact ⟨hb, ⟨hs1, hs2⟩, ⟨hc1, hc2, h5⟩, (fun h => by rw [hr] at h; cases h), fun _ => ⟨hn,
        by show s.cur + s.litLen ≤ s.frameLen; omega⟩⟩

/-- A DEC_FRAME that passes its check begins in the invariant. -/
theorem beginDec_inv {s : State} (hi : s.Inv) (ha : s.accepts = true) (hn : s.frameLen ≤ s.nmax) : (beginDec s).Inv := by
  obtain ⟨hb, ⟨hs1, hs2⟩, ⟨hc1, hc2, hc3⟩, hw1, hw2⟩ := hi
  obtain ⟨hr, hf⟩ := accepts_iff.mp ha
  exact ⟨hb, ⟨hs1, fun h => by rw [show (beginDec s).fault = s.fault from rfl, hf] at h; cases h⟩, ⟨hc1, Nat.zero_le _,
      hc3⟩, fun _ => ⟨hn, Nat.zero_le _⟩, by simp [beginDec]⟩

/-- An ENC_FRAME that passes its check begins in the invariant. -/
theorem beginEnc_inv {s : State} (hi : s.Inv) (ha : s.accepts = true) (hn : s.frameLen ≤ s.nmax) : (beginEnc s).Inv := by
  obtain ⟨⟨hd, hff, hx, hp, he⟩, ⟨hs1, hs2⟩, ⟨hc1, hc2, hc3⟩, hw1, hw2⟩ := hi
  obtain ⟨hr, hf⟩ := accepts_iff.mp ha
  exact ⟨⟨hd, hff, hx, ⟨Memory.copyBelow_wf _ hp.1, Memory.copyBelow_below _ hp.2 hn⟩, ⟨Memory.difference_wf _ _ he.1,
      Memory.difference_below _ _ he.2 hn⟩⟩,
    ⟨hs1, fun h => by rw [show (beginEnc s).fault = s.fault from rfl, hf] at h; cases h⟩, ⟨hc1, hc2, hc3⟩,
        by simp [beginEnc], fun _ => ⟨hn, Nat.zero_le _⟩⟩

/-- Taking a fault keeps the invariant (60_exceptions.md R156). -/
theorem takeFault_inv {s : State} {c : Cause} (hi : s.Inv) (hc : c ≠ .none) : (takeFault c s).Inv := by
  obtain ⟨hb, _, h, _⟩ := hi
  exact ⟨hb, ⟨by simp [takeFault, hc], fun _ => rfl⟩, h, by simp [takeFault], by simp [takeFault]⟩

end Sys2Proof.Machine
end

