-- ==== Sys2Proof/Laws/PerInstr.lean ====
section
/-! SUPPORT. Statements made per instruction, one lemma for each constructor of Instr. -/

namespace Sys2Proof.Laws.EncodingSize

/-- What a well-formed instruction is encoded as (30_encoding.md R62, R63, R72): a record as 1 to 128 stream bytes, 2 for a
RUN and one more than its raw bytes for a LIT; a command as a CMD value below 4. -/
def Statement (i : Instr) : Prop :=
  i.wf = true →
    match encode i with
    | .stream bytes => i.isRecord = true ∧ 1 ≤ bytes.length ∧ bytes.length ≤ maxRecordBytes ∧ bytes = recordBytes i
    | .command w => i.isRecord = false ∧ w.toNat < 4 ∧ recordBytes i = []

theorem run (count : BitVec 7) (value : Byte) : Statement (.run count value) :=
  fun _ => ⟨rfl, Nat.le_add_left _ _, by simp [recordBytes, maxRecordBytes], rfl⟩

theorem lit (raw : List Byte) : Statement (.lit raw) := fun h => by
  have : raw.length ≤ 127 := by simpa [Instr.wf] using h
  exact ⟨rfl, Nat.le_add_left _ _, by simp [recordBytes, maxRecordBytes]; omega, rfl⟩

theorem nop : Statement .nop := fun _ => ⟨rfl, by decide, rfl⟩

theorem decFrame : Statement .decFrame := fun _ => ⟨rfl, by decide, rfl⟩

theorem encFrame : Statement .encFrame := fun _ => ⟨rfl, by decide, rfl⟩

theorem clear : Statement .clear := fun _ => ⟨rfl, by decide, rfl⟩

end Sys2Proof.Laws.EncodingSize
end

