-- ==== Sys2Proof/Tests/Slice0.lean ====
section
/-! SUPPORT. Tests: the check of well-formedness refuses, words written out from 30_encoding.md decode, one step of each
instruction against 95_test_vectors.md, and a witness for the hypotheses of every statement that has some. -/

namespace Sys2Proof.Tests

open Sys2Proof.Machine

/-! ### Small states -/

/-- The next state, where there is one. -/
def nextOf : Host.Outcome State Fault Refusal → Option State
  | .next t => some t
  | .fault _ => none
  | .refused _ => none

/-- An idle block with NMAX = 8 and N = 1 * h, the stream `input` and the host's actions `host`. -/
def idle (h : Word) (input : List Byte) (host : List HostAction) : State :=
  { State.reset with nmax := 8, cfgW := 1#32, cfgH := h, input := input, host := host }

/-- The same with a DEC_FRAME in progress at `pos`. -/
def decoding (h : Word) (input : List Byte) (sp pos : Nat) : State :=
  { idle h input [] with running := some .dec, sp := sp, pos := pos }

/-- The same with an ENC_FRAME in progress at `cur`, E holding `bytes`. -/
def encoding (h : Word) (bytes : List Byte) (cur : Nat) : State :=
  { idle h [] [] with running := some .enc, cur := cur, e := Memory.ofBytes bytes }

/-- An idle block at the record granularity. -/
def recordwise (h : Word) (host : List HostAction) : State := { idle h [] host with grain := .record }

/-- `s` with the host making no access in the next two steps. -/
def waiting (s : State) : State := { s with host := [.wait, .wait] }

/-- A block that has faulted. -/
def faulted (host : List HostAction) : State := { idle 3#32 [] host with fault := true, cause := .truncated }

/-- A block with N = h above NMAX = 8 whose frame command was turned away with BADCFG (95_test_vectors.md, P5). -/
def refusedConfig (h : Word) (host : List HostAction) : State := { idle h [] host with fault := true, cause := .badCfg }

/-- Any content for what a reset leaves unspecified. -/
def left : Leftover := { hdr := 0x83#8, cnt := 3#7, val := 0x55#8, cur := 2, len := 3, d := [0x01#8], x := [0x02#8], e := [] }

/-! ### Well-formedness -/

/-- A literal of 128 bytes is refused by the check, one of 127 is not (30_encoding.md R63). -/
theorem test_wf_refuses_long_literal :
    (Instr.lit (List.replicate 128 0x00#8)).wf = false ∧ (Instr.lit (List.replicate 127 0x00#8)).wf = true := by simp [Instr.wf]

/-- Its meaning refuses it too. -/
theorem test_long_literal_refused :
    exec (.lit (List.replicate 128 0x00#8)) (decoding 8#32 [] 0 0) = .refused .illFormed := by simp [exec, execLit, Instr.wf]

/-! ### Decoding, words from 30_encoding.md and 95_test_vectors.md 2.1 -/

theorem test_decode_run : decodeRecord [0b00000011#8, 0x07#8] = .ok (.run 3#7 0x07#8, []) := by decide

theorem test_decode_lit :
    decodeRecord [0b10000011#8, 0x01#8, 0x02#8, 0x03#8, 0x80#8] = .ok (.lit [0x01#8, 0x02#8, 0x03#8], [0x80#8]) := by decide

theorem test_decode_tail0 : decodeRecord [0b10000000#8] = .ok (.lit [], []) := by decide

theorem test_decode_nop : decodeCommand 0b00000000000000000000000000000000#32 = .ok .nop := by decide

theorem test_decode_decFrame : decodeCommand 0b00000000000000000000000000000001#32 = .ok .decFrame := by decide

theorem test_decode_encFrame : decodeCommand 0b00000000000000000000000000000010#32 = .ok .encFrame := by decide

theorem test_decode_clear : decodeCommand 0b00000000000000000000000000000011#32 = .ok .clear := by decide

/-- All 32 bits are compared. -/
theorem test_decode_badCommand : decodeCommand 0x80000001#32 = .error (.badCommand 0x80000001#32) := by decide

/-- The table of 95_test_vectors.md 2.1: kind and count of a header. -/
theorem test_header_table :
    [0x00#8, 0x01#8, 0x03#8, 0x7E#8, 0x7F#8, 0x80#8, 0x81#8, 0x82#8, 0x83#8, 0xFE#8, 0xFF#8].map
        (fun h => (kindBit h, (countField h).toNat))
      = [(false, 0), (false, 1), (false, 3), (false, 126), (false, 127), (true, 0), (true, 1), (true, 2), (true, 3),
        (true, 126), (true, 127)] := by decide

/-- The three ways a stream can end inside a record. -/
theorem test_decode_rejects :
    decodeRecord [] = .error .noHeader ∧ decodeRecord [0x03#8] = .error (.noValue 3#7)
    ∧ decodeRecord [0x83#8, 0x01#8, 0x02#8] = .error (.shortRaw 3#7 [0x01#8, 0x02#8]) := by decide

theorem test_table_words :
    decodeTableWord 8 0x03 = some (.run 3#7 0x00#8) ∧ decodeTableWord 8 0x82 = some (.lit [0x00#8, 0x00#8])
    ∧ decodeTableWord 32 2 = some .encFrame ∧ decodeTableWord 32 4 = none := by decide

/-! ### One step of each instruction, 95_test_vectors.md 2.2 to 2.10 and section 3 -/

/-- 2.2: `03 07` with N = 3. -/
theorem test_run :
    (nextOf (step (decoding 3#32 [0x03#8, 0x07#8] 0 0))).map (fun t => (Memory.slice t.d 0 3, t.sp, t.pos))
      = some ([0x07#8, 0x07#8, 0x07#8], 2, 3) := by decide

/-- 2.3: `04 00` with N = 3 is OVERRUN, the value byte not read. -/
theorem test_run_overrun :
    (nextOf (step (decoding 3#32 [0x04#8, 0x00#8] 0 0))).map (fun t => (t.statusWord, t.sp, t.pos, t.d))
      = some (0x22#32, 1, 0, []) := by decide

/-- 2.2: `82 01 02 03 09`, its first record, with N = 5. -/
theorem test_lit :
    (nextOf (step (decoding 5#32 [0x82#8, 0x01#8, 0x02#8, 0x03#8, 0x09#8] 0 0))).map
        (fun t => (Memory.slice t.d 0 5, t.sp, t.pos))
      = some ([0x01#8, 0x02#8, 0x00#8, 0x00#8, 0x00#8], 3, 2) := by decide

/-- 2.3: `83 01 02` with N = 3 is TRUNCATED after two bytes. -/
theorem test_lit_truncated :
    (nextOf (step (decoding 3#32 [0x83#8, 0x01#8, 0x02#8] 0 0))).map (fun t => (t.statusWord, t.sp, t.pos, Memory.slice t.d 0 3))
      = some (0x12#32, 3, 2, [0x01#8, 0x02#8, 0x00#8]) := by decide

/-- 2.10: NOP leaves the state as it is. -/
theorem test_nop : nextOf (exec .nop (idle 2#32 [] [])) = some (idle 2#32 [] []) := by decide

/-- P4a of section 3, step 1 and then the truncated frame of step 2. -/
theorem test_decFrame :
    (nextOf (exec .decFrame (idle 2#32 [0x82#8, 0xFF#8, 0x00#8, 0x82#8, 0x00#8] []))).map
        (fun t => (Memory.slice t.f 0 2, t.sp, t.pos, t.statusWord))
      = some ([0xFF#8, 0x00#8], 3, 2, 0x00#32) := by decide

theorem test_decFrame_truncated :
    (nextOf (exec .decFrame { idle 2#32 [0x82#8, 0xFF#8, 0x00#8, 0x82#8, 0x00#8] [] with sp := 3, f := [(0, 0xFF#8)] })).map
        (fun t => (Memory.slice t.f 0 2, t.sp, t.pos, t.statusWord))
      = some ([0xFF#8, 0x00#8], 5, 1, 0x12#32) := by decide

/-- P2 of section 3, step 4 of the encode side. -/
theorem test_encFrame :
    (nextOf (exec .encFrame { idle 4#32 [] [] with
        x := Memory.ofBytes [0x0F#8, 0xF0#8, 0x11#8, 0x3C#8], p := Memory.ofBytes [0x11#8, 0x11#8, 0x11#8, 0x3C#8] })).map
        (fun t => (t.out, Memory.slice t.p 0 4, t.cur))
      = some ([0x82#8, 0x1E#8, 0xE1#8, 0x82#8, 0x00#8, 0x00#8], [0x0F#8, 0xF0#8, 0x11#8, 0x3C#8], 4) := by decide

/-- 2.10: ENC_FRAME with N = 0. -/
theorem test_encFrame_empty :
    (nextOf (exec .encFrame (idle 0#32 [] []))).map (fun t => (t.out, t.statusWord)) = some ([0x80#8], 0x00#32) := by decide

/-- 2.10: CLEAR. -/
theorem test_clear :
    (nextOf (exec .clear { idle 2#32 [] [] with
        f := Memory.ofBytes [0xFF#8, 0xFF#8], p := Memory.ofBytes [0xFF#8, 0xFF#8], sp := 9, pos := 2 })).map
        (fun t => (t.f, t.p, t.pos, t.sp))
      = some ([], [], 0, 9) := by decide

/-- 2.10: CMD = 7. -/
theorem test_badCommand :
    (nextOf (step (idle 2#32 [] [.writeReg 2 7#32]))).map (fun t => t.statusWord) = some 0x42#32 := by decide

/-- 2.10: the product 2^32 is not cut down to 0. -/
theorem test_badConfiguration :
    (nextOf (exec .decFrame { idle 65536#32 [0x04#8] [] with cfgW := 65536#32 })).map (fun t => (t.statusWord, t.sp))
      = some (0x32#32, 0) := by decide

/-- 2.10: a faulted block ignores CMD = 3, and reset brings it back. -/
theorem test_faulted :
    nextOf (step (faulted [.writeReg 2 3#32])) = some (faulted [])
    ∧ (nextOf (step (faulted [.reset [0x80#8] left]))).map (fun t => (t.statusWord, t.input, t.cfgH))
      = some (0x00#32, [0x80#8], 0#32) := by decide

/-- 2.6: `01 02 02 02` and `01 02 03 04 04 04`. -/
theorem test_rleEncode :
    rleEncode [0x01#8, 0x02#8, 0x02#8, 0x02#8] = [0x82#8, 0x01#8, 0x02#8, 0x82#8, 0x02#8, 0x02#8]
    ∧ rleEncode [0x01#8, 0x02#8, 0x03#8, 0x04#8, 0x04#8, 0x04#8]
      = [0x83#8, 0x01#8, 0x02#8, 0x03#8, 0x03#8, 0x04#8, 0x80#8] := by decide

/-- The next step after `withFetchWord` runs the row's instruction. -/
theorem test_withFetchWord :
    (nextOf (step (State.reset.withFetchWord 8 0x03))).map (fun t => (t.pos, t.cnt)) = some (3, 3#7)
    ∧ (nextOf (step (State.reset.withFetchWord 8 0x82))).map (fun t => (t.pos, t.hdr)) = some (2, 0x82#8)
    ∧ (nextOf (step (State.reset.withFetchWord 32 3))).map (fun t => (t.pos, t.host)) = some (0, []) := by decide

/-! ### Witnesses: for each statement with hypotheses, and for each of its clauses, a state and operands that meet them -/

theorem witness_ResetGivesTheStatedValues :
    (faulted [.reset [0x80#8] left, .wait]).host = .reset [0x80#8] left :: [.wait] := rfl

theorem witness_StepKeepsTheInvariant :
    (decoding 3#32 [0x03#8, 0x07#8] 0 0).Inv ∧ ∃ t, step (decoding 3#32 [0x03#8, 0x07#8] 0 0) = .next t := ⟨by decide, _, rfl⟩

theorem witness_StepAlwaysAnswersANextState : (encoding 3#32 [0x07#8, 0x07#8, 0x07#8] 3).Inv := by decide

theorem witness_DecodeOfEncodeIsTheInstruction :
    (Instr.lit (List.replicate 127 0xFF#8)).wf = true
    ∧ encode (.lit (List.replicate 127 0xFF#8)) = .stream (recordBytes (.lit (List.replicate 127 0xFF#8)))
    ∧ (Instr.run 127#7 0xFF#8).wf = true ∧ encode (.run 127#7 0xFF#8) = .stream [0x7F#8, 0xFF#8]
    ∧ Instr.clear.wf = true := by simp [Instr.wf, encode, recordBytes, runHeader]

theorem witness_EncodeOfDecodeIsTheCode :
    decodeRecord [0x00#8, 0x55#8, 0x81#8] = .ok (.run 0#7 0x55#8, [0x81#8])
    ∧ decodeRecord [0x81#8, 0x01#8] = .ok (.lit [0x01#8], []) ∧ decodeCommand 0x00000002#32 = .ok .encFrame := by decide

theorem witness_EveryHeaderSelectsARecord :
    127 ≤ (List.replicate 127 0x55#8).length ∧ (0x7F#8).toNat < 128 ∧ 128 ≤ (0x80#8).toNat ∧ 128 ≤ (0xFF#8).toNat := by simp

theorem witness_HeaderGivesTheRecordLength :
    decodeRecord (0x82#8 :: [0x01#8, 0x02#8, 0x03#8]) = .ok (.lit [0x01#8, 0x02#8], [0x03#8])
    ∧ decodeRecord (0x00#8 :: [0x55#8]) = .ok (.run 0#7 0x55#8, []) := by decide

theorem witness_CommandCodesAreTheTables :
    4 ≤ (4#32).toNat ∧ 4 ≤ (0xFFFFFFFF#32).toNat ∧ (idle 2#32 [] [.writeReg 2 4#32]).host = .writeReg 2 4#32 :: []
    ∧ (idle 2#32 [] [.writeReg 2 4#32]).accepts = true := by decide

theorem witness_StepRunsTheDecodedCommand :
    (idle 2#32 [0x82#8, 0xFF#8, 0x00#8] [.writeReg 2 1#32, .wait]).host = .writeReg 2 1#32 :: [.wait]
    ∧ (idle 2#32 [0x82#8, 0xFF#8, 0x00#8] [.writeReg 2 1#32, .wait]).grain = .command
    ∧ decodeCommand 1#32 = .ok .decFrame := by decide

theorem witness_StepRunsTheDecodedRecord :
    (decoding 3#32 [0x02#8, 0x07#8] 0 1).running = some .dec ∧ (1 : Nat) < (decoding 3#32 [0x02#8, 0x07#8] 0 1).frameLen
    ∧ decodeRecord ((decoding 3#32 [0x02#8, 0x07#8] 0 1).input.drop 0) = .ok (.run 2#7 0x07#8, [])
    ∧ (decoding 3#32 [0x02#8, 0x07#8] 0 1).host = []
    ∧ ({ decoding 3#32 [0x02#8, 0x07#8] 0 1 with host := [.wait] } : State).host = .wait :: [] := by decide

/-- Count and room equal, and a stream that ends before the value byte. -/
theorem witness_RunProducesItsCount :
    (decoding 3#32 [0x03#8] 0 0).recordEnabled = true ∧ (decoding 3#32 [0x03#8] 0 0).frameLen ≤ 8
    ∧ (3#7).toNat ≤ (decoding 3#32 [0x03#8] 0 0).frameLen - 0 ∧ (decoding 3#32 [0x03#8] 0 0).host = []
    ∧ (decoding 3#32 [0x03#8] 0 0).input.drop 0 = [0x00#8 ||| (3#7).setWidth 8] := by decide

theorem witness_LitCopiesItsBytes :
    (decoding 3#32 [0x83#8, 0x01#8] 0 0).recordEnabled = true ∧ (decoding 3#32 [0x83#8, 0x01#8] 0 0).frameLen ≤ 8
    ∧ (Instr.lit [0x01#8, 0x02#8, 0x03#8]).wf = true ∧ 3 ≤ (decoding 3#32 [0x83#8, 0x01#8] 0 0).frameLen - 0
    ∧ (3#7).toNat ≤ (decoding 3#32 [0x83#8, 0x01#8] 0 0).frameLen - 0 ∧ [0x01#8].length < (3#7).toNat
    ∧ (decoding 3#32 [0x83#8, 0x01#8] 0 0).host = []
    ∧ (decoding 3#32 [0x83#8, 0x01#8] 0 0).input.drop 0 = (0x80#8 ||| (3#7).setWidth 8) :: [0x01#8] := by decide

theorem witness_RecordStepFollowsThePseudocode :
    (decoding 3#32 [0x81#8, 0x01#8] 0 2).recordEnabled = true ∧ (decoding 3#32 [0x81#8, 0x01#8] 0 2).frameLen ≤ 8
    ∧ (decoding 3#32 [0x81#8, 0x01#8] 0 2).host = [] := by decide

/-- The stream ends at the header, before a value byte, and one raw byte short; and at a frame boundary, where the block is
about to commit, idles, or is given a further DEC_FRAME. -/
theorem witness_TruncatedAtEachPoint :
    ((decoding 3#32 [0x80#8] 1 0).recordEnabled = true ∧ (decoding 3#32 [0x80#8] 1 0).frameLen ≤ 8
      ∧ (decoding 3#32 [0x80#8] 1 0).host = [] ∧ 1 ≤ (decoding 3#32 [0x80#8] 1 0).input.length
      ∧ (decoding 3#32 [0x80#8] 1 0).input.drop 1 = [])
    ∧ ((decoding 3#32 [0x00#8] 0 2).recordEnabled = true ∧ (0#7).toNat ≤ (decoding 3#32 [0x00#8] 0 2).frameLen - 2
      ∧ (decoding 3#32 [0x00#8] 0 2).input.drop 0 = [0x00#8 ||| (0#7).setWidth 8])
    ∧ ((decoding 3#32 [0x83#8, 0x01#8, 0x02#8] 0 0).recordEnabled = true
      ∧ (3#7).toNat ≤ (decoding 3#32 [0x83#8, 0x01#8, 0x02#8] 0 0).frameLen - 0 ∧ [0x01#8, 0x02#8].length < (3#7).toNat
      ∧ (decoding 3#32 [0x83#8, 0x01#8, 0x02#8] 0 0).input.drop 0
        = (0x80#8 ||| (3#7).setWidth 8) :: [0x01#8, 0x02#8])
    ∧ ((decoding 3#32 [0x80#8] 1 3).input.drop 1 = [] ∧ (decoding 3#32 [0x80#8] 1 3).running = some .dec
      ∧ (decoding 3#32 [0x80#8] 1 3).fault = false ∧ (3 : Nat) = (decoding 3#32 [0x80#8] 1 3).frameLen)
    ∧ ((idle 3#32 [] []).input.drop 0 = [] ∧ (idle 3#32 [] []).accepts = true ∧ 0 < (idle 3#32 [] []).frameLen
      ∧ (idle 3#32 [] []).frameLen ≤ 8 ∧ (idle 3#32 [] []).host = []) := by decide

/-- A count one above the room, with and without bytes after the header. -/
theorem witness_OverrunDirectlyAfterTheHeader :
    (decoding 3#32 [0x84#8] 0 0).recordEnabled = true ∧ (decoding 3#32 [0x84#8] 0 0).frameLen ≤ 8
    ∧ (decoding 3#32 [0x84#8] 0 0).host = [] ∧ (decoding 3#32 [0x84#8] 0 0).input.drop 0 = 0x84#8 :: []
    ∧ (decoding 3#32 [0x84#8] 0 0).frameLen - 0 < (0x84#8 &&& 0x7F#8).toNat
    ∧ (decoding 3#32 [0x84#8] 0 0).frameLen - 0 < (4#7).toNat
    ∧ (Instr.lit [0x01#8, 0x02#8, 0x03#8, 0x04#8]).wf = true
    ∧ (decoding 3#32 [0x84#8] 0 0).frameLen - 0 < [0x01#8, 0x02#8, 0x03#8, 0x04#8].length := by decide

theorem witness_RecordsStopOnlyUnderAName :
    ((idle 3#32 [] []).recordEnabled = false ∧ (decoding 3#32 [] 0 3).recordEnabled = false
      ∧ (Instr.lit [0x01#8]).wf = true)
    ∧ (Instr.lit (List.replicate 128 0x00#8)).wf = false
    ∧ (decoding 9#32 [] 0 0).recordEnabled = true ∧ (decoding 9#32 [] 0 0).nmax < (decoding 9#32 [] 0 0).frameLen :=
  ⟨by decide, by simp [Instr.wf], by decide, by decide⟩

theorem witness_NopChangesNothing :
    (faulted [.writeReg 2 0x00000000#32]).host = .writeReg 2 0x00000000#32 :: [] := rfl

theorem witness_ClearRestartsBothUnits :
    (idle 8#32 [] []).accepts = true ∧ (faulted []).accepts = false ∧ (encoding 3#32 [] 0).accepts = false := by decide

theorem witness_DecFrameDecodesAndAccumulates :
    (idle 2#32 [0x80#8, 0x02#8, 0x09#8] []).accepts = true ∧ (idle 2#32 [0x80#8, 0x02#8, 0x09#8] []).frameLen ≤ 8
    ∧ rleDecode [0x80#8, 0x02#8, 0x09#8] 0 (idle 2#32 [0x80#8, 0x02#8, 0x09#8] []).frameLen
      = .ok ([0x09#8, 0x09#8], 3) := by decide

theorem witness_DecFrameFaultLeavesTheFrame :
    ((idle 2#32 [0x82#8, 0x00#8] []).accepts = true ∧ (idle 2#32 [0x82#8, 0x00#8] []).frameLen ≤ 8
      ∧ (0 : Nat) ≤ (idle 2#32 [0x82#8, 0x00#8] []).input.length
      ∧ rleDecode [0x82#8, 0x00#8] 0 (idle 2#32 [0x82#8, 0x00#8] []).frameLen = .error .truncated)
    ∧ rleDecode [0x03#8, 0x00#8] 0 (idle 2#32 [0x03#8, 0x00#8] []).frameLen = .error .overrun := by decide

theorem witness_EncFrameAppendsTheEncoding :
    (idle 8#32 [] []).accepts = true ∧ (idle 8#32 [] []).frameLen ≤ (idle 8#32 [] []).nmax
    ∧ (idle 9#32 [] []).accepts = true ∧ (idle 9#32 [] []).nmax < (idle 9#32 [] []).frameLen := by decide

theorem witness_BadConfigurationBeforeAnythingElse :
    ({ idle 65536#32 [] [] with cfgW := 65536#32 } : State).accepts = true
    ∧ ({ idle 65536#32 [] [] with cfgW := 65536#32 } : State).nmax < (65536#32).toNat * (65536#32).toNat := by decide

theorem witness_BadCommandOnlyWhereCommandsAreAccepted :
    (idle 2#32 [] [.writeReg 2 4#32]).host = .writeReg 2 4#32 :: [] ∧ 4 ≤ (4#32).toNat
    ∧ (idle 2#32 [] [.writeReg 2 4#32]).accepts = true ∧ (faulted [.writeReg 2 4#32]).accepts = false := by decide

theorem witness_EmptyFrames : (idle 0#32 [0x05#8] []).accepts = true ∧ (idle 0#32 [0x05#8] []).frameLen = 0 := by decide

theorem witness_FaultedStateIgnoresWrites :
    ((faulted [.writeReg 0 1#32]).fault = true ∧ (faulted [.writeReg 0 1#32]).host = .writeReg 0 1#32 :: []
      ∧ (faulted [.writeX 2 0x01#8]).host = .writeX 2 0x01#8 :: [] ∧ (faulted [.readReg 3]).host = .readReg 3 :: [])
    ∧ ((faulted [.readF 2]).host = .readF 2 :: [] ∧ (faulted [.readF 3]).host = .readF 3 :: []
      ∧ (faulted [.readF 2]).busy = false ∧ 2 < (faulted [.readF 2]).frameLen ∧ (faulted [.readF 2]).frameLen ≤ 3
      ∧ (2 < (faulted [.readF 2]).nmax ∨ (faulted [.readF 2]).frameLen ≤ 2))
    ∧ ((refusedConfig 9#32 [.readF 7]).fault = true ∧ (refusedConfig 9#32 [.readF 7]).busy = false
      ∧ (refusedConfig 9#32 [.readF 7]).host = .readF 7 :: [] ∧ 7 < (refusedConfig 9#32 [.readF 7]).nmax
      ∧ (refusedConfig 9#32 [.readF 9]).host = .readF 9 :: [] ∧ (refusedConfig 9#32 [.readF 9]).frameLen ≤ 9)
    ∧ nextOf (step (faulted [.writeReg 2 0#32])) = some (faulted [])
    ∧ ∀ input left later, (faulted [.writeReg 2 0#32]).host ≠ .reset input left :: later := by
  refine ⟨?_, ?_, ?_, rfl, fun _ _ _ h => nomatch h⟩ <;> decide

theorem witness_BusyBlockIgnoresWrites :
    (decoding 3#32 [] 0 0).busy = true
    ∧ ({ decoding 3#32 [] 0 0 with host := [.writeReg 2 1#32] } : State).host = .writeReg 2 1#32 :: []
    ∧ ({ decoding 3#32 [] 0 0 with host := [.writeX 0 1#8] } : State).host = .writeX 0 1#8 :: []
    ∧ ({ decoding 3#32 [] 0 0 with host := [.readReg 3] } : State).host = .readReg 3 :: []
    ∧ ({ decoding 3#32 [] 0 0 with host := [.readF 0] } : State).host = .readF 0 :: [] := by decide

/-- Both ports at the last index below N and at N, a register number that selects nothing, and the same with N above NMAX: the
last index below NMAX, and N. -/
theorem witness_RegisterMapAndPorts :
    (faulted [.readReg 3]).host = .readReg 3 :: [] ∧ (faulted [.readReg 3]).readReg 3 = 0x12#32
    ∧ (idle 3#32 [] [.writeReg 1 8#32]).accepts = true ∧ 3 < (idle 3#32 [] [.readF 3]).nmax
    ∧ (idle 9#32 [] [.readF 7]).accepts = true ∧ (idle 9#32 [] [.readF 7]).nmax < (idle 9#32 [] [.readF 7]).frameLen
    ∧ (idle 9#32 [] [.readF 7]).host = .readF 7 :: [] ∧ 7 < (idle 9#32 [] [.readF 7]).nmax
    ∧ (idle 9#32 [] [.writeX 7 0x01#8]).host = .writeX 7 0x01#8 :: [] ∧ 7 < (idle 9#32 [] [.writeX 7 0x01#8]).frameLen
    ∧ (idle 9#32 [] [.readF 9]).frameLen ≤ 9 ∧ (idle 9#32 [] [.writeReg 0 1#32]).host = .writeReg 0 1#32 :: []
    ∧ (idle 3#32 [] [.readReg 6]).host = .readReg 6 :: [] ∧ (idle 3#32 [] [.writeReg 0 8#32]).host = .writeReg 0 8#32 :: []
    ∧ (idle 3#32 [] [.writeReg 1 8#32]).host = .writeReg 1 8#32 :: []
    ∧ (idle 3#32 [] [.writeReg 3 8#32]).host = .writeReg 3 8#32 :: [] ∧ (idle 3#32 [] [.readF 3]).host = .readF 3 :: []
    ∧ (idle 3#32 [] [.writeX 2 0x01#8]).host = .writeX 2 0x01#8 :: [] ∧ 2 < (idle 3#32 [] [.writeX 2 0x01#8]).frameLen
    ∧ 2 < (idle 3#32 [] [.writeX 2 0x01#8]).nmax ∧ (idle 3#32 [] [.writeX 3 0x01#8]).frameLen ≤ 3 := by decide

theorem witness_IdleBlockWaits :
    (faulted []).running = none ∧ (faulted []).host = [] ∧ (faulted [.wait]).running = none
    ∧ (faulted [.wait]).host = .wait :: [] := by decide

theorem witness_OnlyResetLeavesTheFaultedState :
    ((faulted [.writeReg 2 3#32]).StatusOk ∧ (faulted [.writeReg 2 3#32]).fault = true
      ∧ (∃ t, step (faulted [.writeReg 2 3#32]) = .next t)
      ∧ ∀ input left rest, (faulted [.writeReg 2 3#32]).host ≠ .reset input left :: rest)
    ∧ (∃ t, step (faulted [.reset [] left]) = .next t)
    ∧ ∃ input left rest, (faulted [.reset [] left]).host = .reset input left :: rest :=
  ⟨⟨by decide, by decide, ⟨_, rfl⟩, by simp [faulted, idle]⟩, ⟨_, rfl⟩, [], left, [], rfl⟩

theorem witness_FaultingStepLeavesTheFrame :
    ∃ t, step (decoding 3#32 [0x04#8] 0 0) = .next t ∧ (decoding 3#32 [0x04#8] 0 0).fault = false ∧ t.fault = true :=
  ⟨_, rfl, by decide, by decide⟩

theorem witness_StreamsOnlyMoveForward :
    (∃ t, step (encoding 3#32 [0x07#8, 0x07#8, 0x07#8] 0) = .next t)
    ∧ ∀ input left rest, (encoding 3#32 [0x07#8, 0x07#8, 0x07#8] 0).host ≠ .reset input left :: rest :=
  ⟨⟨_, rfl⟩, by simp [encoding, idle]⟩

/-- A commit that changes F, a DEC_FRAME that does, and an ENC_FRAME that changes P. -/
theorem witness_FramesChangeOnlyByTheirEvents :
    ({ decoding 1#32 [] 0 1 with d := [(0, 0xFF#8)] } : State).Inv
    ∧ (∃ t, step { decoding 1#32 [] 0 1 with d := [(0, 0xFF#8)] } = .next t ∧ t.f ≠ [])
    ∧ (∃ t, step (idle 1#32 [0x01#8, 0xFF#8] [.writeReg 2 1#32]) = .next t ∧ t.f ≠ [])
    ∧ (∃ t, step { idle 1#32 [] [.writeReg 2 2#32] with x := [(0, 0xFF#8)] } = .next t ∧ t.p ≠ [])
    ∧ (∀ input left rest, (idle 1#32 [] [.writeReg 2 2#32]).host ≠ .reset input left :: rest)
    ∧ ∀ rest, (idle 1#32 [] [.writeReg 2 2#32]).host ≠ .writeReg 2 0x00000003#32 :: rest :=
  ⟨by decide, ⟨_, rfl, by decide⟩, ⟨_, rfl, by decide⟩, ⟨_, rfl, by decide⟩, by simp [idle], by simp [idle]⟩

theorem witness_ConfigurationChangesOnlyByTheHost :
    (∃ t, step (idle 1#32 [] [.writeReg 0 5#32]) = .next t ∧ t.cfgW ≠ (idle 1#32 [] [.writeReg 0 5#32]).cfgW)
    ∧ (∃ t, step (idle 1#32 [] [.writeReg 1 5#32]) = .next t ∧ t.cfgH ≠ (idle 1#32 [] [.writeReg 1 5#32]).cfgH)
    ∧ ∀ input left rest, (idle 1#32 [] [.writeReg 1 5#32]).host ≠ .reset input left :: rest :=
  ⟨⟨_, rfl, by decide⟩, ⟨_, rfl, by decide⟩, by simp [idle]⟩

theorem witness_UnitsShareOnlyTheConfiguration :
    (∃ t, exec .decFrame (idle 2#32 [0x02#8, 0x09#8] []) = .next t)
    ∧ ∃ t, exec .encFrame (idle 2#32 [] []) = .next t := ⟨⟨_, rfl⟩, _, rfl⟩

theorem witness_OnlyTheProductMatters :
    (2#32).toNat * (3#32).toNat = (idle 6#32 [0x06#8, 0x09#8] []).frameLen
    ∧ ∃ t, exec .decFrame (idle 6#32 [0x06#8, 0x09#8] []) = .next t := ⟨by decide, _, rfl⟩

theorem witness_RecordGranularityReachesTheSameState :
    ({ idle 3#32 [0x02#8, 0x11#8, 0x81#8, 0x22#8] [.writeReg 2 1#32] with grain := .record } : State).grain = .record
    ∧ (idle 3#32 [0x02#8, 0x11#8, 0x81#8, 0x22#8] [.writeReg 2 1#32]).host = [.writeReg 2 1#32]
    ∧ decodeCommand 1#32 = .ok .decFrame := by decide

theorem witness_DecodedSoFarIsInStaging :
    (idle 3#32 [0x02#8, 0x11#8, 0x81#8, 0x22#8] []).accepts = true
    ∧ (0 : Nat) ≤ (idle 3#32 [0x02#8, 0x11#8, 0x81#8, 0x22#8] []).input.length
    ∧ (decLoop 1 (beginDec (idle 3#32 [0x02#8, 0x11#8, 0x81#8, 0x22#8] []))).running = some .dec := by decide

/-- Two bytes left, and none. -/
theorem witness_TailEndsTheEncoding :
    (encoding 3#32 [0x01#8, 0x07#8, 0x07#8] 1).running = some .enc ∧ (encoding 3#32 [0x01#8, 0x07#8, 0x07#8] 1).host = []
    ∧ (encoding 3#32 [0x01#8, 0x07#8, 0x07#8] 1).frameLen ≤ 8 ∧ 1 ≤ (encoding 3#32 [0x01#8, 0x07#8, 0x07#8] 1).frameLen
    ∧ (encoding 3#32 [0x01#8, 0x07#8, 0x07#8] 1).frameLen - 1 < 3 ∧ 3 ≤ (encoding 3#32 [] 3).frameLen
    ∧ (encoding 3#32 [] 3).frameLen - 3 < 3 := by decide

theorem witness_RunTakesTheEqualBytes :
    (encoding 3#32 [0x07#8, 0x07#8, 0x07#8] 0).running = some .enc ∧ (encoding 3#32 [0x07#8, 0x07#8, 0x07#8] 0).host = []
    ∧ (encoding 3#32 [0x07#8, 0x07#8, 0x07#8] 0).frameLen ≤ 8 ∧ 0 + 3 ≤ (encoding 3#32 [0x07#8, 0x07#8, 0x07#8] 0).frameLen
    ∧ Memory.read (encoding 3#32 [0x07#8, 0x07#8, 0x07#8] 0).e 0 = Memory.read (encoding 3#32 [0x07#8, 0x07#8, 0x07#8] 0).e 1
    ∧ Memory.read (encoding 3#32 [0x07#8, 0x07#8, 0x07#8] 0).e 1
      = Memory.read (encoding 3#32 [0x07#8, 0x07#8, 0x07#8] 0).e 2 := by decide

/-- `01 02 02 02` of 95_test_vectors.md 2.6: the first byte differs, the fourth repeats the third. -/
theorem witness_LiteralStopsBeforeARepeat :
    (encoding 4#32 [0x01#8, 0x02#8, 0x02#8, 0x02#8] 0).running = some .enc
    ∧ (encoding 4#32 [0x01#8, 0x02#8, 0x02#8, 0x02#8] 0).host = []
    ∧ (encoding 4#32 [0x01#8, 0x02#8, 0x02#8, 0x02#8] 0).frameLen ≤ 8
    ∧ 0 + 3 ≤ (encoding 4#32 [0x01#8, 0x02#8, 0x02#8, 0x02#8] 0).frameLen
    ∧ Memory.read (encoding 4#32 [0x01#8, 0x02#8, 0x02#8, 0x02#8] 0).e 0
      ≠ Memory.read (encoding 4#32 [0x01#8, 0x02#8, 0x02#8, 0x02#8] 0).e 1 := by decide

theorem witness_CommitAccumulatesTheDelta :
    (decoding 3#32 [] 0 3).running = some .dec ∧ (decoding 3#32 [] 0 3).host = [] ∧ (decoding 3#32 [] 0 3).frameLen ≤ 8
    ∧ (3 : Nat) = (decoding 3#32 [] 0 3).frameLen := by decide

theorem witness_AccumulateTwiceRestores :
    ({ idle 2#32 [] [] with f := [(0, 0x12#8), (1, 0x34#8)] } : State).f.wf := by decide

/-- A zero-count record before the data, and one after it that is left unread; and a frame of no bytes. -/
theorem witness_EveryWellFormedFrameIsAccepted :
    (∀ i ∈ [Instr.run 0#7 0x55#8, .lit [0x01#8], .lit []], i.isRecord = true ∧ i.wf = true)
    ∧ (payloadOf ([Instr.run 0#7 0x55#8, .lit [0x01#8], .lit []].take 2)).length
      = (payloadOf [Instr.run 0#7 0x55#8, .lit [0x01#8], .lit []]).length
    ∧ (∀ k, k < 2 → (payloadOf ([Instr.run 0#7 0x55#8, .lit [0x01#8], .lit []].take k)).length
      < (payloadOf [Instr.run 0#7 0x55#8, .lit [0x01#8], .lit []]).length)
    ∧ (payloadOf ([Instr.lit []].take 0)).length = (payloadOf [Instr.lit []]).length := by decide

theorem witness_TruncationIsDetected :
    (∀ i ∈ [Instr.run 2#7 0x11#8, .lit [0x01#8, 0x02#8]], i.isRecord = true ∧ i.wf = true)
    ∧ (∀ k, k < 2 → (payloadOf ([Instr.run 2#7 0x11#8, .lit [0x01#8, 0x02#8]].take k)).length
        < (payloadOf [Instr.run 2#7 0x11#8, .lit [0x01#8, 0x02#8]]).length)
    ∧ 4 < (streamOf [Instr.run 2#7 0x11#8, .lit [0x01#8, 0x02#8]]).length := by decide

theorem witness_EncodingFollowsItsRecursion :
    ((encoding 3#32 [0x01#8, 0x07#8, 0x07#8] 1).running = some .enc ∧ 1 ≤ (encoding 3#32 [0x01#8, 0x07#8, 0x07#8] 1).frameLen
      ∧ Memory.slice (encoding 3#32 [0x01#8, 0x07#8, 0x07#8] 1).e 1
        ((encoding 3#32 [0x01#8, 0x07#8, 0x07#8] 1).frameLen - 1) = [0x07#8, 0x07#8])
    ∧ ([0x07#8, 0x07#8].length < 3) ∧ [0x07#8, 0x07#8, 0x07#8] = 0x07#8 :: 0x07#8 :: 0x07#8 :: []
    ∧ [0x07#8, 0x07#8, 0x08#8] = 0x07#8 :: 0x07#8 :: 0x08#8 :: [] ∧ ¬ (0x07#8 = 0x07#8 ∧ 0x07#8 = 0x08#8) := by decide

theorem witness_DecodingFollowsItsRecursion :
    (decodeRecord ([0x80#8, 0x81#8, 0x01#8].drop 1) = .ok (.lit [0x01#8], []) ∧ (payload (.lit [0x01#8])).length ≤ 1)
    ∧ ([0x80#8, 0x82#8].drop 1 = 0x82#8 :: [] ∧ 1 < (0x82#8).toNat % 128)
    ∧ decodeRecord ([0x80#8].drop 1) = .error .noHeader
    ∧ (decodeRecord ([0x80#8, 0x81#8].drop 1) = .error (.shortRaw 1#7 []) ∧ [0x80#8, 0x81#8].drop 1 = 0x81#8 :: []
      ∧ (0x81#8).toNat % 128 ≤ 1) := by decide

/-- One frame of three bytes, after the empty tail of an earlier frame. -/
theorem witness_EncoderAndDecoderReproduceTheFrame :
    (∃ enc', exec .encFrame { idle 3#32 [] [] with x := Memory.ofBytes [0x07#8, 0x07#8, 0x07#8] } = .next enc'
      ∧ ([0x80#8, 0x03#8, 0x07#8, 0x80#8] : List Byte).drop 0 = [0x80#8] ++ enc'.out.drop 0 ++ [])
    ∧ (idle 3#32 [] []).accepts = true ∧ 0 < (idle 3#32 [] []).frameLen ∧ (idle 3#32 [] []).frameLen ≤ 8
    ∧ ∀ j, j < 3 → Memory.read (idle 3#32 [] []).f j = Memory.read (idle 3#32 [] []).p j :=
  ⟨⟨_, rfl, by decide⟩, by decide, by decide, by decide, by decide⟩

/-- N equal to NMAX, where both frame commands begin, and one above it, where they are turned away; and a CLEAR. -/
theorem witness_FrameCommandsShowBusyFromIssue :
    (recordwise 8#32 [.writeReg 2 1#32]).grain = .record ∧ (recordwise 8#32 [.writeReg 2 1#32]).accepts = true
    ∧ (recordwise 8#32 [.writeReg 2 1#32]).host = .writeReg 2 0x00000001#32 :: []
    ∧ (recordwise 8#32 [.writeReg 2 1#32]).frameLen ≤ (recordwise 8#32 [.writeReg 2 1#32]).nmax
    ∧ (recordwise 8#32 [.writeReg 2 2#32]).host = .writeReg 2 0x00000002#32 :: []
    ∧ (recordwise 9#32 [.writeReg 2 2#32]).accepts = true
    ∧ (recordwise 9#32 [.writeReg 2 2#32]).nmax < (recordwise 9#32 [.writeReg 2 2#32]).frameLen
    ∧ (recordwise 9#32 [.writeReg 2 3#32]).host = .writeReg 2 0x00000003#32 :: [] := by decide

/-- The one index from NMAX = 8 on and below N = 9, in an idle and in a faulted block. -/
theorem witness_PortsWithoutAnElement :
    (idle 9#32 [] [.readF 8]).busy = false ∧ (refusedConfig 9#32 [.readF 8]).busy = false
    ∧ (idle 9#32 [] [.readF 8]).nmax ≤ 8 ∧ 8 < (idle 9#32 [] [.readF 8]).frameLen
    ∧ (idle 9#32 [] [.readF 8]).host = .readF 8 :: []
    ∧ (idle 9#32 [] [.writeX 8 0x01#8]).host = .writeX 8 0x01#8 :: [] := by decide

/-- A LIT that the stream cuts short, the commit, a tail and an idle block each answer a next state; a record with N above NMAX
faults; and no step of `work` is refused but one of a faulted block that is said to be running, which no run reaches. -/
theorem witness_WaitWorksAndHoldKeepsTheState :
    (waiting (decoding 3#32 [0x83#8, 0x01#8] 0 0)).host = .wait :: [.wait]
    ∧ (∃ t, step { waiting (decoding 3#32 [0x83#8, 0x01#8] 0 0) with host := [] } = .next t)
    ∧ (∃ t, step { waiting (decoding 3#32 [] 0 3) with host := [] } = .next t)
    ∧ (∃ t, step { waiting (encoding 3#32 [] 1) with host := [] } = .next t)
    ∧ (∃ t, step { waiting (faulted []) with host := [] } = .next t)
    ∧ step { waiting (decoding 9#32 [0x01#8, 0x07#8] 0 0) with host := [] } = .fault .bufferRange
    ∧ step { waiting { decoding 3#32 [0x01#8, 0x07#8] 0 0 with fault := true } with host := [] } = .refused .recordNotEnabled
    ∧ (faulted [.hold]).host = .hold :: [] :=
  ⟨rfl, ⟨_, rfl⟩, ⟨_, rfl⟩, ⟨_, rfl⟩, ⟨_, rfl⟩, rfl, rfl, rfl⟩

end Sys2Proof.Tests
end

section
/-! PROOFS. The scope family (00_scope.md): from every state that meets the invariant a step answers a next state (R9), and the
two units share only the configuration and STATUS (R2). -/

namespace Sys2Proof.Machine

/-! ### A step answers -/

/-- No value written to CMD selects a record (30_encoding.md R72). -/
theorem decodeCommand_isRecord {w : Word} {i : Instr} (h : decodeCommand w = .ok i) : i.isRecord = false := by
  rcases decodeCommand_cases w with ⟨_, hd⟩ | ⟨_, hd⟩ | ⟨_, hd⟩ | ⟨_, hd⟩ | ⟨_, hd⟩ <;> rw [hd] at h <;> cases h <;> rfl

/-- A command as one transition answers in every state: it runs, faults, or is ignored. -/
theorem exec_next_of_command {i : Instr} (hi : i.isRecord = false) (s : State) : ∃ t, exec i s = .next t := by
  cases i with
  | run | lit => cases hi
  | nop | decFrame | encFrame | clear => exact ⟨_, rfl⟩

theorem openCommand_next_of_command {i : Instr} (hi : i.isRecord = false) (s : State) :
    ∃ t, openCommand i s = .next t := by
  cases i with
  | run | lit => cases hi
  | nop | decFrame | encFrame | clear => exact ⟨_, rfl⟩

/-- A write to CMD answers in every state, at either granularity. -/
theorem issue_next (w : Word) (s : State) : ∃ t, issue w s = .next t := by
  cases hd : decodeCommand w with
  | error r => exact ⟨badCommand s, by simp only [issue, hd]⟩
  | ok i =>
    have hi := decodeCommand_isRecord hd
    cases hg : s.grain with
    | command => simpa only [issue, hd, hg] using exec_next_of_command hi s
    | record => simpa only [issue, hd, hg] using openCommand_next_of_command hi s

/-- The invariant excludes every stop of a unit at work: N fits the buffers while it runs (20_memory.md R43), and DEC with
bytes missing has a record enabled, since nothing runs after a fault (40_decoder.md R80). -/
theorem work_next {s : State} (hi : s.Inv) : ∃ t, work s = .next t := by
  obtain ⟨_, hstatus, _, hdec, henc⟩ := hi
  cases hr : s.running with
  | none => exact ⟨_, work_idle hr⟩
  | some g =>
    cases g with
    | dec =>
      have hn := (hdec hr).1
      by_cases hp : s.pos < s.frameLen
      · exact ⟨_, work_record (recordEnabled_iff.mpr ⟨hr, fault_of_running hstatus hr, hp⟩) hn⟩
      · exact ⟨_, work_commit hr (Nat.le_of_not_lt hp) hn⟩
    | enc => exact ⟨_, work_enc hr (henc hr).1⟩

theorem hostAct_next (a : HostAction) {s : State} (hi : s.Inv) : ∃ t, hostAct a s = .next t := by
  cases a with
  | writeReg n v =>
    by_cases hn : n = 2
    · simpa only [hostAct, writeRegister, if_pos hn] using issue_next v s
    · exact ⟨writeConfig n v s, by simp only [hostAct, writeRegister, if_neg hn]⟩
  | wait => exact work_next hi
  | readReg | writeX | readF | hold | reset => exact ⟨_, rfl⟩

/-- The invariant speaks of the block only, so it does not see which accesses the host has still to make. -/
theorem inv_of_host {s : State} (rest : List HostAction) (hi : s.Inv) : ({ s with host := rest } : State).Inv := hi

/-! ### A frame command and the other unit's state -/

/-- A replacement `r` of state that BUSY, the fault state and the configuration check do not depend on passes through a frame
command when it passes through the command's `body`. -/
theorem frameCommand_map {r body : State → State} {s : State} (ha : (r s).accepts = s.accepts) (hm : (r s).nmax = s.nmax)
    (hn : (r s).frameLen = s.frameLen) (hf : takeFault .badCfg (r s) = r (takeFault .badCfg s))
    (hb : body (r s) = r (body s)) :
    whenAccepting (r s) (checkConfig (r s) (body (r s))) = r (whenAccepting s (checkConfig s (body s))) := by
  simp only [whenAccepting, checkConfig, ha, hm, hn, hf, hb, apply_ite r]

/-! #### DEC and the encoder's state -/

/-- The encoder's whole state (10_state.md R20). -/
structure EncoderState where
  x : Memory
  p : Memory
  e : Memory
  cur : Nat
  len : Nat
  out : List Byte

/-- `s` with the encoder's whole state replaced. -/
def withEncoder (u : EncoderState) (s : State) : State :=
  { s with x := u.x, p := u.p, e := u.e, cur := u.cur, len := u.len, out := u.out }

section Encoder

variable (u : EncoderState) (s : State)

theorem recordStep_withEncoder {body : State → State} (h : Byte)
    (hb : ∀ t, body (withEncoder u t) = withEncoder u (body t)) :
    recordStep h body (withEncoder u s) = withEncoder u (recordStep h body s) := by
  by_cases hc : s.room < (countField h).toNat
  · rw [recordStep_overrun hc, recordStep_overrun (s := withEncoder u s) hc]; rfl
  · rw [recordStep_fits (Nat.le_of_not_lt hc), recordStep_fits (s := withEncoder u s) (Nat.le_of_not_lt hc)]
    exact hb (loadHeader h s)

theorem produceRun_withEncoder (v : Byte) (k : Nat) :
    produceRun v k (withEncoder u s) = withEncoder u (produceRun v k s) := by
  rw [produceRun_eq, produceRun_eq]; rfl

theorem copyRaw_withEncoder (bs : List Byte) : copyRaw bs (withEncoder u s) = withEncoder u (copyRaw bs s) := by
  rw [copyRaw_eq, copyRaw_eq]; rfl

theorem recordEffect_withEncoder (i : Instr) : recordEffect i (withEncoder u s) = withEncoder u (recordEffect i s) := by
  cases i with
  | run c v =>
    exact recordStep_withEncoder u s (body := fun t => produceRun v t.cnt.toNat (loadValue v t)) _ fun t =>
      produceRun_withEncoder u (loadValue v t) v t.cnt.toNat
  | lit raw => exact recordStep_withEncoder u s _ fun t => copyRaw_withEncoder u t raw
  | nop | decFrame | encFrame | clear => rfl

theorem recordCut_withEncoder (r : Reject) : recordCut r (withEncoder u s) = withEncoder u (recordCut r s) := by
  cases r with
  | noValue c => exact recordStep_withEncoder u s _ fun _ => rfl
  | shortRaw c present =>
    exact recordStep_withEncoder u s (body := fun t => takeFault .truncated (copyRaw present t)) _ fun t =>
      congrArg (takeFault .truncated) (copyRaw_withEncoder u t present)
  | noHeader | badCommand => rfl

theorem recordTurn_withEncoder : recordTurn (withEncoder u s) = withEncoder u (recordTurn s) := by
  have hahead : (withEncoder u s).ahead = s.ahead := rfl
  rw [recordTurn, recordTurn, hahead]
  cases decodeRecord s.ahead with
  | ok record => exact recordEffect_withEncoder u s record.1
  | error r => exact recordCut_withEncoder u s r

theorem decTurn_withEncoder : decTurn (withEncoder u s) = withEncoder u (decTurn s) := by
  have hpos : (withEncoder u s).pos = s.pos := rfl
  have hlen : (withEncoder u s).frameLen = s.frameLen := rfl
  have hcommit : commitTurn (withEncoder u s) = withEncoder u (commitTurn s) := rfl
  simp only [decTurn, hpos, hlen, recordTurn_withEncoder, hcommit, apply_ite (withEncoder u)]

theorem decLoop_withEncoder (k : Nat) : decLoop k (withEncoder u s) = withEncoder u (decLoop k s) := by
  induction k generalizing s with
  | zero => rfl
  | succ k ih =>
    by_cases hr : s.running = some .dec
    · rw [decLoop_succ k hr, decLoop_succ (s := withEncoder u s) k hr, decTurn_withEncoder, ih]
    · rw [decLoop_idle _ hr, decLoop_idle (s := withEncoder u s) _ hr]

theorem execDecFrame_withEncoder {s t : State} (h : exec .decFrame s = .next t) :
    exec .decFrame (withEncoder u s) = .next (withEncoder u t) := by
  obtain rfl := Host.Outcome.next.inj h
  exact congrArg Host.Outcome.next
    (frameCommand_map (body := fun s => decLoop s.decTurns (beginDec s)) rfl rfl rfl rfl
      (decLoop_withEncoder u (beginDec s) s.decTurns))

end Encoder

/-! #### ENC and the decoder's state -/

/-- The decoder's whole state (10_state.md R20). -/
structure DecoderState where
  input : List Byte
  sp : Nat
  hdr : Byte
  cnt : BitVec 7
  val : Byte
  pos : Nat
  d : Memory
  f : Memory

/-- `s` with the decoder's whole state replaced. -/
def withDecoder (u : DecoderState) (s : State) : State :=
  { s with
    input := u.input, sp := u.sp, hdr := u.hdr, cnt := u.cnt, val := u.val, pos := u.pos, d := u.d, f := u.f }

section Decoder

variable (u : DecoderState) (s : State)

theorem scanRun_withDecoder (v : Byte) (k len : Nat) : scanRun (withDecoder u s) v k len = scanRun s v k len := by
  induction k generalizing len with
  | zero => rfl
  | succ k ih => rw [scanRun, scanRun, ih]; rfl

theorem scanLit_withDecoder (k len : Nat) : scanLit (withDecoder u s) k len = scanLit s k len := by
  induction k generalizing len with
  | zero => rfl
  | succ k ih => rw [scanLit, scanLit, ih]; rfl

theorem emitLiteralOf_withDecoder (n : Nat) :
    emitLiteralOf n (withDecoder u s) = withDecoder u (emitLiteralOf n s) := by
  rw [emitLiteralOf_eq, emitLiteralOf_eq]; rfl

theorem emitTail_withDecoder : emitTail (withDecoder u s) = withDecoder u (emitTail s) :=
  congrArg finish (emitLiteralOf_withDecoder u s s.rem)

theorem emitRun_withDecoder : emitRun (withDecoder u s) = withDecoder u (emitRun s) := by
  have hlen : (withDecoder u s).runLen = s.runLen := scanRun_withDecoder u s _ _ _
  rw [emitRun_eq, emitRun_eq, hlen]; rfl

theorem emitLit_withDecoder : emitLit (withDecoder u s) = withDecoder u (emitLit s) := by
  have hlen : (withDecoder u s).litLen = s.litLen := scanLit_withDecoder u s _ _
  rw [emitLit, hlen, emitLiteralOf_withDecoder]; rfl

theorem encTurn_withDecoder : encTurn (withDecoder u s) = withDecoder u (encTurn s) := by
  have hrem : (withDecoder u s).rem = s.rem := rfl
  have hlook (k : Nat) : (withDecoder u s).look k = s.look k := rfl
  simp only [encTurn, hrem, hlook, emitTail_withDecoder, emitRun_withDecoder, emitLit_withDecoder,
    apply_ite (withDecoder u)]

theorem encLoop_withDecoder (k : Nat) : encLoop k (withDecoder u s) = withDecoder u (encLoop k s) := by
  induction k generalizing s with
  | zero => rfl
  | succ k ih =>
    by_cases hr : s.running = some .enc
    · rw [encLoop_succ k hr, encLoop_succ (s := withDecoder u s) k hr, encTurn_withDecoder, ih]
    · rw [encLoop_idle _ hr, encLoop_idle (s := withDecoder u s) _ hr]

theorem execEncFrame_withDecoder {s t : State} (h : exec .encFrame s = .next t) :
    exec .encFrame (withDecoder u s) = .next (withDecoder u t) := by
  obtain rfl := Host.Outcome.next.inj h
  exact congrArg Host.Outcome.next
    (frameCommand_map (body := fun s => encLoop s.encTurns (beginEnc s)) rfl rfl rfl rfl
      (encLoop_withDecoder u (beginEnc s) s.encTurns))

end Decoder

/-! ### The statements -/

/-- Settles O4: the next state of the host's first action, or, where it has none, of a unit at work. -/
theorem stepAlwaysAnswersANextState : Obligations.StepAlwaysAnswersANextState := by
  intro s hi
  cases hh : s.host with
  | nil => rw [step_nil hh]; exact work_next hi
  | cons a rest => rw [step_cons hh]; exact hostAct_next a (inv_of_host rest hi)

/-- Settles O37: each unit's turns pass the other unit's state through, by induction on the turns of its loop. -/
theorem unitsShareOnlyTheConfiguration : Obligations.UnitsShareOnlyTheConfiguration :=
  ⟨fun _ _ x p e cur len out h => execDecFrame_withEncoder ⟨x, p, e, cur, len, out⟩ h,
    fun _ _ input sp pos hdr val cnt d f h => execEncFrame_withDecoder ⟨input, sp, hdr, cnt, val, pos, d, f⟩ h⟩

end Sys2Proof.Machine
end

section
/-! PROOFS. The state family (10_state.md): what reset leaves (R35), the fields of STATUS (R30), the register map and the two ports
(R33), and what a step that is no reset leaves alone: the configuration (R21), the streams (R25, R29), F and P (R22, R26). -/

namespace Sys2Proof.Machine

/-! ### Reset and STATUS -/

/-- The empty buffer, 0x00 everywhere, is canonical whatever NMAX is. -/
theorem Memory.nil_wf_below (n : Nat) : Memory.wf [] ∧ Memory.below n [] :=
  ⟨⟨List.Pairwise.nil, by simp⟩, by simp⟩

theorem statusWord_of_cleared {s : State} (hr : s.running = none) (hf : s.fault = false) (hc : s.cause = .none) :
    s.statusWord = 0#32 := by
  simp [State.statusWord, State.busy, Cause.code, hr, hf, hc]

/-- The layout of STATUS (R30), whatever stands in its fields. -/
theorem statusLayout_fields (cause : BitVec 4) (fault busy : Bool) :
    let w : Word := 0#24 ++ cause ++ 0#2 ++ BitVec.ofBool fault ++ BitVec.ofBool busy
    w.getLsbD 0 = busy ∧ w.getLsbD 1 = fault ∧ w.extractLsb' 4 4 = cause ∧ w.extractLsb' 2 2 = 0#2
      ∧ w.extractLsb' 8 24 = 0#24 := by
  revert cause fault busy; decide

/-! ### The register map -/

theorem readReg_of_six_le (s : State) {n : Nat} (h : 6 ≤ n) : s.readReg n = 0#32 := by
  obtain ⟨k, rfl⟩ := Nat.exists_eq_add_of_le' h
  rfl

theorem readReg_reset (n : Nat) : State.reset.readReg n = 0#32 := by
  match n with
  | 0 | 1 | 2 | 4 | 5 => rfl
  | 3 => exact statusWord_of_cleared rfl rfl rfl
  | k + 6 => exact readReg_of_six_le _ (Nat.le_add_left 6 k)

theorem step_readReg {s : State} {n : Nat} {rest : List HostAction} (h : s.host = .readReg n :: rest) :
    step s = .next { s with host := rest, regData := s.readReg n } := by
  rw [step_cons h]; rfl

/-- A write to any register but CMD stays within the configuration (R33). -/
theorem step_writeConfig {s : State} {n : Nat} {v : Word} {rest : List HostAction} (h : s.host = .writeReg n v :: rest)
    (hn : n ≠ 2) : step s = .next (writeConfig n v { s with host := rest }) := by
  rw [step_cons h, hostAct, writeRegister, if_neg hn]

theorem writeConfig_of_two_le (s : State) {n : Nat} (v : Word) (h : 2 ≤ n) : writeConfig n v s = s := by
  obtain ⟨k, rfl⟩ := Nat.exists_eq_add_of_le' h
  rfl

/-! ### The ports -/

theorem readPort_beyond {j : Nat} {s : State} (hb : s.busy = false) (hj : s.frameLen ≤ j) :
    readPort j s = { s with portData := 0x00#8 } := by
  simp [readPort, hb, hj]

theorem readPort_element {j : Nat} {s : State} (hb : s.busy = false) (hj : j < s.frameLen) (hn : j < s.nmax) :
    readPort j s = { s with portData := Memory.read s.f j } := by
  simp [readPort, hb, Nat.not_le.mpr hj, Nat.not_le.mpr hn]

theorem writePort_element {j : Nat} {b : Byte} {s : State} (ha : s.accepts = true) (hj : j < s.frameLen)
    (hn : j < s.nmax) : writePort j b s = { s with x := Memory.write s.x j b } := by
  rw [writePort, if_pos ⟨hj, hn⟩, whenAccepting_of ha]

/-- A write through the X port without an element to go to is ignored, in every state. -/
theorem writePort_noElement {j : Nat} {b : Byte} {s : State} (h : s.frameLen ≤ j ∨ s.nmax ≤ j) : writePort j b s = s := by
  rw [writePort, if_neg (by omega)]

/-- The F port where the block is not busy and the index has an element or is beyond the frame (R33, R139). -/
theorem step_readF {s : State} {j : Nat} {rest : List HostAction} (h : s.host = .readF j :: rest) (hb : s.busy = false)
    (hj : j < s.nmax ∨ s.frameLen ≤ j) :
    step s = .next
      { s with host := rest, portData := if j < s.frameLen then Memory.read s.f j else 0x00#8 } := by
  rw [step_cons h, hostAct]
  by_cases hN : j < s.frameLen
  · rw [if_pos hN, readPort_element (s := { s with host := rest }) hb hN (hj.resolve_right (Nat.not_le.mpr hN))]
  · rw [if_neg hN, readPort_beyond (s := { s with host := rest }) hb (Nat.le_of_not_lt hN)]

theorem step_writeX_noElement {s : State} {j : Nat} {b : Byte} {rest : List HostAction} (h : s.host = .writeX j b :: rest)
    (hj : s.frameLen ≤ j ∨ s.nmax ≤ j) : step s = .next { s with host := rest } := by
  rw [step_cons h, hostAct, writePort_noElement (s := { s with host := rest }) hj]

/-! ### What a step can do that is no reset -/

/-- A step that is no reset works on the command in progress, writes CMD, sets one of the two configuration registers, or
touches no more of the block than X. -/
theorem step_cases_of_no_reset {s t : State} (h : step s = .next t)
    (hreset : ∀ input left rest, s.host ≠ .reset input left :: rest) :
    (∃ rest, work { s with host := rest } = .next t)
    ∨ (∃ w rest, s.host = .writeReg 2 w :: rest ∧ issue w { s with host := rest } = .next t)
    ∨ (s.accepts = true ∧ ∃ v rest, s.host = .writeReg 0 v :: rest ∧ t = { s with host := rest, cfgW := v })
    ∨ (s.accepts = true ∧ ∃ v rest, s.host = .writeReg 1 v :: rest ∧ t = { s with host := rest, cfgH := v })
    ∨ ∃ rest x regData portData free,
        t = { s with host := rest, x := x, regData := regData, portData := portData, free := free } := by
  rcases step_cases h with ⟨hw, _⟩ | ⟨rest, _, ht⟩ | ⟨input, left, rest, hh, _⟩ | ⟨w, rest, hh, hw⟩ |
    ⟨n, v, rest, hh, _, ht⟩ | ⟨n, rest, _, ht⟩ | ⟨j, b, rest, _, ht⟩ | ⟨j, rest, _, ht⟩
  · exact .inl ⟨_, hw⟩
  · exact .inr (.inr (.inr (.inr ⟨rest, s.x, s.regData, s.portData, s.free, ht⟩)))
  · exact absurd hh (hreset input left rest)
  · exact .inr (.inl ⟨w, rest, hh, hw⟩)
  · rcases writeConfig_cases n v { s with host := rest } with hc | ⟨ha, rfl, hc⟩ | ⟨ha, rfl, hc⟩ <;> rw [hc] at ht
    · exact .inr (.inr (.inr (.inr ⟨rest, s.x, s.regData, s.portData, s.free, ht⟩)))
    · exact .inr (.inr (.inl ⟨ha, v, rest, hh, ht⟩))
    · exact .inr (.inr (.inr (.inl ⟨ha, v, rest, hh, ht⟩)))
  · exact .inr (.inr (.inr (.inr ⟨rest, s.x, _, s.portData, s.free, ht⟩)))
  · rcases writePort_cases j b { s with host := rest } with hc | ⟨_, _, _, hc⟩ <;> rw [hc] at ht
    · exact .inr (.inr (.inr (.inr ⟨rest, s.x, s.regData, s.portData, s.free, ht⟩)))
    · exact .inr (.inr (.inr (.inr ⟨rest, _, s.regData, s.portData, s.free, ht⟩)))
  · obtain ⟨b, k, hc⟩ := readPort_frame j { s with host := rest }
    rw [hc] at ht
    exact .inr (.inr (.inr (.inr ⟨rest, s.x, s.regData, b, k, ht⟩)))

/-! ### The block's own work moves the streams forward and keeps the configuration -/

/-- From `s` to `t` NMAX, the configuration and IN are the same, SP has not moved back, and OUT has only grown at its end
(R21, R25, R29). -/
structure MovesForward (s t : State) : Prop where
  nmax : t.nmax = s.nmax
  cfgW : t.cfgW = s.cfgW
  cfgH : t.cfgH = s.cfgH
  input : t.input = s.input
  sp : s.sp ≤ t.sp
  out : s.out <+: t.out

/-- An operation that touches none of the six. -/
theorem MovesForward.of_eq {s t : State} (hn : t.nmax = s.nmax) (hw : t.cfgW = s.cfgW) (hh : t.cfgH = s.cfgH)
    (hi : t.input = s.input) (hs : t.sp = s.sp) (ho : t.out = s.out) : MovesForward s t :=
  ⟨hn, hw, hh, hi, hs.ge, by rw [ho]⟩

theorem MovesForward.trans {s t u : State} (h : MovesForward s t) (h' : MovesForward t u) : MovesForward s u :=
  ⟨h'.nmax.trans h.nmax, h'.cfgW.trans h.cfgW, h'.cfgH.trans h.cfgH, h'.input.trans h.input, h.sp.trans h'.sp,
    h.out.trans h'.out⟩

theorem recordTurn_sp_le (s : State) : s.sp ≤ (recordTurn s).sp := by
  rcases recordTurn_cases s with ⟨_, h⟩ | ⟨_, _, _, _, h⟩ | ⟨_, _, _, h⟩ | ⟨_, _, _, _, _, h⟩ | ⟨_, _, _, _, hc, h⟩ |
    ⟨_, _, _, hl, hc, h⟩ <;> rw [h]
  · exact Nat.le_refl _
  · exact Nat.le_succ _
  · exact Nat.le_succ _
  · rw [copyRaw_eq]; simp; omega
  · rw [runRecord_eq hc]; simp
  · rw [litRecord_eq hl hc]; simp; omega

theorem recordTurn_movesForward (s : State) : MovesForward s (recordTurn s) := by
  have hsp := recordTurn_sp_le s
  obtain ⟨_, _, _, _, _, _, _, _, _, h⟩ := recordTurn_frame s
  rw [h] at hsp ⊢
  exact ⟨rfl, rfl, rfl, rfl, hsp, List.prefix_rfl⟩

theorem decTurn_movesForward (s : State) : MovesForward s (decTurn s) := by
  unfold decTurn
  split
  · exact recordTurn_movesForward s
  · exact .of_eq rfl rfl rfl rfl rfl rfl

theorem encTurn_movesForward (s : State) : MovesForward s (encTurn s) := by
  obtain ⟨_, _, _, out, h⟩ := encTurn_frame s
  rw [h]
  exact ⟨rfl, rfl, rfl, rfl, Nat.le_refl _, List.prefix_append _ out⟩

theorem decLoop_movesForward (k : Nat) (s : State) : MovesForward s (decLoop k s) :=
  decLoop_keeps (P := MovesForward s) (fun t _ h => h.trans (decTurn_movesForward t)) k s (.of_eq rfl rfl rfl rfl rfl rfl)

theorem encLoop_movesForward (k : Nat) (s : State) : MovesForward s (encLoop k s) :=
  encLoop_keeps (P := MovesForward s) (fun t _ h => h.trans (encTurn_movesForward t)) k s (.of_eq rfl rfl rfl rfl rfl rfl)

theorem work_movesForward {s t : State} (h : work s = .next t) : MovesForward s t := by
  rcases work_cases h with ⟨_, rfl⟩ | ⟨_, _, _, _, rfl⟩ | ⟨_, _, _, rfl⟩ | ⟨_, _, rfl⟩
  · exact .of_eq rfl rfl rfl rfl rfl rfl
  · exact recordTurn_movesForward s
  · exact .of_eq rfl rfl rfl rfl rfl rfl
  · exact encTurn_movesForward s

theorem issue_movesForward {w : Word} {s t : State} (h : issue w s = .next t) : MovesForward s t := by
  have hdec : MovesForward s (beginDec s) := .of_eq rfl rfl rfl rfl rfl rfl
  have henc : MovesForward s (beginEnc s) := .of_eq rfl rfl rfl rfl rfl rfl
  rcases issue_cases h with rfl | ⟨_, ⟨_, rfl⟩ | ⟨_, rfl⟩ | ⟨_, _, rfl⟩ | ⟨_, _, _, rfl⟩ | ⟨_, _, _, rfl⟩ |
    ⟨_, _, _, rfl⟩ | ⟨_, _, _, rfl⟩⟩
  · exact .of_eq rfl rfl rfl rfl rfl rfl
  · exact .of_eq rfl rfl rfl rfl rfl rfl
  · exact .of_eq rfl rfl rfl rfl rfl rfl
  · exact .of_eq rfl rfl rfl rfl rfl rfl
  · exact hdec.trans (decLoop_movesForward _ _)
  · exact hdec
  · exact henc.trans (encLoop_movesForward _ _)
  · exact henc

/-- A step that is no reset moves the streams forward under an unchanged configuration, or is a write of the host to CFG_W or
CFG_H while idle and not faulted. -/
theorem step_movesForward_or_configures {s t : State} (h : step s = .next t)
    (hreset : ∀ input left rest, s.host ≠ .reset input left :: rest) :
    MovesForward s t
    ∨ (s.accepts = true ∧ ∃ v rest, s.host = .writeReg 0 v :: rest ∧ t = { s with host := rest, cfgW := v })
    ∨ (s.accepts = true ∧ ∃ v rest, s.host = .writeReg 1 v :: rest ∧ t = { s with host := rest, cfgH := v }) := by
  rcases step_cases_of_no_reset h hreset with ⟨rest, hw⟩ | ⟨w, rest, _, hw⟩ | hw | hh | ⟨_, _, _, _, _, rfl⟩
  · exact .inl (.trans (t := { s with host := rest }) (.of_eq rfl rfl rfl rfl rfl rfl) (work_movesForward hw))
  · exact .inl (.trans (t := { s with host := rest }) (.of_eq rfl rfl rfl rfl rfl rfl) (issue_movesForward hw))
  · exact .inr (.inl hw)
  · exact .inr (.inr hh)
  · exact .inl (.of_eq rfl rfl rfl rfl rfl rfl)

/-! ### F and P and their events -/

/-- A DEC_FRAME has just been completed by its commit (43_commands.md R131). -/
def State.FrameComplete (s : State) : Prop := s.busy = false ∧ s.fault = false ∧ s.pos = s.frameLen

theorem recordTurn_f (s : State) : (recordTurn s).f = s.f := by
  obtain ⟨_, _, _, _, _, _, _, _, _, h⟩ := recordTurn_frame s
  rw [h]

theorem recordTurn_p (s : State) : (recordTurn s).p = s.p := by
  obtain ⟨_, _, _, _, _, _, _, _, _, h⟩ := recordTurn_frame s
  rw [h]

theorem encTurn_f (s : State) : (encTurn s).f = s.f := by
  obtain ⟨_, _, _, _, h⟩ := encTurn_frame s
  rw [h]

theorem encTurn_p (s : State) : (encTurn s).p = s.p := by
  obtain ⟨_, _, _, _, h⟩ := encTurn_frame s
  rw [h]

theorem decTurn_p (s : State) : (decTurn s).p = s.p := by
  unfold decTurn
  split
  · exact recordTurn_p s
  · rfl

theorem pos_eq_of_commit {s : State} (hi : s.Inv) (hr : s.running = some .dec) (hp : s.frameLen ≤ s.pos) :
    s.pos = s.frameLen := by
  obtain ⟨_, _, _, hdec, _⟩ := hi
  exact Nat.le_antisymm (hdec hr).2 hp

/-- A commit the invariant allows comes with POS = N, and with no fault, since nothing runs after one. -/
theorem commitTurn_frameComplete {s : State} (hi : s.Inv) (hr : s.running = some .dec) (hp : s.frameLen ≤ s.pos) :
    (commitTurn s).FrameComplete := by
  have hpos := pos_eq_of_commit hi hr hp
  obtain ⟨_, hstatus, _⟩ := hi
  have hfault := fault_of_running hstatus hr
  exact ⟨rfl, hfault, hpos⟩

theorem decTurn_f {s : State} (hi : s.Inv) (hr : s.running = some .dec) :
    (decTurn s).f = s.f ∨ (decTurn s).FrameComplete := by
  unfold decTurn
  split
  · exact .inl (recordTurn_f s)
  · rename_i hp; exact .inr (commitTurn_frameComplete hi hr (Nat.le_of_not_lt hp))

/-- F along the turns of a DEC_FRAME: as it was as long as the command runs, and after it unless the frame is complete. -/
theorem decLoop_f {s : State} (hi : s.Inv) (k : Nat) : (decLoop k s).f = s.f ∨ (decLoop k s).FrameComplete := by
  refine (decLoop_keeps (P := fun u => u.Inv ∧ (u.f = s.f ∨ u.FrameComplete)) ?_ k s ⟨hi, .inl rfl⟩).2
  rintro u hr ⟨hu, hf | ⟨hbusy, _⟩⟩
  · exact ⟨decTurn_inv hu hr, (decTurn_f hu hr).imp_left (·.trans hf)⟩
  · simp [State.busy, hr] at hbusy

theorem decLoop_p (k : Nat) (s : State) : (decLoop k s).p = s.p :=
  decLoop_keeps (P := fun u => u.p = s.p) (fun u _ h => (decTurn_p u).trans h) k s rfl

theorem encLoop_f (k : Nat) (s : State) : (encLoop k s).f = s.f :=
  encLoop_keeps (P := fun u => u.f = s.f) (fun u _ h => (encTurn_f u).trans h) k s rfl

theorem work_f {s t : State} (hi : s.Inv) (h : work s = .next t) :
    t.f = s.f ∨ t.FrameComplete ∧ s.running = some .dec ∧ s.pos = s.frameLen := by
  rcases work_cases h with ⟨_, rfl⟩ | ⟨_, _, _, _, rfl⟩ | ⟨hr, hp, _, rfl⟩ | ⟨_, _, rfl⟩
  · exact .inl rfl
  · exact .inl (recordTurn_f s)
  · exact .inr ⟨commitTurn_frameComplete hi hr hp, hr, pos_eq_of_commit hi hr hp⟩
  · exact .inl (encTurn_f s)

theorem work_p {s t : State} (h : work s = .next t) : t.p = s.p := by
  rcases work_cases h with ⟨_, rfl⟩ | ⟨_, _, _, _, rfl⟩ | ⟨_, _, _, rfl⟩ | ⟨_, _, rfl⟩
  · rfl
  · exact recordTurn_p s
  · rfl
  · exact encTurn_p s

/-- A write to CMD other than CLEAR changes F only as a DEC_FRAME that completes its frame. -/
theorem issue_f {w : Word} {s t : State} (hi : s.Inv) (h : issue w s = .next t) (hclear : w ≠ 3#32) :
    t.f = s.f ∨ t.FrameComplete ∧ s.accepts = true ∧ w = 1#32 := by
  rcases issue_cases h with rfl | ⟨ha, ⟨_, rfl⟩ | ⟨hw, _⟩ | ⟨_, _, rfl⟩ | ⟨hw, hn, _, rfl⟩ | ⟨_, _, _, rfl⟩ |
    ⟨_, _, _, rfl⟩ | ⟨_, _, _, rfl⟩⟩
  · exact .inl rfl
  · exact .inl rfl
  · exact absurd hw hclear
  · exact .inl rfl
  · exact (decLoop_f (beginDec_inv hi ha hn) s.decTurns).imp_right (⟨·, ha, hw⟩)
  · exact .inl rfl
  · exact .inl (encLoop_f s.encTurns (beginEnc s))
  · exact .inl rfl

/-- A write to CMD other than CLEAR changes P only as an ENC_FRAME. -/
theorem issue_p {w : Word} {s t : State} (h : issue w s = .next t) (hclear : w ≠ 3#32) :
    t.p = s.p ∨ s.accepts = true ∧ w = 2#32 := by
  rcases issue_cases h with rfl | ⟨ha, ⟨_, rfl⟩ | ⟨hw, _⟩ | ⟨_, _, rfl⟩ | ⟨_, _, _, rfl⟩ | ⟨_, _, _, rfl⟩ |
    ⟨hw, _⟩ | ⟨hw, _⟩⟩
  · exact .inl rfl
  · exact .inl rfl
  · exact absurd hw hclear
  · exact .inl rfl
  · exact .inl (decLoop_p s.decTurns (beginDec s))
  · exact .inl rfl
  · exact .inr ⟨ha, hw⟩
  · exact .inr ⟨ha, hw⟩

/-! ### The statements -/

/-- Settles O29: each access by the rule of its register number or port, the byte written through the X port read back by
`Memory.read_write`. -/
theorem registerMapAndPorts : Obligations.RegisterMapAndPorts := by
  refine ⟨readReg_reset, fun s => ⟨rfl, rfl, rfl, rfl, rfl, rfl, fun n => readReg_of_six_le s⟩,
    fun s n rest => step_readReg, fun s rest ha => ⟨fun v h => ?_, fun v h => ?_, fun n v hn h => ?_, fun j h hj => ?_,
      fun j b h hj hn => ?_, fun j b h hj => step_writeX_noElement h (.inl hj)⟩⟩
  · rw [step_writeConfig h (by decide), writeConfig, whenAccepting_of (s := { s with host := rest }) ha]
  · rw [step_writeConfig h (by decide), writeConfig, whenAccepting_of (s := { s with host := rest }) ha]
  · rw [step_writeConfig h (by omega), writeConfig_of_two_le _ v (by omega)]
  · have hb : s.busy = false := by simp [State.busy, (accepts_iff.mp ha).1]
    exact step_readF h hb hj
  · refine ⟨Memory.write s.x j b, ?_, fun j' => Memory.read_write s.x j j' b⟩
    rw [step_cons h, hostAct, writePort_element (s := { s with host := rest }) ha hj hn]

/-- Settles O34: the block's own work moves the streams forward, and a write to the configuration leaves them alone. -/
theorem streamsOnlyMoveForward : Obligations.StreamsOnlyMoveForward := by
  intro s t h hreset
  rcases step_movesForward_or_configures h hreset with hm | ⟨_, _, _, _, rfl⟩ | ⟨_, _, _, _, rfl⟩
  · exact ⟨hm.input, hm.sp, hm.out, hm.nmax⟩
  · exact ⟨rfl, Nat.le_refl _, List.prefix_rfl, rfl⟩
  · exact ⟨rfl, Nat.le_refl _, List.prefix_rfl, rfl⟩

/-- Settles O35: F changes at a commit only, which the invariant lets happen at POS = N only; P at the DIFFERENCE of an
ENC_FRAME only. -/
theorem framesChangeOnlyByTheirEvents : Obligations.FramesChangeOnlyByTheirEvents := by
  intro s t hi h hreset hclear
  rcases step_cases_of_no_reset h hreset with ⟨rest, hw⟩ | ⟨w, rest, hh, hw⟩ | ⟨_, _, _, _, rfl⟩ | ⟨_, _, _, _, rfl⟩ |
    ⟨_, _, _, _, _, rfl⟩
  · refine ⟨fun hf => ?_, fun hp => absurd (work_p hw) hp⟩
    obtain ⟨⟨hb, hft, hpos⟩, hcommit⟩ := (work_f (inv_of_host rest hi) hw).resolve_left hf
    exact ⟨hb, hft, hpos, .inl hcommit⟩
  · have hw3 : w ≠ 3#32 := fun hw3 => hclear rest (hw3 ▸ hh)
    refine ⟨fun hf => ?_, fun hp => ?_⟩
    · obtain ⟨⟨hb, hft, hpos⟩, ha, rfl⟩ := (issue_f (inv_of_host rest hi) hw hw3).resolve_left hf
      exact ⟨hb, hft, hpos, .inr ⟨ha, rest, hh⟩⟩
    · obtain ⟨ha, rfl⟩ := (issue_p hw hw3).resolve_left hp
      exact ⟨ha, rest, hh⟩
  · exact ⟨fun hf => absurd rfl hf, fun hp => absurd rfl hp⟩
  · exact ⟨fun hf => absurd rfl hf, fun hp => absurd rfl hp⟩
  · exact ⟨fun hf => absurd rfl hf, fun hp => absurd rfl hp⟩

/-- Settles O36: what moves the streams forward keeps the configuration, so a change of it is the host's write. -/
theorem configurationChangesOnlyByTheHost : Obligations.ConfigurationChangesOnlyByTheHost := by
  intro s t h hreset
  rcases step_movesForward_or_configures h hreset with hm | ⟨ha, v, rest, hh, rfl⟩ | ⟨ha, v, rest, hh, rfl⟩
  · exact ⟨fun hW => absurd hm.cfgW hW, fun hH => absurd hm.cfgH hH⟩
  · exact ⟨fun _ => ⟨ha, rest, hh⟩, fun hH => absurd rfl hH⟩
  · exact ⟨fun hW => absurd rfl hW, fun _ => ⟨ha, rest, hh⟩⟩

/-- Settles O1: the reset event writes the table of R35. -/
theorem resetGivesTheStatedValues : Obligations.ResetGivesTheStatedValues := by
  intro s input left rest h
  exact ⟨applyReset input left { s with host := rest }, step_cons h, rfl, rfl, statusWord_of_cleared rfl rfl rfl, rfl, rfl,
    rfl, Memory.read_nil, Memory.read_nil, rfl, rfl, rfl, rfl⟩

/-- Settles O2: every buffer is empty, every cursor 0, and no unit runs. -/
theorem resetMeetsTheInvariant : Obligations.ResetMeetsTheInvariant := by
  have hbuf := Memory.nil_wf_below State.reset.nmax
  have hidle (g : Engine) : State.reset.running ≠ some g := by simp [State.reset]
  exact ⟨⟨hbuf, hbuf, hbuf, hbuf, hbuf⟩, ⟨⟨fun _ => rfl, fun _ => rfl⟩, fun _ => rfl⟩,
    ⟨Nat.zero_le _, Nat.zero_le _, Nat.zero_le _⟩, fun h => absurd h (hidle .dec), fun h => absurd h (hidle .enc)⟩

/-- Settles O30: the codes by definition, the fields by the layout of the word. -/
theorem statusWordFields : Obligations.StatusWordFields :=
  ⟨⟨rfl, rfl, rfl, rfl, rfl⟩, fun s => statusLayout_fields s.cause.code s.fault s.busy⟩

/-- Settles O55: a read touches the model's own fields only, and the X port has no element to write. -/
theorem portsWithoutAnElement : Obligations.PortsWithoutAnElement := by
  intro s rest j _ hn _
  refine ⟨fun h => ?_, fun b h => step_writeX_noElement h (.inr hn)⟩
  obtain ⟨b, k, hread⟩ := readPort_frame j { s with host := rest }
  exact ⟨b, k, by rw [step_cons h, hostAct, hread]⟩

end Sys2Proof.Machine
end

section
/-! PROOFS. The memory family (20_memory.md): every step keeps the invariant. The turns of the two units and the beginnings of
their commands keep it by Laws/Invariant.lean; here come CLEAR, reset, and the host's accesses. -/

namespace Sys2Proof.Machine

/-- While no unit runs there is no claim about work in progress. -/
theorem workOk_of_idle {s : State} (hr : s.running = none) : s.WorkOk := by
  have hidle (g : Engine) : s.running ≠ some g := by simp [hr]
  exact ⟨fun h => absurd h (hidle .dec), fun h => absurd h (hidle .enc)⟩

/-! ### Each kind of step keeps the invariant -/

/-- A step of work is a turn of the unit that runs, and the invariant says that N fits the buffers then. -/
theorem work_inv {s t : State} (hi : s.Inv) (h : work s = .next t) : t.Inv := by
  rcases work_cases h with ⟨_, rfl⟩ | ⟨hr, _, hp, hn, rfl⟩ | ⟨_, _, hn, rfl⟩ | ⟨hr, _, rfl⟩
  · exact hi
  · exact recordTurn_inv hi hr hp hn
  · exact commitTurn_inv hi hn
  · exact encTurn_inv hi hr

/-- A DEC_FRAME worked off in one transition keeps the invariant, turn by turn. -/
theorem decLoop_inv (k : Nat) {s : State} (hi : s.Inv) : (decLoop k s).Inv :=
  decLoop_keeps (fun _ hr hu => decTurn_inv hu hr) k s hi

/-- An ENC_FRAME worked off in one transition keeps the invariant, iteration by iteration. -/
theorem encLoop_inv (k : Nat) {s : State} (hi : s.Inv) : (encLoop k s).Inv :=
  encLoop_keeps (fun _ hr hu => encTurn_inv hu hr) k s hi

/-- CLEAR is accepted only while idle, so the POS it sets to 0 is no frame's in progress (43_commands.md R133). -/
theorem clearFrames_inv {s : State} (hi : s.Inv) (ha : s.accepts = true) : (clearFrames s).Inv := by
  obtain ⟨⟨hd, ⟨hfwf, hfbelow⟩, hx, ⟨hpwf, hpbelow⟩, he⟩, hstatus, ⟨hsp, _, hlen⟩, _⟩ := hi
  obtain ⟨hr, _⟩ := accepts_iff.mp ha
  exact ⟨⟨hd, ⟨Memory.clearBelow_wf hfwf, Memory.clearBelow_below hfbelow⟩, hx,
      ⟨Memory.clearBelow_wf hpwf, Memory.clearBelow_below hpbelow⟩, he⟩,
    hstatus, ⟨hsp, Nat.zero_le _, hlen⟩, workOk_of_idle hr⟩

/-- A write to CMD is ignored, takes a fault, clears, or begins a frame command that has passed its check. -/
theorem issue_inv {w : Word} {s t : State} (hi : s.Inv) (h : issue w s = .next t) : t.Inv := by
  rcases issue_cases h with rfl | ⟨ha, ⟨_, rfl⟩ | ⟨_, rfl⟩ | ⟨_, _, rfl⟩ | ⟨_, hn, _, rfl⟩ | ⟨_, hn, _, rfl⟩ |
    ⟨_, hn, _, rfl⟩ | ⟨_, hn, _, rfl⟩⟩
  · exact hi
  · exact takeFault_inv hi (by decide)
  · exact clearFrames_inv hi ha
  · exact takeFault_inv hi (by decide)
  · exact decLoop_inv _ (beginDec_inv hi ha hn)
  · exact beginDec_inv hi ha hn
  · exact encLoop_inv _ (beginEnc_inv hi ha hn)
  · exact beginEnc_inv hi ha hn

/-- N may change only while no unit runs, which is when the invariant does not bound it (10_state.md R33; 43_commands.md R136). -/
theorem writeConfig_inv (n : Nat) (v : Word) {s : State} (hi : s.Inv) : (writeConfig n v s).Inv := by
  have hset (ha : s.accepts = true) (cfgW cfgH : Word) : ({ s with cfgW := cfgW, cfgH := cfgH } : State).Inv := by
    obtain ⟨hbuffers, hstatus, hcursors, _⟩ := hi
    exact ⟨hbuffers, hstatus, hcursors, workOk_of_idle (accepts_iff.mp ha).1⟩
  rcases writeConfig_cases n v s with h | ⟨ha, _, h⟩ | ⟨ha, _, h⟩ <;> rw [h]
  · exact hi
  · exact hset ha v s.cfgH
  · exact hset ha s.cfgW v

/-- The X port writes an element of X that exists, or nothing (10_state.md R33). -/
theorem writePort_inv (j : Nat) (b : Byte) {s : State} (hi : s.Inv) : (writePort j b s).Inv := by
  rcases writePort_cases j b s with h | ⟨_, _, hj, h⟩ <;> rw [h]
  · exact hi
  · obtain ⟨⟨hd, hf, ⟨hxwf, hxbelow⟩, hp, he⟩, hrest⟩ := hi
    exact ⟨⟨hd, hf, ⟨Memory.write_wf j b hxwf, Memory.write_below b hxbelow hj⟩, hp, he⟩, hrest⟩

/-- A read through the F port is seen in the model's own fields only, which the invariant does not speak of. -/
theorem readPort_inv (j : Nat) {s : State} (hi : s.Inv) : (readPort j s).Inv := by
  obtain ⟨b, k, h⟩ := readPort_frame j s
  rw [h]
  exact hi

/-- What a reset leaves unspecified is cut to NMAX bytes a buffer, and LEN to 127, so any leftover meets the invariant. -/
theorem applyReset_inv (input : List Byte) (left : Leftover) (s : State) : (applyReset input left s).Inv := by
  have hleft (bs : List Byte) :
      (Memory.ofBytes (bs.take s.nmax)).wf ∧ (Memory.ofBytes (bs.take s.nmax)).below s.nmax :=
    ⟨Memory.ofBytes_wf _, Memory.ofBytes_below _ _⟩
  have hzero := Memory.nil_wf_below s.nmax
  exact ⟨⟨hleft left.d, hzero, hleft left.x, hzero, hleft left.e⟩, ⟨⟨fun _ => rfl, fun _ => rfl⟩, fun _ => rfl⟩,
    ⟨Nat.zero_le _, Nat.zero_le _, Nat.le_of_lt_succ left.len.isLt⟩, workOk_of_idle rfl⟩

/-! ### The statement -/

/-- Settles O3: one case for each kind of step, from the state with the host's action used up. -/
theorem stepKeepsTheInvariant : Obligations.StepKeepsTheInvariant := by
  intro s t hi h
  have hu (rest : List HostAction) : ({ s with host := rest } : State).Inv := inv_of_host rest hi
  rcases step_cases h with ⟨hw, _⟩ | ⟨rest, _, rfl⟩ | ⟨input, left, rest, _, rfl⟩ | ⟨w, rest, _, hw⟩ |
    ⟨n, v, rest, _, _, rfl⟩ | ⟨n, rest, _, rfl⟩ | ⟨j, b, rest, _, rfl⟩ | ⟨j, rest, _, rfl⟩
  · exact work_inv (hu _) hw
  · exact hu rest
  · exact applyReset_inv input left { s with host := rest }
  · exact issue_inv (hu rest) hw
  · exact writeConfig_inv n v (hu rest)
  · exact hu rest
  · exact writePort_inv j b (hu rest)
  · exact readPort_inv j (hu rest)

end Sys2Proof.Machine
end

section
/-! PROOFS. The encoding family (30_encoding.md): decode and encode are inverse to each other on records and on commands, a
header alone gives the kind and the length of its record, and a CMD value that selects no command raises BADCMD. -/

namespace Sys2Proof.Machine

/-! ### Records -/

/-- The bytes of the stream are those of records (R62, R63); the commands are values of CMD (R72). -/
theorem encode_of_isRecord {i : Instr} (hr : i.isRecord = true) : encode i = .stream (recordBytes i) := by
  cases i with
  | run | lit => rfl
  | nop | decFrame | encFrame | clear => cases hr

/-- Decoding answers with a well-formed record only, and with the bytes that stand after its own. -/
theorem recordBytes_append_of_decodeRecord {bs : List Byte} {i : Instr} {rest : List Byte}
    (h : decodeRecord bs = .ok (i, rest)) :
    i.wf = true ∧ i.isRecord = true ∧ recordBytes i ++ rest = bs := by
  rcases decodeRecord_cases bs with ⟨_, hd⟩ | ⟨c, _, hd⟩ | ⟨c, v, after, hbs, hd⟩ | ⟨c, present, _, _, hd⟩ |
    ⟨raw, after, hbs, hlen, hd⟩ <;> rw [hd] at h <;> cases h
  case inr.inr.inl => exact ⟨rfl, rfl, hbs.symm⟩
  case inr.inr.inr.inr => exact ⟨wf_lit.mpr hlen, rfl, hbs.symm⟩

/-! ### The header -/

/-- Below 0x80 the header is that of a RUN, and its value is the count (R66). -/
theorem decodeRecord_of_header_lt {h : Byte} (hh : h.toNat < 128) (v : Byte) (rest : List Byte) :
    decodeRecord (h :: v :: rest) = .ok (.run (BitVec.ofNat 7 h.toNat) v, rest) := by
  have hk : kindBit h = false := by simpa [kindBit_eq] using hh
  have hc : BitVec.ofNat 7 h.toNat = countField h := BitVec.ofNat_toNat 7 h
  rw [hc, ← decodeRecord_run, runHeader_countField h hk]

/-- From 0x80 on the header is that of a LIT, and its value less 128 is the count (R66). -/
theorem decodeRecord_of_header_ge {h : Byte} (hh : 128 ≤ h.toNat) {after : List Byte}
    (hlen : h.toNat - 128 ≤ after.length) :
    decodeRecord (h :: after) = .ok (.lit (after.take (h.toNat - 128)), after.drop (h.toNat - 128)) := by
  have hk : kindBit h = true := by simpa [kindBit_eq] using hh
  have hc : (countField h).toNat = h.toNat - 128 := by rw [countField_toNat]; omega
  simp [decodeRecord, decodeLit, hk, hc, hlen]

theorem msb_runHeader (c : BitVec 7) : (runHeader c).msb = false := kindBit_runHeader c

theorem msb_litHeader (c : BitVec 7) : (litHeader c).msb = true := kindBit_litHeader c

/-- The mask 0x7F of R64 takes the count out of a LIT header. -/
theorem litHeader_and_mask (c : BitVec 7) : (litHeader c &&& 0x7F#8).toNat = c.toNat := by
  revert c; decide

/-- The length of a record is read off its first byte (R64). -/
theorem length_recordBytes_of_header {i : Instr} (hr : i.isRecord = true) (hw : i.wf = true) {h : Byte} {tail : List Byte}
    (hi : recordBytes i = h :: tail) :
    (recordBytes i).length = if h.msb then 1 + (h &&& 0x7F#8).toNat else 2 := by
  cases i with
  | run c v =>
    obtain ⟨rfl, -⟩ := List.cons.inj hi
    rw [msb_runHeader]; rfl
  | lit raw =>
    obtain ⟨rfl, -⟩ := List.cons.inj hi
    rw [msb_litHeader, litHeader_and_mask, litCount_length hw, recordBytes_lit, List.length_cons]
    simp [Nat.add_comm]
  | nop | decFrame | encFrame | clear => cases hr

/-! ### Commands -/

/-- A value of CMD that selects a command is the one that command is encoded as (R72). -/
theorem encode_of_decodeCommand {w : Word} {i : Instr} (h : decodeCommand w = .ok i) : encode i = .command w := by
  rcases decodeCommand_cases w with ⟨rfl, hd⟩ | ⟨rfl, hd⟩ | ⟨rfl, hd⟩ | ⟨rfl, hd⟩ | ⟨_, hd⟩ <;>
    rw [hd] at h <;> cases h <;> rfl

/-- A value of 4 or more selects no command, all 32 bits being compared (R72). -/
theorem decodeCommand_of_four_le {w : Word} (hw : 4 ≤ w.toNat) : decodeCommand w = .error (.badCommand w) := by
  rcases decodeCommand_cases w with ⟨rfl, _⟩ | ⟨rfl, _⟩ | ⟨rfl, _⟩ | ⟨rfl, _⟩ | ⟨_, hd⟩
  case inr.inr.inr.inr => exact hd
  all_goals exact absurd hw (by decide)

/-- The host's write to CMD is the issue of the value written, the write used up (10_state.md R31). -/
theorem step_writeCmd {s : State} {w : Word} {rest : List HostAction} (h : s.host = .writeReg 2 w :: rest) :
    step s = issue w { s with host := rest } := by
  rw [step_cons h, hostAct, writeRegister, if_pos rfl]

/-- A value that selects no command, written where commands are accepted, raises BADCMD (R72; 60_exceptions.md R154). -/
theorem issue_of_four_le {w : Word} {s : State} (hw : 4 ≤ w.toNat) (ha : s.accepts = true) :
    issue w s = .next (takeFault .badCmd s) := by
  simp only [issue, decodeCommand_of_four_le hw, badCommand, whenAccepting_of ha]

/-! ### The statements -/

/-- Settles O6: a record stands at the front of its own bytes, and a command is one of four values of CMD. -/
theorem decodeOfEncodeIsTheInstruction : Obligations.DecodeOfEncodeIsTheInstruction := by
  intro i hw
  cases hr : i.isRecord with
  | true =>
    have hdec := decodeRecord_recordBytes hr hw
    rw [encode_of_isRecord hr]
    refine ⟨by simpa [decode] using hdec [], fun bytes rest hbytes => ?_⟩
    cases hbytes
    exact hdec rest
  | false =>
    cases i with
    | run | lit => cases hr
    | nop | decFrame | encFrame | clear => exact ⟨rfl, fun bytes rest hbytes => by cases hbytes⟩

/-- Settles O7: what the two decoders answer, by what they were given. -/
theorem encodeOfDecodeIsTheCode : Obligations.EncodeOfDecodeIsTheCode := by
  refine ⟨fun bs i rest h => ?_, fun w i h => ⟨decodeCommand_isRecord h, encode_of_decodeCommand h⟩⟩
  obtain ⟨hw, hr, hbytes⟩ := recordBytes_append_of_decodeRecord h
  exact ⟨hw, hr, encode_of_isRecord hr, hbytes⟩

/-- Settles O8: 127 bytes after the header are enough for every count. -/
theorem everyHeaderSelectsARecord : Obligations.EveryHeaderSelectsARecord := by
  intro h after hafter
  refine ⟨fun hh => ?_, fun hh => ?_⟩
  · obtain ⟨v, rest, rfl⟩ := List.exists_cons_of_length_pos (l := after) (by omega)
    have hc : (BitVec.ofNat 7 h.toNat).toNat = h.toNat := by rw [BitVec.toNat_ofNat]; exact Nat.mod_eq_of_lt hh
    exact ⟨v, rest, rfl, decodeRecord_of_header_lt hh v rest, by rw [payload, hc]⟩
  · have hlen : h.toNat - 128 ≤ after.length := by have := h.isLt; omega
    exact ⟨decodeRecord_of_header_ge hh hlen, rfl, List.length_take_of_le hlen⟩

/-- Settles O9: the record's own bytes begin with the header, which gives their number. -/
theorem headerGivesTheRecordLength : Obligations.HeaderGivesTheRecordLength := by
  intro h after i rest hd
  obtain ⟨hw, hr, hbytes⟩ := recordBytes_append_of_decodeRecord hd
  obtain ⟨b, tail, hi⟩ := List.exists_cons_of_length_pos (recordBytes_ne_nil hr)
  obtain rfl : b = h := by rw [hi] at hbytes; exact (List.cons.inj hbytes).1
  have hlen := length_recordBytes_of_header hr hw hi
  exact ⟨by rw [← hlen, ← hbytes, List.drop_left], hlen⟩

/-- Settles O5: each word by the law of its record kind or of its command. -/
theorem writtenOutWordsDecode : Obligations.WrittenOutWordsDecode :=
  ⟨decodeRecord_run 4#7 0x00#8 [], decodeRecord_run 127#7 0xAA#8 [0x03#8], decodeRecord_lit (raw := []) [0x41#8] (by decide),
    decodeRecord_lit (raw := [0xFF#8, 0x00#8]) [] (by decide), rfl, rfl⟩

/-- Settles O10: the table by definition, and BADCMD for every value beyond it. -/
theorem commandCodesAreTheTables : Obligations.CommandCodesAreTheTables := by
  refine ⟨rfl, rfl, rfl, rfl, fun w hw => ⟨decodeCommand_of_four_le hw, fun s rest hs ha => ?_⟩⟩
  have hstep : step s = .next (takeFault .badCmd { s with host := rest }) := by
    rw [step_writeCmd hs]; exact issue_of_four_le hw ha
  exact ⟨_, hstep, rfl, rfl⟩

end Sys2Proof.Machine
end

section
/-! PROOFS. The decoder family (40_decoder.md): RLE_decode takes the records of a stream one by one (R84), so it accepts every
well-formed frame, undoes RLE_encode and detects a stream cut short (R89); and a record step of the machine is the pseudocode of
R80 to R82, which keeps the loop invariants of R85. -/

namespace Sys2Proof.Machine

/-! ### RLE_decode and what is decoded already -/

/-- The bytes decoded already pass through RLE_decode: they only stand before what it still gives (40_decoder.md R84). -/
theorem decFrom_append (k : Nat) (ahead : List Byte) (s n : Nat) (pre out : List Byte) :
    decFrom k ahead s (pre.length + n) (pre ++ out) = (decFrom k ahead s n out).map (Prod.map (pre ++ ·) id) := by
  induction k generalizing ahead s out with
  | zero => rfl
  | succ k ih =>
    by_cases ho : out.length = n
    · subst ho
      rw [← List.length_append, decFrom_done, decFrom_done]; rfl
    · have ho' : (pre ++ out).length ≠ pre.length + n := by rw [List.length_append]; omega
      have hroom : pre.length + n - (pre ++ out).length = n - out.length := by rw [List.length_append]; omega
      rcases decFrom_cases k s n ahead out ho with ⟨i, after, rfl, hr, hw, hp, he⟩ | ⟨⟨h, rest, rfl, hc⟩, he⟩ | ⟨ha, he⟩ <;>
        rw [he]
      · rw [decFrom_record k s _ hr hw ho' (by rwa [hroom]), List.append_assoc, ih]
      · rw [decFrom_overrun k s _ ho' (by rwa [hroom])]; rfl
      · rcases ha with rfl | ⟨c, rfl, hc⟩ | ⟨c, present, rfl, hl, hc⟩
        · rw [decFrom_nil _ _ _ ho']; rfl
        · rw [decFrom_noValue k s _ ho' (by rwa [hroom])]; rfl
        · rw [decFrom_shortRaw k s _ ho' (by rwa [hroom]) hl]; rfl

/-- RLE_decode is `decFrom` on the bytes ahead with any number of turns above their number. -/
theorem decFrom_eq_rleDecode {k : Nat} {T ahead : List Byte} {s : Nat} (n : Nat) (ha : T.drop s = ahead)
    (hk : ahead.length < k) : decFrom k ahead s n [] = rleDecode T s n := by
  subst ha
  exact decFrom_turns s n [] hk (Nat.lt_succ_self _)

/-- A first record that fits contributes its payload, and the rest is decoded after it (R84). -/
theorem rleDecode_record {T after : List Byte} {s n : Nat} {i : Instr} (hd : decodeRecord (T.drop s) = .ok (i, after))
    (hn : 0 < n) (hp : (payload i).length ≤ n) :
    rleDecode T s n =
      (rleDecode T (s + (recordBytes i).length) (n - (payload i).length)).map (Prod.map (payload i ++ ·) id) := by
  obtain ⟨hw, hr, hbytes⟩ := recordBytes_append_of_decodeRecord hd
  have hafter : T.drop (s + (recordBytes i).length) = after := by rw [← List.drop_drop, ← hbytes, List.drop_left]
  have ho : ([] : List Byte).length ≠ n := hn.ne
  have hlen : after.length < (T.drop s).length := by
    have := recordBytes_ne_nil hr
    rw [← hbytes, List.length_append]; omega
  calc rleDecode T s n
      = decFrom (T.drop s).length after (s + (recordBytes i).length) n (payload i) := by
        rw [rleDecode]
        conv_lhs => rw [← hbytes]
        rw [decFrom_record _ s n hr hw ho hp, hbytes, List.nil_append]
    _ = (decFrom (T.drop s).length after (s + (recordBytes i).length) (n - (payload i).length) []).map
          (Prod.map (payload i ++ ·) id) := by
        rw [← decFrom_append, List.append_nil, Nat.add_sub_cancel' hp]
    _ = _ := by rw [decFrom_eq_rleDecode _ hafter hlen]

/-- A stream that ends inside its first record, whose count is not too large, gives TRUNCATED (R84). -/
theorem rleDecode_truncated {T : List Byte} {s n : Nat} {r : Reject} (hd : decodeRecord (T.drop s) = .error r) (hn : 0 < n)
    (hc : ∀ h after, T.drop s = h :: after → h.toNat % 128 ≤ n) : rleDecode T s n = .error .truncated := by
  have ho : ([] : List Byte).length ≠ n := hn.ne
  rw [rleDecode]
  rcases decodeRecord_cases (T.drop s) with ⟨ha, _⟩ | ⟨c, ha, _⟩ | ⟨_, _, _, _, hok⟩ | ⟨c, present, ha, hl, _⟩ |
    ⟨_, _, _, _, hok⟩
  · rw [ha, decFrom_nil _ _ _ ho]
  · have hcn := hc _ _ ha
    rw [runHeader_toNat, Nat.mod_eq_of_lt c.isLt] at hcn
    rw [ha, decFrom_noValue _ _ _ ho hcn]
  · rw [hok] at hd; cases hd
  · have hcn := hc _ _ ha
    rw [litHeader_toNat, Nat.add_mod_left, Nat.mod_eq_of_lt c.isLt] at hcn
    rw [ha, decFrom_shortRaw _ _ _ ho hcn hl]
  · rw [hok] at hd; cases hd

/-! ### Frames as lists of records -/

/-- The last of the records is the one that completes the frame: the total length of the payloads is reached by none before it. -/
def CompletedByLast (rs : List Instr) : Prop :=
  ∀ j, j < rs.length → (payloadOf (rs.take j)).length < (payloadOf rs).length

theorem CompletedByLast.payloadOf_pos {i : Instr} {rs : List Instr} (h : CompletedByLast (i :: rs)) :
    0 < (payloadOf (i :: rs)).length := h 0 (Nat.succ_pos _)

theorem CompletedByLast.tail {i : Instr} {rs : List Instr} (h : CompletedByLast (i :: rs)) : CompletedByLast rs := by
  intro j hj
  simpa using h (j + 1) (Nat.succ_lt_succ hj)

theorem CompletedByLast.eq_nil {rs : List Instr} (h : CompletedByLast rs) (hp : payloadOf rs = []) : rs = [] := by
  cases rs with
  | nil => rfl
  | cons i rs => exact absurd hp (List.ne_nil_of_length_pos h.payloadOf_pos)

theorem streamOf_take_append_drop (rs : List Instr) (m : Nat) :
    streamOf (rs.take m) ++ streamOf (rs.drop m) = streamOf rs := by
  rw [← streamOf_append, List.take_append_drop]

theorem payloadOf_take_append_drop (rs : List Instr) (m : Nat) :
    payloadOf (rs.take m) ++ payloadOf (rs.drop m) = payloadOf rs := by
  rw [← payloadOf_append, List.take_append_drop]

/-- Where no payload is empty each record adds to the total. -/
theorem completedByLast_of_payload_ne_nil {rs : List Instr} (h : ∀ i ∈ rs, payload i ≠ []) : CompletedByLast rs := by
  intro j hj
  have hpos : 0 < (payload rs[j]).length := List.length_pos_of_ne_nil (h _ (List.getElem_mem hj))
  rw [← payloadOf_take_append_drop rs j, List.drop_eq_getElem_cons hj, payloadOf_cons, List.length_append,
    List.length_append]
  omega

theorem length_le_length_streamOf {rs : List Instr} (hr : ∀ i ∈ rs, i.isRecord = true) :
    rs.length ≤ (streamOf rs).length := by
  induction rs with
  | nil => exact Nat.le_refl _
  | cons i rs ih =>
    obtain ⟨hi, hrs⟩ := List.forall_mem_cons.mp hr
    have hpos := recordBytes_ne_nil hi
    have := ih hrs
    rw [streamOf_cons, List.length_append, List.length_cons]
    omega

/-- The records of a frame, at any place of any stream, decode to their payloads, and what stands after the last is left unread
(R89). -/
theorem rleDecode_records (before after : List Byte) {rs : List Instr} (hr : ∀ i ∈ rs, i.isRecord = true ∧ i.wf = true)
    (hc : CompletedByLast rs) :
    rleDecode (before ++ (streamOf rs ++ after)) before.length (payloadOf rs).length
      = .ok (payloadOf rs, before.length + (streamOf rs).length) := by
  have hlen := length_le_length_streamOf fun i hi => (hr i hi).1
  have hdec := decFrom_records rs ((streamOf rs ++ after).length + 1) before.length [] after hr hc
    (by rw [List.length_append]; omega)
  rw [List.length_nil, Nat.zero_add, List.nil_append] at hdec
  rw [rleDecode, List.drop_left, hdec]

/-- A record cut short, whose count would fit, gives TRUNCATED (R151). -/
theorem decFrom_take_recordBytes (k s n j : Nat) {i : Instr} {out : List Byte} (hr : i.isRecord = true) (hw : i.wf = true)
    (ho : out.length ≠ n) (hp : (payload i).length ≤ n - out.length) (hj : j < (recordBytes i).length) :
    decFrom (k + 1) ((recordBytes i).take j) s n out = .error .truncated := by
  cases j with
  | zero => exact decFrom_nil _ s n ho
  | succ j =>
    cases i with
    | run c v =>
      obtain rfl : j = 0 := by simpa [recordBytes] using hj
      exact decFrom_noValue k s n ho (by simpa [payload] using hp)
    | lit raw =>
      have hcount := litCount_length hw
      have hj : j < raw.length := by simpa [recordBytes] using hj
      exact decFrom_shortRaw k s n ho (by rwa [hcount]) (by rw [hcount, List.length_take]; omega)
    | nop | decFrame | encFrame | clear => cases hr

/-- A frame cut anywhere before the end of its last record gives TRUNCATED, whatever number of turns is allowed (R89). -/
theorem decFrom_take_streamOf {rs : List Instr} (hr : ∀ i ∈ rs, i.isRecord = true ∧ i.wf = true) (hc : CompletedByLast rs)
    (k s j : Nat) (out : List Byte) (hj : j < (streamOf rs).length) :
    decFrom k ((streamOf rs).take j) s (out.length + (payloadOf rs).length) out = .error .truncated := by
  induction rs generalizing k s j out with
  | nil => exact absurd hj (Nat.not_lt_zero j)
  | cons i rs ih =>
    cases k with
    | zero => rfl
    | succ k =>
      obtain ⟨⟨hri, hwi⟩, hrs⟩ := List.forall_mem_cons.mp hr
      have hpos := hc.payloadOf_pos
      have ho : out.length ≠ out.length + (payloadOf (i :: rs)).length := by omega
      have hp : (payload i).length ≤ out.length + (payloadOf (i :: rs)).length - out.length := by simp
      rw [streamOf_cons] at hj ⊢
      by_cases hcut : j < (recordBytes i).length
      · rw [List.take_append_of_le_length hcut.le]
        exact decFrom_take_recordBytes k s _ j hri hwi ho hp hcut
      · have hrest := ih hrs hc.tail k (s + (recordBytes i).length) (j - (recordBytes i).length) (out ++ payload i)
          (by rw [List.length_append] at hj; omega)
        rw [List.take_append, List.take_of_length_le (Nat.le_of_not_lt hcut), decFrom_record k s _ hri hwi ho hp]
        rwa [List.length_append, Nat.add_assoc, ← List.length_append, ← payloadOf_cons] at hrest

/-! ### The statements about the pure codec -/

/-- Settles O47: the first `m` records are a frame completed by its last, and what follows them has no payload. -/
theorem everyWellFormedFrameIsAccepted : Obligations.EveryWellFormedFrameIsAccepted := by
  intro before after rs m hr hm htotal hbefore
  have hrest : payloadOf (rs.drop m) = [] := by
    have hlen := congrArg List.length (payloadOf_take_append_drop rs m)
    rw [List.length_append] at hlen
    exact List.length_eq_zero_iff.mp (by omega)
  have hpayload : payloadOf rs = payloadOf (rs.take m) := by
    rw [← payloadOf_take_append_drop rs m, hrest, List.append_nil]
  have hc : CompletedByLast (rs.take m) := by
    intro j hj
    have hjm : j < m := by rw [List.length_take] at hj; omega
    rw [List.take_take, Nat.min_eq_left hjm.le, htotal]
    exact hbefore j hjm
  rw [← streamOf_take_append_drop rs m, hpayload, List.append_assoc, List.append_assoc]
  exact rleDecode_records before _ (fun i hi => hr i (List.mem_of_mem_take hi)) hc

/-- Settles O46: the encoder's records but for an empty tail are a frame completed by its last record, since none of them is
empty. -/
theorem roundTripReturnsTheSequence : Obligations.RoundTripReturnsTheSequence := by
  intro S
  obtain ⟨rs, tail, hrec, htail, rfl, hshape⟩ := encRecords_shape (S.length + 1) S (Nat.lt_succ_self _)
  change rleRecords _ = _ at hrec
  have hrs : ∀ i ∈ rs, (i.isRecord = true ∧ i.wf = true) ∧ payload i ≠ [] := by
    intro i hi
    rcases hshape i hi with ⟨c, v, rfl, hc⟩ | ⟨raw, rfl, hraw, hmax⟩
    · exact ⟨⟨rfl, rfl⟩, List.ne_nil_of_length_pos (by simp [payload]; omega)⟩
    · exact ⟨⟨rfl, wf_lit.mpr hmax⟩, List.ne_nil_of_length_pos (by simp [payload]; omega)⟩
  have hbytes : rleEncode (payloadOf rs ++ tail) = streamOf rs ++ recordBytes (.lit tail) := by
    rw [rleEncode, hrec, streamOf_append, streamOf_cons, streamOf_nil, List.append_nil]
  have hfull : CompletedByLast rs := completedByLast_of_payload_ne_nil fun i hi => (hrs i hi).2
  by_cases ht : tail = []
  · subst ht
    have hdec := rleDecode_records [] (recordBytes (.lit [])) (fun i hi => (hrs i hi).1) hfull
    rw [List.nil_append, List.length_nil, Nat.zero_add] at hdec
    rw [hrec, hbytes, List.append_nil, hdec]
    by_cases hS : payloadOf rs = []
    · rw [if_pos hS, hfull.eq_nil hS]; rfl
    · simp [hS, recordBytes]
  · have hall : ∀ i ∈ rs ++ [.lit tail], (i.isRecord = true ∧ i.wf = true) ∧ payload i ≠ [] := by
      have htailwf : (Instr.lit tail).wf = true := wf_lit.mpr (by omega)
      exact List.forall_mem_append.mpr ⟨hrs, List.forall_mem_singleton.mpr ⟨⟨rfl, htailwf⟩, ht⟩⟩
    have hdec := rleDecode_records [] [] (fun i hi => (hall i hi).1)
      (completedByLast_of_payload_ne_nil fun i hi => (hall i hi).2)
    have hpayload : payloadOf (rs ++ [.lit tail]) = payloadOf rs ++ tail := by simp [payload]
    rw [hpayload, List.nil_append, List.append_nil, List.length_nil, Nat.zero_add, ← hrec, ← rleEncode] at hdec
    rw [hdec, hrec]
    simp [ht]

/-- Settles O48: RLE_decode of the records cut short, by induction on them. -/
theorem truncationIsDetected : Obligations.TruncationIsDetected := by
  intro rs k hr hc hk
  have h := decFrom_take_streamOf hr hc (((streamOf rs).take k).length + 1) 0 k [] hk
  rwa [List.length_nil, Nat.zero_add] at h

/-- Settles O52: one turn of RLE_decode by what the stream holds at `s`. -/
theorem decodingFollowsItsRecursion : Obligations.DecodingFollowsItsRecursion := by
  intro T s n
  refine ⟨decFrom_done _ _ s [], fun i after hd hn hp => ?_, fun h after ha hn hc => ?_, fun r hd hn hc =>
    rleDecode_truncated hd hn hc⟩
  · rw [rleDecode_record hd hn hp]
    cases rleDecode T (s + (recordBytes i).length) (n - (payload i).length) <;> rfl
  · rw [rleDecode, ha]
    exact decFrom_overrun _ s n hn.ne hc

/-! ### RUN and LIT as instructions -/

theorem exec_run (c : BitVec 7) (v : Byte) (s : State) : exec (.run c v) s = whenRecordEnabled s (runRecord c v s) := rfl

theorem exec_lit {raw : List Byte} (hw : (Instr.lit raw).wf = true) (s : State) :
    exec (.lit raw) s = whenRecordEnabled s (litRecord raw s) := if_pos hw

theorem exec_lit_illFormed {raw : List Byte} (hw : (Instr.lit raw).wf = false) (s : State) :
    exec (.lit raw) s = .refused .illFormed := if_neg (by simp [hw])

theorem whenRecordEnabled_not {s t : State} (he : s.recordEnabled = false) :
    whenRecordEnabled s t = .refused .recordNotEnabled := by
  simp [whenRecordEnabled, he]

theorem whenRecordEnabled_beyond {s t : State} (he : s.recordEnabled = true) (h : s.nmax < s.frameLen) :
    whenRecordEnabled s t = .fault .bufferRange := by
  simp [whenRecordEnabled, withinCapacity, he, h]

/-- While DEC has bytes missing and the stream holds a whole record, a step of work is the meaning of that record (R80). -/
theorem work_of_decodeRecord {s : State} {i : Instr} {after : List Byte} (hr : s.running = some .dec)
    (hp : s.pos < s.frameLen) (hd : decodeRecord s.ahead = .ok (i, after)) : work s = exec i s := by
  simp only [work, hr, if_pos hp, recordFetch, hd]

/-- With the host making no access, a step where a record is enabled is the record step (R80). -/
theorem step_record {s : State} (he : s.recordEnabled = true) (hn : s.frameLen ≤ s.nmax) (hh : s.host = []) :
    step s = .next (recordTurn s) := by
  rw [step_nil hh, work_record he hn]

/-! ### Records the stream ends inside of -/

theorem recordTurn_of_decoded {s : State} {i : Instr} {after : List Byte} (hd : decodeRecord s.ahead = .ok (i, after)) :
    recordTurn s = recordEffect i s := by
  simp only [recordTurn, hd]

theorem recordTurn_of_rejected {s : State} {r : Reject} (hd : decodeRecord s.ahead = .error r) :
    recordTurn s = recordCut r s := by
  simp only [recordTurn, hd]

/-- Where the stream has a byte ahead, the bytes ahead are those from SP to the end of IN (20_memory.md R41). -/
theorem sp_add_length_ahead {s : State} {b : Byte} {rest : List Byte} (ha : s.ahead = b :: rest) :
    s.sp + 1 + rest.length = s.input.length := by
  have hlen := congrArg List.length ha
  rw [State.ahead, List.length_drop, List.length_cons] at hlen
  omega

theorem loadHeader_runHeader (c : BitVec 7) (s : State) :
    loadHeader (runHeader c) s = { s with sp := s.sp + 1, hdr := runHeader c, cnt := c } := by
  rw [loadHeader, countField_runHeader]; rfl

theorem loadHeader_litHeader (c : BitVec 7) (s : State) :
    loadHeader (litHeader c) s = { s with sp := s.sp + 1, hdr := litHeader c, cnt := c } := by
  rw [loadHeader, countField_litHeader]; rfl

/-- The value byte is missing (R81): the header is read, and nothing of VAL, D and POS has moved. -/
theorem recordTurn_noValue {s : State} {c : BitVec 7} (ha : s.ahead = [runHeader c]) (hc : c.toNat ≤ s.room) :
    recordTurn s = { s with
      hdr := runHeader c, cnt := c, sp := s.input.length, cause := .truncated, fault := true, running := none } := by
  have hd : decodeRecord s.ahead = .error (.noValue c) := by rw [ha]; exact decodeRecord_noValue c
  rw [recordTurn_of_rejected hd, recordCut, recordStep_fits (by rwa [countField_runHeader]), loadHeader_runHeader,
    ← sp_add_length_ahead ha]
  rfl

/-- Raw bytes are missing (R82): those present are copied and counted. -/
theorem recordTurn_shortRaw {s : State} {c : BitVec 7} {present : List Byte} (ha : s.ahead = litHeader c :: present)
    (hl : present.length < c.toNat) (hc : c.toNat ≤ s.room) :
    recordTurn s = { s with
      hdr := litHeader c, cnt := c, sp := s.input.length, pos := s.pos + present.length
      d := Memory.writeAll s.d s.pos present, cause := .truncated, fault := true, running := none } := by
  have hd : decodeRecord s.ahead = .error (.shortRaw c present) := by rw [ha]; exact decodeRecord_shortRaw c hl
  rw [recordTurn_of_rejected hd, recordCut, recordStep_fits (by rwa [countField_litHeader]), loadHeader_litHeader,
    copyRaw_eq, ← sp_add_length_ahead ha]
  rfl

theorem litHeader_litCount {n : Nat} (h : n ≤ 127) : litHeader (litCount n) = BitVec.ofNat 8 (128 + n) := by
  apply BitVec.eq_of_toNat_eq
  rw [litHeader_toNat, litCount_toNat, BitVec.toNat_ofNat]
  omega

/-! ### The record step as written -/

theorem streamRead_nil {s : State} (ha : s.ahead = []) : streamRead s = none := by
  simp only [streamRead, ha]

theorem streamRead_cons {s : State} {b : Byte} {rest : List Byte} (ha : s.ahead = b :: rest) :
    streamRead s = some (b, advance s) := by
  simp only [streamRead, ha]

theorem ahead_advance {s : State} {b : Byte} {rest : List Byte} (ha : s.ahead = b :: rest) : (advance s).ahead = rest := by
  rw [State.ahead, advance_sp, advance_input, ← List.drop_drop, ← State.ahead, ha]; rfl

/-- Reading raw bytes one by one through StreamRead is copying them, as far as the stream holds them (R82). -/
theorem copyReads_eq (raw rest : List Byte) {s : State} (ha : s.ahead = raw ++ rest) (k : Nat) :
    copyReads (raw.length + k) s = copyReads k (copyRaw raw s) := by
  induction raw generalizing s with
  | nil => rw [List.length_nil, Nat.zero_add]; rfl
  | cons b raw ih =>
    rw [List.length_cons, Nat.succ_add, copyReads, streamRead_cons ha]
    exact ih (s := produce b (advance s)) (ahead_advance ha)

theorem ahead_copyRaw {raw rest : List Byte} {s : State} (ha : s.ahead = raw ++ rest) : (copyRaw raw s).ahead = rest := by
  rw [copyRaw_eq]
  show s.input.drop (s.sp + raw.length) = rest
  rw [← List.drop_drop, ← State.ahead, ha, List.drop_left]

theorem copyReads_truncated {s : State} (ha : s.ahead = []) {k : Nat} (hk : 0 < k) :
    copyReads k s = takeFault .truncated s := by
  obtain ⟨j, rfl⟩ := Nat.exists_eq_add_of_le' hk
  rw [copyReads, streamRead_nil ha]

theorem runReads_nil {s : State} (ha : s.ahead = []) : runReads s = takeFault .truncated s := by
  simp only [runReads, streamRead_nil ha]

theorem runReads_cons {s : State} {v : Byte} {rest : List Byte} (ha : s.ahead = v :: rest) :
    runReads s = produceRun v s.cnt.toNat (loadValue v s) := by
  simp only [runReads, streamRead_cons ha]; rfl

/-- The pseudocode after its header byte (R80): the count check, then the loop of LIT or RUN by bit 7. -/
theorem recordByReads_cons {s : State} {h : Byte} {rest : List Byte} (ha : s.ahead = h :: rest) :
    recordByReads s =
      recordStep h (fun u => if kindBit h then copyReads u.cnt.toNat u else runReads u) s := by
  rw [recordByReads, streamRead_cons ha]; rfl

/-- Two record steps with one header agree where their rules agree after it. -/
theorem recordStep_congr {h : Byte} {body body' : State → State} {s : State}
    (hb : body (loadHeader h s) = body' (loadHeader h s)) : recordStep h body s = recordStep h body' s := by
  rw [recordStep, recordStep, hb]

theorem recordByReads_run {s : State} {c : BitVec 7} {rest : List Byte} (ha : s.ahead = runHeader c :: rest) :
    recordByReads s = recordStep (runHeader c) runReads s := by
  rw [recordByReads_cons ha]
  exact recordStep_congr (by rw [kindBit_runHeader]; rfl)

theorem recordByReads_lit {s : State} {c : BitVec 7} {rest : List Byte} (ha : s.ahead = litHeader c :: rest) :
    recordByReads s = recordStep (litHeader c) (copyReads c.toNat) s := by
  rw [recordByReads_cons ha]
  exact recordStep_congr (by rw [kindBit_litHeader, loadHeader_cnt, countField_litHeader]; rfl)

/-- The machine's record step, which decodes first, is the pseudocode, which reads byte by byte (R80 to R82). -/
theorem recordTurn_eq_recordByReads (s : State) : recordTurn s = recordByReads s := by
  rcases decodeRecord_cases s.ahead with ⟨ha, hd⟩ | ⟨c, ha, hd⟩ | ⟨c, v, rest, ha, hd⟩ | ⟨c, present, ha, hl, hd⟩ |
    ⟨raw, rest, ha, hl, hd⟩
  · rw [recordTurn_of_rejected hd, recordByReads, streamRead_nil ha]; rfl
  · have hu : (loadHeader (runHeader c) s).ahead = [] := ahead_advance ha
    rw [recordTurn_of_rejected hd, recordByReads_run ha]
    exact recordStep_congr (runReads_nil hu).symm
  · have hu : (loadHeader (runHeader c) s).ahead = v :: rest := ahead_advance ha
    rw [recordTurn_of_decoded hd, recordByReads_run ha]
    exact recordStep_congr (body := fun t => produceRun v t.cnt.toNat (loadValue v t)) (runReads_cons hu).symm
  · have hu : (loadHeader (litHeader c) s).ahead = present ++ [] := by rw [List.append_nil]; exact ahead_advance ha
    obtain ⟨k, hk⟩ := Nat.exists_eq_add_of_lt hl
    rw [recordTurn_of_rejected hd, recordByReads_lit ha]
    refine recordStep_congr (body := fun t => takeFault .truncated (copyRaw present t)) ?_
    rw [hk, Nat.add_assoc, copyReads_eq present [] hu, copyReads_truncated (ahead_copyRaw hu) (Nat.succ_pos k)]
  · have hu : (loadHeader (litHeader (litCount raw.length)) s).ahead = raw ++ rest := ahead_advance ha
    rw [recordTurn_of_decoded hd, recordByReads_lit ha, litCount_length (wf_lit.mpr hl)]
    exact recordStep_congr (copyReads_eq raw rest hu 0).symm

/-! ### The loop invariants of DEC -/

/-- Writing bytes just after the first `p` elements of a buffer appends them to those elements. -/
theorem Memory.slice_writeAll (m : Memory) (p : Nat) (bs : List Byte) :
    Memory.slice (Memory.writeAll m p bs) 0 (p + bs.length) = Memory.slice m 0 p ++ bs := by
  apply List.ext_getElem
  · simp
  · intro j hj _
    have hj : j < p + bs.length := by simpa using hj
    by_cases hjp : j < p
    · simp [Memory.slice, Memory.read_writeAll, hjp, Nat.not_le.mpr hjp]
    · have hle : p ≤ j := Nat.le_of_not_lt hjp
      have hlt : j - p < bs.length := by omega
      simp [Memory.slice, Memory.read_writeAll, hle, hj, hlt]

/-- After a record step DEC still works only where the step executed a whole record that fits. -/
theorem exists_record_of_recordTurn_running {s : State} (h : (recordTurn s).running = some .dec) :
    ∃ i after, i.isRecord = true ∧ i.wf = true ∧ s.ahead = recordBytes i ++ after ∧ (payload i).length ≤ s.room := by
  rcases recordTurn_cases s with ⟨_, ht⟩ | ⟨_, _, _, _, ht⟩ | ⟨_, _, _, ht⟩ | ⟨_, _, _, _, _, ht⟩ |
    ⟨c, v, rest, ha, hc, _⟩ | ⟨raw, rest, ha, hl, hc, _⟩
  · rw [ht] at h; cases h
  · rw [ht] at h; cases h
  · rw [ht] at h; cases h
  · rw [ht] at h; cases h
  · exact ⟨.run c v, rest, rfl, rfl, ha, by simpa [payload] using hc⟩
  · exact ⟨.lit raw, rest, rfl, wf_lit.mpr hl, ha, hc⟩

/-- The loop invariants of R85 from `s`, where the frame began, to `t`: the records executed, SP at the end of the last of them,
their payloads in D below POS, and POS at most N. -/
def DecodedSince (s t : State) : Prop :=
  ∃ rs : List Instr, (∀ i ∈ rs, i.isRecord = true ∧ i.wf = true)
    ∧ s.ahead = streamOf rs ++ t.ahead
    ∧ t.sp = s.sp + (streamOf rs).length ∧ t.sp ≤ t.input.length ∧ t.pos ≤ t.frameLen
    ∧ Memory.slice t.d 0 t.pos = payloadOf rs

theorem decodedSince_beginDec {s : State} (h : s.sp ≤ s.input.length) : DecodedSince s (beginDec s) :=
  ⟨[], by simp, rfl, rfl, h, Nat.zero_le _, rfl⟩

/-- A record executed is one more record of the parse (R85). -/
theorem decodedSince_recordTurn {s t : State} (h : DecodedSince s t) (hr : (recordTurn t).running = some .dec) :
    DecodedSince s (recordTurn t) := by
  obtain ⟨rs, hrs, hahead, hsp, hle, hN, hslice⟩ := h
  obtain ⟨i, after, hri, hwi, ha, hfits⟩ := exists_record_of_recordTurn_running hr
  obtain ⟨_, _, _, ht⟩ := recordTurn_record hri hwi ha hfits
  have hlen : t.input.length - t.sp = (recordBytes i).length + after.length := by
    rw [← List.length_drop, ← List.length_append, ← ha]; rfl
  have hroom : t.room = t.frameLen - t.pos := rfl
  have hpos := recordBytes_ne_nil hri
  have hafter : t.input.drop (t.sp + (recordBytes i).length) = after := by
    rw [← List.drop_drop, ← State.ahead, ha, List.drop_left]
  rw [ht]
  refine ⟨rs ++ [i], List.forall_mem_append.mpr ⟨hrs, List.forall_mem_singleton.mpr ⟨hri, hwi⟩⟩, ?_, ?_, ?_, ?_, ?_⟩
  · show s.ahead = streamOf (rs ++ [i]) ++ t.input.drop (t.sp + (recordBytes i).length)
    rw [hahead, ha, hafter]; simp
  · show t.sp + (recordBytes i).length = s.sp + (streamOf (rs ++ [i])).length
    rw [hsp]; simp [Nat.add_assoc]
  · show t.sp + (recordBytes i).length ≤ t.input.length
    omega
  · show t.pos + (payload i).length ≤ t.frameLen
    omega
  · show Memory.slice (Memory.writeAll t.d t.pos (payload i)) 0 (t.pos + (payload i).length) = payloadOf (rs ++ [i])
    rw [Memory.slice_writeAll, hslice]; simp

/-- Every turn of DEC that does not end its command keeps the loop invariants. -/
theorem decodedSince_decTurn {s t : State} (h : DecodedSince s t) (hr : (decTurn t).running = some .dec) :
    DecodedSince s (decTurn t) := by
  by_cases hp : t.pos < t.frameLen
  · have ht : decTurn t = recordTurn t := if_pos hp
    rw [ht] at hr ⊢
    exact decodedSince_recordTurn h hr
  · have ht : decTurn t = commitTurn t := if_neg hp
    rw [ht] at hr
    cases hr

/-! ### The statements about the machine -/

/-- Settles O12: the host has no action left, or waits, so the step is one step of work. -/
theorem stepRunsTheDecodedRecord : Obligations.StepRunsTheDecodedRecord := by
  intro s i after hr hp hd
  refine ⟨fun hh => ?_, fun rest hh => ?_⟩
  · rw [step_nil hh, work_of_decodeRecord hr hp hd]
  · rw [step_cons hh, hostAct, work_of_decodeRecord (s := { s with host := rest }) hr hp hd]

/-- Settles O13: the closed forms of a RUN that fits and of one without its value byte. -/
theorem runProducesItsCount : Obligations.RunProducesItsCount := by
  intro s c he hn hc
  refine ⟨fun v => ⟨Memory.writeAll s.d s.pos (List.replicate c.toNat v), ?_, fun j => ?_⟩, fun hh ha => ?_⟩
  · rw [exec_run, whenRecordEnabled_ok he hn, runRecord_eq hc]; rfl
  · rw [Memory.read_writeAll, List.length_replicate]
    by_cases hj : s.pos ≤ j ∧ j < s.pos + c.toNat
    · have hlt : j - s.pos < c.toNat := by omega
      rw [if_pos hj, if_pos hj, List.getD_replicate _ hlt]
    · rw [if_neg hj, if_neg hj]
  · rw [step_record he hn hh, recordTurn_noValue ha hc]; rfl

/-- Settles O14: the closed forms of a LIT that fits and of one cut short. -/
theorem litCopiesItsBytes : Obligations.LitCopiesItsBytes := by
  intro s he hn
  refine ⟨fun raw hw hc => ⟨Memory.writeAll s.d s.pos raw, ?_, Memory.read_writeAll s.d s.pos raw⟩,
    fun c present hc hl hh ha => ⟨Memory.writeAll s.d s.pos present, ?_, Memory.read_writeAll s.d s.pos present⟩⟩
  · have hlen := wf_lit.mp hw
    rw [exec_lit hw, whenRecordEnabled_ok he hn, litRecord_eq hlen hc, litHeader_litCount hlen]; rfl
  · rw [step_record he hn hh, recordTurn_shortRaw ha hl hc]; rfl

/-- Settles O15: the record step the machine makes is the pseudocode's in every state. -/
theorem recordStepFollowsThePseudocode : Obligations.RecordStepFollowsThePseudocode := by
  intro s he hn hh
  rw [step_record he hn hh, recordTurn_eq_recordByReads]

/-- Settles O40: the loop invariants hold at the frame's beginning, and each turn that leaves the command in progress keeps
them. -/
theorem decodedSoFarIsInStaging : Obligations.DecodedSoFarIsInStaging := by
  rintro s t k _ hsp rfl hr
  exact decLoop_keeps (P := fun u => u.running = some .dec → DecodedSince s u)
    (fun u hu h => decodedSince_decTurn (h hu)) k (beginDec s) (fun _ => decodedSince_beginDec hsp) hr

/-- Settles O18: each stop by the guard that names it. -/
theorem recordsStopOnlyUnderAName : Obligations.RecordsStopOnlyUnderAName := by
  refine fun s => ⟨fun he => ⟨fun c v => ?_, fun raw hw => ?_⟩, fun raw hw => exec_lit_illFormed hw s,
    fun he hn => ⟨fun c v => ?_, fun raw hw => ?_⟩⟩
  · rw [exec_run, whenRecordEnabled_not he]
  · rw [exec_lit hw, whenRecordEnabled_not he]
  · rw [exec_run, whenRecordEnabled_beyond he hn]
  · rw [exec_lit hw, whenRecordEnabled_beyond he hn]

end Sys2Proof.Machine
end

section
/-! PROOFS. The encoder family (41_encoder.md): what each kind of iteration of the encoder loop emits (R101 to R104), the recursion
of RLE_encode over those iterations (R105), and what its records say of its size (R107 to R109). -/

namespace Sys2Proof.Machine

/-! ### Headers written as numbers -/

/-- A length up to 127 is its own count field (30_encoding.md R61, R65). -/
theorem runHeader_ofNat {n : Nat} (h : n ≤ 127) : runHeader (BitVec.ofNat 7 n) = BitVec.ofNat 8 n := by
  apply BitVec.eq_of_toNat_eq
  rw [runHeader_toNat, BitVec.toNat_ofNat, BitVec.toNat_ofNat]
  omega

theorem litHeader_litCount_eq_or {n : Nat} (h : n ≤ 127) : litHeader (litCount n) = 0x80#8 ||| BitVec.ofNat 8 n := by
  rw [litHeader, litCount, BitVec.setWidth_ofNat_of_le_of_lt (by decide) (by omega)]

/-! ### One iteration of the encoder loop -/

/-- Where the host makes no access, a step of ENC is one iteration. -/
theorem step_enc {s : State} (hr : s.running = some .enc) (hh : s.host = []) (hn : s.frameLen ≤ s.nmax) :
    step s = .next (encTurn s) := by
  rw [step_nil hh, work_enc hr hn]

theorem encTurn_tail {s : State} (h : s.rem < 3) : encTurn s = emitTail s := if_pos h

theorem encTurn_run {s : State} (h3 : 3 ≤ s.rem) (heq : s.look 0 = s.look 1 ∧ s.look 1 = s.look 2) :
    encTurn s = emitRun s := by
  rw [encTurn, if_neg h3.not_gt, if_pos heq]

theorem encTurn_lit {s : State} (h3 : 3 ≤ s.rem) (hne : ¬ (s.look 0 = s.look 1 ∧ s.look 1 = s.look 2)) :
    encTurn s = emitLit s := by
  rw [encTurn, if_neg h3.not_gt, if_neg hne]

/-- What ends a run (R102): the cap, the end of data, or a different byte. -/
theorem runLen_stops (s : State) : 127 ≤ s.runLen ∨ s.rem ≤ s.runLen ∨ s.look s.runLen ≠ s.look 0 := by
  obtain ⟨_, _, hstop⟩ := scanRun_spec s (s.look 0) 124 3
  exact hstop.elim (fun h => .inl (Nat.le_of_eq h.symm)) id

/-- `M` is where the extension of a literal from `len` bytes stops, and `L` the length it answers there: the cap, the end of
data, or a byte equal to the last one included, which is then given back (R103, R104). -/
def LitStops (s : State) (len M L : Nat) : Prop :=
  len ≤ M ∧ M ≤ 127 ∧ M ≤ s.rem
  ∧ (∀ k, len ≤ k → k < M → s.look k ≠ s.look (k - 1))
  ∧ ((M = 127 ∧ L = M) ∨ (M = s.rem ∧ L = M)
    ∨ (M < 127 ∧ M < s.rem ∧ s.look M = s.look (M - 1) ∧ L = M - 1))

/-- A byte that does not repeat the last one included moves the extension on by one. -/
theorem LitStops.of_succ {s : State} {len M L : Nat} (h : LitStops s (len + 1) M L) (hne : s.look len ≠ s.look (len - 1)) :
    LitStops s len M L := by
  obtain ⟨hM, h127, hrem, hno, hstop⟩ := h
  refine ⟨by omega, h127, hrem, fun k hk hkM => ?_, hstop⟩
  rcases Nat.eq_or_lt_of_le hk with rfl | hlt
  · exact hne
  · exact hno k hlt hkM

theorem scanLit_stops (s : State) (k len : Nat) (hk : len + k = 127) (hr : len ≤ s.rem) :
    ∃ M, LitStops s len M (scanLit s k len) := by
  induction k generalizing len with
  | zero => exact ⟨len, Nat.le_refl _, by omega, hr, by omega, .inl ⟨hk, rfl⟩⟩
  | succ k ih =>
    rw [scanLit]
    by_cases hmore : len < s.rem
    · rw [if_pos ⟨(by omega : len < 127), hmore⟩]
      by_cases hrep : s.look len = s.look (len - 1)
      · rw [if_pos hrep]
        exact ⟨len, Nat.le_refl _, by omega, hr, by omega, .inr (.inr ⟨by omega, hmore, hrep, rfl⟩)⟩
      · rw [if_neg hrep]
        obtain ⟨M, hM⟩ := ih (len + 1) (by omega) hmore
        exact ⟨M, hM.of_succ hrep⟩
    · rw [if_neg (fun h => hmore h.2)]
      exact ⟨len, Nat.le_refl _, by omega, hr, by omega, .inr (.inl ⟨by omega, rfl⟩)⟩

theorem litLen_stops {s : State} (h3 : 3 ≤ s.rem) : ∃ M, LitStops s 3 M s.litLen := scanLit_stops s 124 3 rfl h3

/-! ### The recursion of RLE_encode -/

theorem rleEncode_of_short {S : List Byte} (h : S.length < 3) : rleEncode S = recordBytes (.lit S) := by
  rw [rleEncode, rleRecords, encRecords, if_pos h, streamOf_cons, streamOf_nil, List.append_nil]

theorem rleEncode_of_startsRun {S : List Byte} (h3 : 3 ≤ S.length) (hs : startsRun S = true) :
    rleEncode S = BitVec.ofNat 8 (runLength (S.getD 0 0#8) S) :: S.getD 0 0#8
      :: rleEncode (S.drop (runLength (S.getD 0 0#8) S)) := by
  have hL := three_le_runLength h3 hs
  rw [rleEncode, rleRecords, encRecords, if_neg h3.not_gt, if_pos hs, streamOf_cons, recordBytes_run,
    runHeader_ofNat (runLength_le _ S).1, rleRecords_eq (by rw [List.length_drop]; omega)]
  rfl

theorem rleEncode_of_not_startsRun {S : List Byte} (h3 : 3 ≤ S.length) (hs : startsRun S = false) :
    rleEncode S = BitVec.ofNat 8 (128 + litLength S) :: S.take (litLength S) ++ rleEncode (S.drop (litLength S)) := by
  obtain ⟨h2, h127, hlen⟩ := litLength_spec h3
  have htake : (S.take (litLength S)).length = litLength S := List.length_take_of_le hlen
  rw [rleEncode, rleRecords, encRecords, if_neg h3.not_gt, if_neg (by simp [hs]), streamOf_cons, recordBytes_lit, htake,
    litHeader_litCount h127, rleRecords_eq (by rw [List.length_drop]; omega)]
  rfl

/-- `ext(L)` of R105: the extension of a literal from `L` bytes on, with the turns there are up to the cap. -/
def litExt (S : List Byte) (L : Nat) : Nat := litExtend S (128 - L) L

theorem litLength_eq_litExt (S : List Byte) : litLength S = litExt S 3 := rfl

theorem litExt_eq {S : List Byte} {L : Nat} (h : L ≤ 127) :
    litExt S L = if L = 127 ∨ L = S.length then L
      else if S.getD L 0#8 = S.getD (L - 1) 0#8 then L - 1 else litExt S (L + 1) := by
  have hturns : 128 - L = 128 - (L + 1) + 1 := by omega
  rw [litExt, hturns, litExtend]
  rfl

theorem runLength_replicate {n : Nat} (h : n ≤ 127) (v : Byte) : runLength v (List.replicate n v) = n :=
  Nat.le_antisymm (by simpa using (runLength_le v (List.replicate n v)).2)
    (le_runLength h (by simp) fun _ hj => List.getD_replicate _ hj)

/-! ### The size of an encoding -/

/-- Records before the tail cost at most one byte more for every two that they carry (R108, R109). -/
theorem length_streamOf_le {rs : List Instr}
    (hrs : ∀ i ∈ rs, (∃ c v, i = .run c v ∧ 3 ≤ c.toNat) ∨ ∃ raw, i = .lit raw ∧ 2 ≤ raw.length ∧ raw.length ≤ 127) :
    2 * (streamOf rs).length ≤ 3 * (payloadOf rs).length := by
  induction rs with
  | nil => exact Nat.le_refl _
  | cons i rs ih =>
    obtain ⟨hi, hrest⟩ := List.forall_mem_cons.mp hrs
    have := ih hrest
    have hone : 2 * (recordBytes i).length ≤ 3 * (payload i).length := by
      rcases hi with ⟨c, v, rfl, hc⟩ | ⟨raw, rfl, hraw, _⟩
      · simp only [recordBytes, payload, List.length_cons, List.length_nil, List.length_replicate]; omega
      · simp only [recordBytes, payload, List.length_cons]; omega
    rw [streamOf_cons, payloadOf_cons, List.length_append, List.length_append]
    omega

/-! ### The statements -/

/-- Settles O42: the scan's answer is the length, and the scan ends for one of its three reasons. -/
theorem runTakesTheEqualBytes : Obligations.RunTakesTheEqualBytes := by
  intro s hr hh hn h3 h01 h12
  have hrem : s.rem = s.frameLen - s.cur := rfl
  have h3' : 3 ≤ s.rem := by omega
  obtain ⟨_, hmin, hmax, hlen, hall⟩ := runLen_eq_runLength h3' h01 h12
  refine ⟨s.runLen, hmin, hmax, by omega, hall, ?_, ?_⟩
  · rcases runLen_stops s with h | h | h
    · exact .inl (by omega)
    · exact .inr (.inl (by omega))
    · exact .inr (.inr h)
  · rw [step_enc hr hh hn, encTurn_run h3' ⟨h01, h12⟩, emitRun_eq, runHeader_ofNat hmax]
    rfl

/-- Settles O43: the extension stops for one of its three reasons, by induction on the bytes it has still to look at. -/
theorem literalStopsBeforeARepeat : Obligations.LiteralStopsBeforeARepeat := by
  intro s hr hh hn h3 hne
  have hrem : s.rem = s.frameLen - s.cur := rfl
  have h3' : 3 ≤ s.rem := by omega
  have hprev : ∀ k, 3 ≤ k → Memory.read s.e (s.cur + k - 1) = s.look (k - 1) := fun k hk => by
    rw [State.look, Nat.add_sub_assoc (by omega)]
  obtain ⟨M, hM, h127, hlen, hno, hstop⟩ := litLen_stops h3'
  refine ⟨M, s.litLen, hM, h127, by omega, fun k hk hkM => ?_, ?_, ?_⟩
  · rw [hprev k hk]
    exact hno k hk hkM
  · rw [hprev M hM]
    rcases hstop with h | ⟨h, hL⟩ | ⟨hcap, hend, hrep, hL⟩
    · exact .inl h
    · exact .inr (.inl ⟨by omega, hL⟩)
    · exact .inr (.inr ⟨hcap, by omega, hrep, hL⟩)
  · rw [step_enc hr hh hn, encTurn_lit h3' hne, emitLit, emitLiteralOf_eq, litHeader_litCount (by omega)]
    rfl

/-- Settles O49: the shape of the records, and the last one's bytes written out. -/
theorem encodedRecordsTileTheSequence : Obligations.EncodedRecordsTileTheSequence := by
  intro S
  obtain ⟨rs, tail, hrec, htail, htile, hshape⟩ := encRecords_shape (S.length + 1) S (Nat.lt_succ_self _)
  change rleRecords S = _ at hrec
  refine ⟨rs, tail, hrec, htail, htile, ?_, hshape⟩
  rw [rleEncode, hrec, streamOf_append, streamOf_cons, streamOf_nil, List.append_nil, recordBytes_lit,
    litHeader_litCount (by omega)]

/-- Settles O50: the bound on the records before the tail, and one header for the tail; 127 equal bytes are one run. -/
theorem encodingSizeBound : Obligations.EncodingSizeBound := by
  refine ⟨fun S => ?_, fun v => ?_⟩
  · obtain ⟨rs, tail, _, _, rfl, hbytes, hshape⟩ := encodedRecordsTileTheSequence S
    have := length_streamOf_le hshape
    rw [hbytes, List.length_append, List.length_append, List.length_cons]
    omega
  · have hs : startsRun (List.replicate 127 v) = true := by simp [startsRun]
    have hv : (List.replicate 127 v).getD 0 0#8 = v := rfl
    rw [rleEncode_of_startsRun (by simp) hs, hv, runLength_replicate (Nat.le_refl _),
      List.drop_replicate, Nat.sub_self, List.replicate_zero, rleEncode_of_short (by decide)]
    rfl

/-- Settles O51: the encoder loop from any cursor, and one turn of RLE_encode by the first three bytes. -/
theorem encodingFollowsItsRecursion : Obligations.EncodingFollowsItsRecursion := by
  intro S
  refine ⟨fun s hr hc hS => ?_, fun h => ?_, fun v rest hS => ?_, fun a b c rest hS hne => ?_⟩
  · have hturns : s.rem / 2 + 1 ≤ s.encTurns := by simp only [State.rem, State.encTurns]; omega
    obtain ⟨len, hloop⟩ := encLoop_eq s.encTurns s hr hc hturns
    rw [hloop, ← hS]
    rfl
  · rw [rleEncode_of_short h, recordBytes_lit, litHeader_litCount_eq_or (by omega)]
  · have h3 : 3 ≤ S.length := by simp [hS]
    have hs : startsRun S = true := by simp [hS, startsRun_eq]
    have hv : S.getD 0 0#8 = v := by simp [hS]
    have hmin := three_le_runLength h3 hs
    have heq := rleEncode_of_startsRun h3 hs
    rw [hv] at hmin heq
    exact ⟨runLength v S, hmin, Nat.le_min.mpr (runLength_le v S), fun k => getD_of_lt_runLength,
      fun L hL hall => le_runLength (Nat.le_min.mp hL).1 (Nat.le_min.mp hL).2 hall, heq⟩
  · have h3 : 3 ≤ S.length := by simp [hS]
    have hs : startsRun S = false := by simpa [hS, startsRun_eq] using hne
    exact ⟨litExt S, fun L _ hL => litExt_eq (Nat.le_min.mp hL).1, rleEncode_of_not_startsRun h3 hs⟩

/-- Settles O41: the iteration with fewer than 3 bytes left emits them and ends the command. -/
theorem tailEndsTheEncoding : Obligations.TailEndsTheEncoding := by
  intro s hr hh hn hc h3
  have hrem : s.rem = s.frameLen - s.cur := rfl
  have hcur : s.cur + s.rem = s.frameLen := by omega
  rw [step_enc hr hh hn, encTurn_tail h3, emitTail_eq, litHeader_litCount_eq_or (by omega), hcur]
  rfl

end Sys2Proof.Machine
end

section
/-! PROOFS. The delta family (42_delta.md): ACCUMULATE undoes itself and commutes (R124), the step that commits (R121), and the
encoder and the decoder together (R125), each frame command in closed form over the pure codec. -/

namespace Sys2Proof.Machine

/-! ### ACCUMULATE -/

/-- Each byte is its own inverse under exclusive OR (R124), so a second commit of a delta takes back the first. -/
theorem Memory.accumulate_accumulate_same (n : Nat) {f : Memory} (d : Memory) (hf : f.wf) :
    Memory.accumulate n (Memory.accumulate n f d) d = f := by
  refine Memory.eq_of_read_eq (Memory.accumulate_wf d (Memory.accumulate_wf d hf)) hf fun a => ?_
  rw [Memory.read_accumulate, Memory.read_accumulate]
  by_cases ha : a < n
  · rw [if_pos ha, if_pos ha, BitVec.xor_assoc, BitVec.xor_self, BitVec.xor_zero]
  · rw [if_neg ha, if_neg ha]

/-- Exclusive OR is commutative and associative (R124), so the order of two commits does not matter. -/
theorem Memory.accumulate_right_comm (n : Nat) {f : Memory} (d d' : Memory) (hf : f.wf) :
    Memory.accumulate n (Memory.accumulate n f d) d' = Memory.accumulate n (Memory.accumulate n f d') d := by
  refine Memory.eq_of_read_eq (Memory.accumulate_wf d' (Memory.accumulate_wf d hf))
    (Memory.accumulate_wf d (Memory.accumulate_wf d' hf)) fun a => ?_
  simp only [Memory.read_accumulate]
  by_cases ha : a < n
  · simp only [if_pos ha, BitVec.xor_assoc, BitVec.xor_comm (Memory.read d a)]
  · simp only [if_neg ha]

/-! ### The frame commands in closed form -/

/-- ENC_FRAME on a legal configuration (43_commands.md R132): the difference is taken and its encoding appended. -/
theorem exec_encFrame {s : State} (ha : s.accepts = true) (hn : s.frameLen ≤ s.nmax) :
    ∃ len, exec .encFrame s = .next { beginEnc s with
      running := none, cur := s.frameLen, len := len
      out := s.out ++ rleEncode ((beginEnc s).lookAll s.frameLen) } := by
  have hturns : (beginEnc s).rem / 2 + 1 ≤ s.encTurns := Nat.le_refl _
  obtain ⟨len, hloop⟩ := encLoop_eq s.encTurns (beginEnc s) rfl (Nat.zero_le _) hturns
  exact ⟨len, by rw [execEncFrame_eq ha hn, hloop]; rfl⟩

/-- What ENC_FRAME encodes is the difference of the two frames (R123). -/
theorem beginEnc_lookAll_getD (s : State) {j : Nat} (hj : j < s.frameLen) :
    ((beginEnc s).lookAll s.frameLen).getD j 0#8 = Memory.read s.x j ^^^ Memory.read s.p j := by
  rw [lookAll_getD _ hj, State.look, beginEnc_cur, Nat.zero_add, beginEnc_e, Memory.read_difference, if_pos hj]

/-- DEC_FRAME on a legal configuration and a stream that RLE_decode accepts (43_commands.md R131): the decoded bytes are in D
below N and XORed into F there, and SP stands where RLE_decode ends. -/
theorem exec_decFrame_ok {s : State} {bytes : List Byte} {e : Nat} (ha : s.accepts = true) (hn : s.frameLen ≤ s.nmax)
    (hdec : rleDecode s.input s.sp s.frameLen = .ok (bytes, e)) :
    ∃ hdr cnt val d f, exec .decFrame s = .next { s with
        sp := e, pos := s.frameLen, hdr := hdr, cnt := cnt, val := val, d := d, f := f }
      ∧ (∀ j, Memory.read d j = if j < s.frameLen then bytes.getD j 0#8 else Memory.read s.d j)
      ∧ ∀ j, Memory.read f j =
          if j < s.frameLen then Memory.read s.f j ^^^ bytes.getD j 0#8 else Memory.read s.f j := by
  obtain ⟨hdr, cnt, val, d, hloop, _, hread⟩ := decLoop_ok s.decTurns (beginDec s) [] bytes e rfl rfl (Nat.zero_le _)
    (fun j hj => absurd hj (Nat.not_lt_zero j)) (Nat.le_refl _) hdec
  have hd {j : Nat} (hj : j < s.frameLen) : Memory.read d j = bytes.getD j 0#8 := (hread j).trans (if_pos hj)
  refine ⟨hdr, cnt, val, d, Memory.accumulate s.frameLen s.f d, ?_, hread, fun j => ?_⟩
  · rw [execDecFrame_eq ha hn, hloop, (accepts_iff.mp ha).1]; rfl
  · rw [Memory.read_accumulate]
    by_cases hj : j < s.frameLen
    · rw [if_pos hj, if_pos hj, hd hj]
    · rw [if_neg hj, if_neg hj]

/-! ### The encoder's bytes as a frame in a stream -/

/-- A record without payload before a frame that is not empty leaves it a frame completed by its last record. -/
theorem CompletedByLast.cons_empty {i : Instr} {rs : List Instr} (h : CompletedByLast rs) (hi : payload i = [])
    (hrs : payloadOf rs ≠ []) : CompletedByLast (i :: rs) := by
  intro j hj
  cases j with
  | zero => simpa [hi] using List.length_pos_of_ne_nil hrs
  | succ j => simpa [hi] using h j (Nat.lt_of_succ_lt_succ hj)

/-- A frame at the cursor of a stream decodes to its payloads, and what follows it stands at the index where RLE_decode ends
(40_decoder.md R87, R89). -/
theorem rleDecode_of_drop {T after : List Byte} {s : Nat} {rs : List Instr} (hT : T.drop s = streamOf rs ++ after)
    (hr : ∀ i ∈ rs, i.isRecord = true ∧ i.wf = true) (hc : CompletedByLast rs) :
    ∃ e, rleDecode T s (payloadOf rs).length = .ok (payloadOf rs, e) ∧ T.drop e = after := by
  have hlen := length_le_length_streamOf fun i hi => (hr i hi).1
  have hdec := decFrom_records rs ((streamOf rs ++ after).length + 1) s [] after hr hc
    (by rw [List.length_append]; omega)
  rw [List.length_nil, Nat.zero_add, List.nil_append] at hdec
  refine ⟨s + (streamOf rs).length, by rw [rleDecode, hT, hdec], ?_⟩
  rw [← List.drop_drop, hT, List.drop_left]

/-- The encoder's bytes are a frame of records, none of them empty, and at most an empty tail after it (41_encoder.md R107,
R108). -/
theorem exists_frame_of_rleEncode (S : List Byte) :
    ∃ rs emptyTail, rleEncode S = streamOf rs ++ emptyTail ∧ payloadOf rs = S ∧ (emptyTail = [] ∨ emptyTail = [0x80#8])
      ∧ (∀ i ∈ rs, i.isRecord = true ∧ i.wf = true) ∧ CompletedByLast rs := by
  obtain ⟨rs, tail, hrec, htail, htile, hbytes, hshape⟩ := encodedRecordsTileTheSequence S
  have hrs : ∀ i ∈ rs, (i.isRecord = true ∧ i.wf = true) ∧ payload i ≠ [] := by
    intro i hi
    rcases hshape i hi with ⟨c, v, rfl, hc⟩ | ⟨raw, rfl, hraw, hmax⟩
    · exact ⟨⟨rfl, rfl⟩, List.ne_nil_of_length_pos (by simp [payload]; omega)⟩
    · exact ⟨⟨rfl, wf_lit.mpr hmax⟩, List.ne_nil_of_length_pos (by simp [payload]; omega)⟩
  by_cases ht : tail = []
  · subst ht
    rw [List.append_nil] at htile
    exact ⟨rs, [0x80#8], hbytes, htile, .inr rfl, fun i hi => (hrs i hi).1,
      completedByLast_of_payload_ne_nil fun i hi => (hrs i hi).2⟩
  · have hall : ∀ i ∈ rs ++ [.lit tail], (i.isRecord = true ∧ i.wf = true) ∧ payload i ≠ [] :=
      List.forall_mem_append.mpr ⟨hrs, List.forall_mem_singleton.mpr ⟨⟨rfl, wf_lit.mpr (by omega)⟩, ht⟩⟩
    refine ⟨rs ++ [.lit tail], [], by rw [rleEncode, hrec, List.append_nil], ?_, .inl rfl, fun i hi => (hall i hi).1,
      completedByLast_of_payload_ne_nil fun i hi => (hall i hi).2⟩
    rw [payloadOf_append, payloadOf_cons, payloadOf_nil, List.append_nil]
    exact htile

/-- A leftover empty tail is consumed as a record without payload by the next frame's decoding (40_decoder.md R87), so RLE_decode
gives the sequence that was encoded after it and leaves at most the new empty tail. -/
theorem rleDecode_after_leftover {T leftover after S : List Byte} {s : Nat} (hl : leftover = [] ∨ leftover = [0x80#8])
    (hS : S ≠ []) (hT : T.drop s = leftover ++ rleEncode S ++ after) :
    ∃ e, rleDecode T s S.length = .ok (S, e) ∧ (T.drop e = after ∨ T.drop e = 0x80#8 :: after) := by
  obtain ⟨rs, emptyTail, hbytes, rfl, htail, hr, hc⟩ := exists_frame_of_rleEncode S
  have hframe : ∃ e, rleDecode T s (payloadOf rs).length = .ok (payloadOf rs, e) ∧ T.drop e = emptyTail ++ after := by
    rcases hl with rfl | rfl
    · exact rleDecode_of_drop (by rw [hT, hbytes, List.nil_append, List.append_assoc]) hr hc
    · have hempty : payload (.lit []) = [] := rfl
      have hT' : T.drop s = streamOf (.lit [] :: rs) ++ (emptyTail ++ after) := by
        rw [hT, hbytes, streamOf_cons, List.append_assoc, List.append_assoc, List.append_assoc]; rfl
      simpa [hempty] using rleDecode_of_drop hT' (List.forall_mem_cons.mpr ⟨⟨rfl, rfl⟩, hr⟩) (hc.cons_empty hempty hS)
  obtain ⟨e, hdec, hdrop⟩ := hframe
  refine ⟨e, hdec, ?_⟩
  rcases htail with rfl | rfl
  · exact .inl hdrop
  · exact .inr hdrop

/-! ### The statements -/

/-- Settles O53: RLE_decode gives back the difference E that ENC_FRAME encoded, and F = P turns it into X. -/
theorem encoderAndDecoderReproduceTheFrame : Obligations.EncoderAndDecoderReproduceTheFrame := by
  intro enc enc' dec leftover after haccE haccD hN hpos hfitE hfitD hfp henc hleft hstream
  obtain ⟨len, hencExec⟩ := exec_encFrame haccE hfitE
  obtain rfl := Host.Outcome.next.inj (hencExec.symm.trans henc)
  have hlen : ((beginEnc enc).lookAll enc.frameLen).length = dec.frameLen := by rw [lookAll_length, hN]
  have hne : (beginEnc enc).lookAll enc.frameLen ≠ [] := List.ne_nil_of_length_pos (by rwa [hlen])
  obtain ⟨e, hdec, hrest⟩ := rleDecode_after_leftover hleft hne (hstream.trans (by rw [List.drop_left]))
  rw [hlen] at hdec
  obtain ⟨hdr, cnt, val, d, f, hdecExec, _, hf⟩ := exec_decFrame_ok haccD hfitD hdec
  have hx : ∀ j, j < dec.frameLen → Memory.read f j = Memory.read enc.x j := by
    intro j hj
    have hjE : j < enc.frameLen := by rwa [hN]
    rw [hf, if_pos hj, hfp j hj, beginEnc_lookAll_getD enc hjE, BitVec.xor_comm, BitVec.xor_assoc, BitVec.xor_self,
      BitVec.xor_zero]
  have hp : ∀ j, j < dec.frameLen → Memory.read (beginEnc enc).p j = Memory.read enc.x j := by
    intro j hj
    rw [beginEnc_p, Memory.read_copyBelow, if_pos (by rwa [hN])]
  exact ⟨_, hdecExec, (accepts_iff.mp haccD).2, hx, fun j hj => (hx j hj).trans (hp j hj).symm, hrest⟩

/-- Settles O45: the two laws of ACCUMULATE on buffers, F being all that it writes. -/
theorem accumulateTwiceRestores : Obligations.AccumulateTwiceRestores := by
  intro s hf
  refine ⟨?_, fun d => Memory.accumulate_right_comm s.frameLen s.d d hf⟩
  calc accumulate (accumulate s)
      = { s with f := Memory.accumulate s.frameLen (Memory.accumulate s.frameLen s.f s.d) s.d } := rfl
    _ = s := by rw [Memory.accumulate_accumulate_same _ _ hf]

/-- Settles O44: the step with POS = N is the commit. -/
theorem commitAccumulatesTheDelta : Obligations.CommitAccumulatesTheDelta := by
  intro s hr hh hn hp
  refine ⟨Memory.accumulate s.frameLen s.f s.d, ?_, Memory.read_accumulate s.frameLen s.f s.d⟩
  rw [step_nil hh, work_commit hr hp.ge hn]
  rfl

end Sys2Proof.Machine
end

section
/-! PROOFS. The command family (43_commands.md): the four commands as one transition each (R131 to R133, R135), the accesses that a
busy or faulted block ignores or answers (R136, R137), the issuing step at both granularities and the state that they both end in
(R130), and the host's actions `wait` and `hold`. -/

namespace Sys2Proof.Machine

/-! ### A write to CMD -/

theorem issue_of_command {s : State} {w : Word} {i : Instr} (hg : s.grain = .command) (hd : decodeCommand w = .ok i) :
    issue w s = exec i s := by
  simp only [issue, hd, hg]

theorem issue_of_record {s : State} {w : Word} {i : Instr} (hg : s.grain = .record) (hd : decodeCommand w = .ok i) :
    issue w s = openCommand i s := by
  simp only [issue, hd, hg]

/-- NOP is issued alike at either granularity. -/
theorem issue_nop (s : State) : issue 0x00000000#32 s = .next s := by
  have hd : decodeCommand 0x00000000#32 = .ok .nop := rfl
  cases hg : s.grain with
  | command => rw [issue_of_command hg hd]; rfl
  | record => rw [issue_of_record hg hd]; rfl

/-- The issuing step at the record granularity (R130). -/
theorem step_openCommand {s : State} {w : Word} {i : Instr} {rest : List HostAction} (hg : s.grain = .record)
    (h : s.host = .writeReg 2 w :: rest) (hd : decodeCommand w = .ok i) :
    step s = openCommand i { s with host := rest } := by
  rw [step_writeCmd h, issue_of_record (s := { s with host := rest }) hg hd]

/-- Where no command is accepted a write to CMD is ignored, whatever its value (R136, R137). -/
theorem issue_ignored {s : State} (ha : s.accepts = false) (w : Word) : issue w s = .next s := by
  obtain ⟨t, ht⟩ := issue_next w s
  rcases issue_cases ht with rfl | ⟨ha', _⟩
  · exact ht
  · exact absurd (ha'.symm.trans ha) (by decide)

/-! ### Accesses to a block that does not accept -/

theorem step_writeReg_ignored {s : State} {n : Nat} {v : Word} {rest : List HostAction} (ha : s.accepts = false)
    (h : s.host = .writeReg n v :: rest) : step s = .next { s with host := rest } := by
  by_cases hn : n = 2
  · subst hn
    rw [step_writeCmd h, issue_ignored (s := { s with host := rest }) ha]
  · rw [step_writeConfig h hn]
    rcases writeConfig_cases n v { s with host := rest } with hw | ⟨ha', _⟩ | ⟨ha', _⟩
    · rw [hw]
    · exact absurd (ha'.symm.trans ha) (by decide)
    · exact absurd (ha'.symm.trans ha) (by decide)

theorem step_writeX_ignored {s : State} {j : Nat} {b : Byte} {rest : List HostAction} (ha : s.accepts = false)
    (h : s.host = .writeX j b :: rest) : step s = .next { s with host := rest } := by
  rw [step_cons h, hostAct]
  rcases writePort_cases j b { s with host := rest } with hw | ⟨ha', _⟩
  · rw [hw]
  · exact absurd (ha'.symm.trans ha) (by decide)

/-! ### FAULT is sticky -/

theorem encTurn_fault (s : State) : (encTurn s).fault = s.fault := by
  obtain ⟨_, _, _, _, h⟩ := encTurn_frame s
  rw [h]

/-- A record is enabled only without a fault (40_decoder.md R80), and neither the commit nor an emission writes FAULT. -/
theorem work_fault {s t : State} (hf : s.fault = true) (h : work s = .next t) : t.fault = true := by
  rcases work_cases h with ⟨_, rfl⟩ | ⟨_, hf', _⟩ | ⟨_, _, _, rfl⟩ | ⟨_, _, rfl⟩
  · exact hf
  · rw [hf] at hf'; cases hf'
  · exact hf
  · exact (encTurn_fault s).trans hf

theorem step_fault {s t : State} (hf : s.fault = true) (h : step s = .next t)
    (hreset : ∀ input left rest, s.host ≠ .reset input left :: rest) : t.fault = true := by
  rcases step_cases_of_no_reset h hreset with ⟨rest, hw⟩ | ⟨w, rest, _, hw⟩ | ⟨_, _, _, _, rfl⟩ | ⟨_, _, _, _, rfl⟩ |
    ⟨_, _, _, _, _, rfl⟩
  · exact work_fault (s := { s with host := rest }) hf hw
  · rw [issue_ignored (s := { s with host := rest }) (accepts_of_fault hf)] at hw
    cases hw
    exact hf
  · exact hf
  · exact hf
  · exact hf

/-! ### The commands in closed form -/

theorem exec_clear {s : State} (ha : s.accepts = true) : exec .clear s = .next (clearFrames s) :=
  congrArg Host.Outcome.next (whenAccepting_of ha)

theorem exec_clear_ignored {s : State} (ha : s.accepts = false) : exec .clear s = .next s :=
  congrArg Host.Outcome.next (whenAccepting_not ha)

/-- An accepted frame command that passes its check (R134) is its body. -/
theorem frameCommand_ok {s t : State} (ha : s.accepts = true) (hn : s.frameLen ≤ s.nmax) :
    whenAccepting s (checkConfig s t) = t := by
  rw [whenAccepting_of ha, checkConfig_ok hn]

/-- BADCFG is the first action of a frame command (R134), and an accepting block has no BUSY to take back. -/
theorem frameCommand_badCfg {s t : State} (ha : s.accepts = true) (hn : s.nmax < s.frameLen) :
    whenAccepting s (checkConfig s t) = { s with cause := .badCfg, fault := true } := by
  rw [whenAccepting_of ha, checkConfig_bad hn, takeFault, ← (accepts_iff.mp ha).1]

theorem statusWord_of_badCfg {s : State} (hr : s.running = none) (hf : s.fault = true) (hc : s.cause = .badCfg) :
    s.statusWord = 0x32#32 := by
  simp [State.statusWord, State.busy, Cause.code, hr, hf, hc]

theorem statusWord_busy (s : State) : s.statusWord.getLsbD 0 = s.busy := by
  obtain ⟨_, hfields⟩ := statusWordFields
  obtain ⟨hbusy, _⟩ := hfields s
  exact hbusy

/-- RLE_decode ends with a result only where all bytes of the frame have been decoded (40_decoder.md R84). -/
theorem length_of_decFrom_ok {k s n e : Nat} {ahead out bytes : List Byte} (h : decFrom k ahead s n out = .ok (bytes, e)) :
    bytes.length = n := by
  induction k generalizing ahead s out with
  | zero => cases h
  | succ k ih =>
    by_cases ho : out.length = n
    · subst ho
      rw [decFrom_done] at h
      cases h
      rfl
    · rcases decFrom_cases k s n ahead out ho with ⟨_, _, _, _, _, _, he⟩ | ⟨_, he⟩ | ⟨_, he⟩ <;> rw [he] at h
      · exact ih h
      · cases h
      · cases h

/-! ### Frames of no bytes -/

/-- A frame of no bytes is complete when it begins, and its commit writes no element of F (40_decoder.md R83). -/
theorem decLoop_empty {s : State} (hN : s.frameLen = 0) (k : Nat) :
    decLoop (k + 1) (beginDec s) = { s with running := none, pos := 0 } := by
  have hpos : ¬ (beginDec s).pos < (beginDec s).frameLen := by simp [hN]
  have hcommit : accumulate (beginDec s) = beginDec s := by
    rw [accumulate, beginDec_frameLen, hN]; rfl
  rw [decLoop_succ k rfl, decTurn, if_neg hpos, commitTurn, hcommit, decLoop_idle k (by simp)]; rfl

/-- With N = 0 there is no difference to take (42_delta.md R123). -/
theorem beginEnc_empty {s : State} (hN : s.frameLen = 0) : beginEnc s = { s with running := some .enc, cur := 0 } := by
  rw [beginEnc, difference, hN]; rfl

/-- The encoding of a frame of no bytes is the empty tail alone (41_encoder.md R101). -/
theorem encLoop_empty {s : State} (hN : s.frameLen = 0) (k : Nat) :
    encLoop (k + 1) (beginEnc s) = { s with running := none, cur := 0, len := 0, out := s.out ++ [0x80#8] } := by
  have hrem : (beginEnc s).rem = 0 := by simp [State.rem, hN]
  rw [encLoop_succ k rfl, encTurn_tail (by omega), encLoop_idle k (by simp [emitTail]), emitTail_eq, hrem,
    beginEnc_empty hN]
  rfl

/-! ### A command worked off step by step -/

/-- The host has no action left, and N fits the buffers. -/
def State.Unattended (s : State) : Prop := s.host = [] ∧ s.frameLen ≤ s.nmax

theorem recordTurn_unattended {s : State} (h : s.Unattended) : (recordTurn s).Unattended := by
  obtain ⟨_, _, _, _, _, _, _, _, _, ht⟩ := recordTurn_frame s
  rw [ht]; exact h

theorem decTurn_unattended {s : State} (h : s.Unattended) : (decTurn s).Unattended := by
  unfold decTurn
  split
  · exact recordTurn_unattended h
  · exact h

theorem encTurn_unattended {s : State} (h : s.Unattended) : (encTurn s).Unattended := by
  obtain ⟨_, _, _, _, ht⟩ := encTurn_frame s
  rw [ht]; exact h

/-- A turn of DEC that leaves the command in progress has taken no fault. -/
theorem decTurn_fault_of_running {s : State} (h : (decTurn s).running = some .dec) : (decTurn s).fault = s.fault := by
  by_cases hp : s.pos < s.frameLen
  · rw [decTurn, if_pos hp] at h ⊢
    obtain ⟨_, _, hri, hwi, ha, hfits⟩ := exists_record_of_recordTurn_running h
    obtain ⟨_, _, _, ht⟩ := recordTurn_record hri hwi ha hfits
    rw [ht]
  · rw [decTurn, if_neg hp]; rfl

theorem step_decTurn {s : State} (h : s.Unattended) (hr : s.running = some .dec) (hf : s.fault = false) :
    step s = .next (decTurn s) := by
  obtain ⟨hh, hn⟩ := h
  by_cases hp : s.pos < s.frameLen
  · rw [step_record (recordEnabled_iff.mpr ⟨hr, hf, hp⟩) hn hh, decTurn, if_pos hp]
  · rw [step_nil hh, work_commit hr (Nat.le_of_not_lt hp) hn, decTurn, if_neg hp]

/-- A loop of turns, run until unit `g` has ended its command, is reached by as many steps or fewer, where each turn of `g` is
a step and keeps the condition `P` for the next. -/
theorem run_of_loop {g : Engine} {P : State → Prop} {turn : State → State} {loop : Nat → State → State}
    (hzero : ∀ s, loop 0 s = s) (hidle : ∀ k s, s.running ≠ some g → loop k s = s)
    (hsucc : ∀ k s, s.running = some g → loop (k + 1) s = loop k (turn s))
    (hstep : ∀ s, P s → s.running = some g → step s = .next (turn s) ∧ P (turn s)) (n : Nat) {s : State} (h : P s) :
    ∃ k ≤ n, Host.Core.run Sys2Proof.core k s = .next (loop n s) := by
  induction n generalizing s with
  | zero => exact ⟨0, Nat.le_refl _, by rw [hzero]; rfl⟩
  | succ n ih =>
    by_cases hr : s.running = some g
    · obtain ⟨ht, hP⟩ := hstep s h hr
      obtain ⟨k, hk, hrun⟩ := ih hP
      exact ⟨k + 1, Nat.succ_le_succ hk, by rw [run_succ Sys2Proof.core k s (turn s) ht, hrun, hsucc n s hr]⟩
    · exact ⟨0, Nat.zero_le _, by rw [hidle _ s hr]; rfl⟩

theorem run_decLoop (n : Nat) {s : State} (h : s.Unattended) (hf : s.fault = false) :
    ∃ k ≤ n, Host.Core.run Sys2Proof.core k s = .next (decLoop n s) :=
  run_of_loop (P := fun u => u.Unattended ∧ (u.running = some .dec → u.fault = false)) (fun _ => rfl)
    (fun k _ => decLoop_idle k) (fun k _ => decLoop_succ k)
    (fun _ hu hr => ⟨step_decTurn hu.1 hr (hu.2 hr), decTurn_unattended hu.1,
      fun hr' => (decTurn_fault_of_running hr').trans (hu.2 hr)⟩) n ⟨h, fun _ => hf⟩

theorem run_encLoop (n : Nat) {s : State} (h : s.Unattended) :
    ∃ k ≤ n, Host.Core.run Sys2Proof.core k s = .next (encLoop n s) :=
  run_of_loop (P := State.Unattended) (fun _ => rfl) (fun k _ => encLoop_idle k) (fun k _ => encLoop_succ k)
    (fun _ hu hr => ⟨step_enc hr hu.1 hu.2, encTurn_unattended hu⟩) n h

/-- A frame command that is ignored or refused by its check is complete when issued; otherwise it is worked off from where it
begins. -/
theorem run_frameCommand {s b t : State} {n : Nat}
    (hrun : s.accepts = true → s.frameLen ≤ s.nmax → ∃ k ≤ n, Host.Core.run Sys2Proof.core k b = .next t) :
    ∃ k ≤ n, Host.Core.run Sys2Proof.core k (whenAccepting s (checkConfig s b))
      = .next (whenAccepting s (checkConfig s t)) := by
  cases ha : s.accepts with
  | false => exact ⟨0, Nat.zero_le _, by rw [whenAccepting_not ha, whenAccepting_not ha]; rfl⟩
  | true =>
    rcases Nat.lt_or_ge s.nmax s.frameLen with hn | hn
    · exact ⟨0, Nat.zero_le _, by rw [frameCommand_badCfg ha hn, frameCommand_badCfg ha hn]; rfl⟩
    · rw [frameCommand_ok ha hn, frameCommand_ok ha hn]
      exact hrun ha hn

/-- A command opened at the record granularity is worked off to the state it gives as one transition (R130). -/
theorem run_openCommand {i : Instr} (hi : i.isRecord = false) {s : State} (hh : s.host = []) :
    ∃ k u t, k ≤ (s.input.length - s.sp) + s.frameLen + 3 ∧ openCommand i s = .next u ∧ exec i s = .next t
      ∧ Host.Core.run Sys2Proof.core k u = .next t := by
  cases i with
  | run | lit => cases hi
  | nop | clear => exact ⟨0, _, _, Nat.zero_le _, rfl, rfl, rfl⟩
  | decFrame =>
    have hturns : s.decTurns = s.input.length - s.sp + 2 := by rw [State.decTurns, State.ahead, List.length_drop]
    obtain ⟨k, hk, hrun⟩ := run_frameCommand (s := s) fun ha hn =>
      run_decLoop s.decTurns (s := beginDec s) ⟨hh, hn⟩ (accepts_iff.mp ha).2
    exact ⟨k, _, _, by omega, rfl, rfl, hrun⟩
  | encFrame =>
    have hturns : s.encTurns = s.frameLen / 2 + 1 := rfl
    obtain ⟨k, hk, hrun⟩ := run_frameCommand (s := s) fun _ hn =>
      run_encLoop s.encTurns (s := beginEnc s) ⟨hh, hn⟩
    exact ⟨k, _, _, by omega, rfl, rfl, hrun⟩

/-! ### Work does not see the host's actions -/

/-- Whatever the stream holds at the cursor, a record fetched is the record step under the guard of R80. -/
theorem recordFetch_eq_whenRecordEnabled (s : State) : recordFetch s = whenRecordEnabled s (recordTurn s) := by
  rcases decodeRecord_cases s.ahead with ⟨_, hd⟩ | ⟨c, _, hd⟩ | ⟨c, v, _, _, hd⟩ | ⟨c, present, _, _, hd⟩ |
    ⟨raw, _, _, hl, hd⟩ <;> simp only [recordFetch, hd]
  · rw [recordTurn_of_rejected hd]; rfl
  · rw [recordTurn_of_rejected hd]; rfl
  · rw [recordTurn_of_decoded hd]; rfl
  · rw [recordTurn_of_rejected hd]; rfl
  · rw [recordTurn_of_decoded hd, exec_lit (wf_lit.mpr hl)]; rfl

/-- `s` with other actions of the host to come. -/
def withHost (rest : List HostAction) (s : State) : State := { s with host := rest }

/-- An outcome with its next state, if it is one, replaced by `r`. -/
def mapNext (r : State → State) : Host.Outcome State Fault Refusal → Host.Outcome State Fault Refusal
  | .next t => .next (r t)
  | .fault q => .fault q
  | .refused q => .refused q

section Actions

variable (rest : List HostAction) (s : State)

/-! #### DEC -/

/-- Each end of a record step has a closed form in what the stream holds and in the room, and the host's actions are in
neither. -/
theorem recordTurn_withHost : recordTurn (withHost rest s) = withHost rest (recordTurn s) := by
  rcases recordTurn_cases s with ⟨ha, h⟩ | ⟨x, after, ha, hc, h⟩ | ⟨c, ha, hc, _⟩ | ⟨c, present, ha, hl, hc, _⟩ |
    ⟨c, v, after, ha, hc, h⟩ | ⟨raw, after, ha, hl, hc, h⟩ <;> have ha' : (withHost rest s).ahead = _ := ha
  · rw [h, recordTurn, ha']; rfl
  · rw [h, recordTurn_overrun ha' hc]; rfl
  · rw [recordTurn_noValue ha hc, recordTurn_noValue ha' hc]; rfl
  · rw [recordTurn_shortRaw ha hl hc, recordTurn_shortRaw ha' hl hc]; rfl
  · have hd := decodeRecord_run c v after
    rw [h, runRecord_eq hc, recordTurn_of_decoded (by rw [ha', hd]), recordEffect, runRecord_eq (s := withHost rest s) hc]
    rfl
  · have hd := decodeRecord_lit after hl
    rw [h, litRecord_eq hl hc, recordTurn_of_decoded (by rw [ha', hd]), recordEffect,
      litRecord_eq (s := withHost rest s) hl hc]
    rfl

/-! #### ENC -/

theorem scanRun_withHost (v : Byte) (k len : Nat) : scanRun (withHost rest s) v k len = scanRun s v k len := by
  induction k generalizing len with
  | zero => rfl
  | succ k ih => rw [scanRun, scanRun, ih]; rfl

theorem scanLit_withHost (k len : Nat) : scanLit (withHost rest s) k len = scanLit s k len := by
  induction k generalizing len with
  | zero => rfl
  | succ k ih => rw [scanLit, scanLit, ih]; rfl

theorem emitLiteralOf_withHost (n : Nat) : emitLiteralOf n (withHost rest s) = withHost rest (emitLiteralOf n s) := by
  rw [emitLiteralOf_eq, emitLiteralOf_eq]; rfl

theorem encTurn_withHost : encTurn (withHost rest s) = withHost rest (encTurn s) := by
  have hrun : (withHost rest s).runLen = s.runLen := scanRun_withHost rest s _ _ _
  have hlit : (withHost rest s).litLen = s.litLen := scanLit_withHost rest s _ _
  rcases encTurn_cases s with ⟨h3, ht⟩ | ⟨h3, heq, _, _, _, ht⟩ | ⟨h3, hne, _, _, _, ht⟩ <;> rw [ht]
  · rw [encTurn_tail (s := withHost rest s) h3]
    exact congrArg finish (emitLiteralOf_withHost rest s s.rem)
  · rw [encTurn_run (s := withHost rest s) h3 heq, emitRun_eq, emitRun_eq, hrun]; rfl
  · rw [encTurn_lit (s := withHost rest s) h3 hne, emitLit, hlit]
    exact emitLiteralOf_withHost rest s s.litLen

/-! #### The guards, and work -/

theorem withinCapacity_withHost (t : State) :
    withinCapacity (withHost rest s) (withHost rest t) = mapNext (withHost rest) (withinCapacity s t) :=
  (apply_ite (mapNext (withHost rest)) (s.nmax < s.frameLen) (.fault .bufferRange) (.next t)).symm

theorem whenRecordEnabled_withHost (t : State) :
    whenRecordEnabled (withHost rest s) (withHost rest t) = mapNext (withHost rest) (whenRecordEnabled s t) := by
  cases he : s.recordEnabled with
  | false => rw [whenRecordEnabled_not he, whenRecordEnabled_not (s := withHost rest s) he]; rfl
  | true =>
    rw [whenRecordEnabled, whenRecordEnabled, if_pos he, if_pos (show (withHost rest s).recordEnabled = true from he),
      withinCapacity_withHost]

theorem work_withHost : work (withHost rest s) = mapNext (withHost rest) (work s) := by
  have hrun : (withHost rest s).running = s.running := rfl
  cases hr : s.running with
  | none => rw [work_idle hr, work_idle (hrun.trans hr)]; rfl
  | some g =>
    cases g with
    | dec =>
      by_cases hp : s.pos < s.frameLen
      · have hp' : (withHost rest s).pos < (withHost rest s).frameLen := hp
        simp only [work, hrun, hr, if_pos hp, if_pos hp', recordFetch_eq_whenRecordEnabled, recordTurn_withHost,
          whenRecordEnabled_withHost]
      · have hp' : ¬ (withHost rest s).pos < (withHost rest s).frameLen := hp
        simp only [work, hrun, hr, if_neg hp, if_neg hp']
        exact withinCapacity_withHost rest s (commitTurn s)
    | enc => simp only [work, hrun, hr, encTurn_withHost, withinCapacity_withHost]

end Actions

/-- A step on `wait` is the step with no action left, but for the actions still to come. -/
theorem step_wait {s : State} {rest : List HostAction} (h : s.host = .wait :: rest) :
    step s = mapNext (withHost rest) (step { s with host := [] }) := by
  rw [step_cons h, step_nil (s := { s with host := [] }) rfl]
  exact work_withHost rest { s with host := [] }

/-! ### The statements -/

/-- Settles O20: the closed form of CLEAR, each element by `Memory.read_clearBelow`. -/
theorem clearRestartsBothUnits : Obligations.ClearRestartsBothUnits := by
  refine ⟨rfl, exec_clear rfl, fun s => ⟨fun ha => ?_, exec_clear_ignored⟩⟩
  exact ⟨_, _, exec_clear ha, fun j => ⟨Memory.read_clearBelow s.nmax s.f j, Memory.read_clearBelow s.nmax s.p j⟩⟩

/-- Settles O21: the decode loop against RLE_decode, which answers N bytes. -/
theorem decFrameDecodesAndAccumulates : Obligations.DecFrameDecodesAndAccumulates := by
  intro s bytes e ha hn hdec
  obtain ⟨hdr, cnt, val, d, f, hexec, hd, hf⟩ := exec_decFrame_ok ha hn hdec
  exact ⟨hdr, cnt, val, d, f, hexec, length_of_decFrom_ok hdec, hd, hf⟩

/-- Settles O22: the decode loop against RLE_decode's fault. -/
theorem decFrameFaultLeavesTheFrame : Obligations.DecFrameFaultLeavesTheFrame := by
  intro s c ha hn hsp hdec
  obtain ⟨sp, hdr, cnt, val, pos, d, hloop, hrest⟩ :=
    decLoop_error s.decTurns (beginDec s) [] c rfl rfl (Nat.zero_le _) hsp (Nat.le_refl _) hdec
  refine ⟨sp, hdr, cnt, val, pos, d, ?_, hrest⟩
  rw [execDecFrame_eq ha hn, hloop, (accepts_iff.mp ha).1]; rfl

/-- Settles O23: the encoder loop against RLE_encode, from E and P as DIFFERENCE leaves them; or the failed check. -/
theorem encFrameAppendsTheEncoding : Obligations.EncFrameAppendsTheEncoding := by
  refine ⟨rfl, fun s ha => ⟨fun hn => ?_, fun hn =>
    congrArg Host.Outcome.next (frameCommand_badCfg ha hn)⟩⟩
  obtain ⟨len, hexec⟩ := exec_encFrame ha hn
  refine ⟨(beginEnc s).e, (beginEnc s).p, len, ?_, Memory.read_difference s.frameLen s.e s.x s.p,
    Memory.read_copyBelow s.frameLen s.p s.x⟩
  rw [hexec, (accepts_iff.mp ha).1]; rfl

/-- Settles O27: a faulted block does not accept, and no step but a reset writes FAULT back. -/
theorem faultedStateIgnoresWrites : Obligations.FaultedStateIgnoresWrites := by
  intro s rest hf
  have ha := accepts_of_fault hf
  exact ⟨fun _ _ => step_writeReg_ignored ha, fun _ _ => step_writeX_ignored ha, fun _ => step_readReg,
    fun _ => step_readF, fun _ => step_fault hf⟩

/-- Settles O28: a busy block does not accept, and a read through the F port touches the model's own fields only. -/
theorem busyBlockIgnoresWrites : Obligations.BusyBlockIgnoresWrites := by
  intro s rest hb
  have ha := accepts_of_busy hb
  refine ⟨fun _ _ => step_writeReg_ignored ha, fun _ _ => step_writeX_ignored ha, fun _ => step_readReg,
    (statusWord_busy s).trans hb, fun j h => ?_⟩
  obtain ⟨b, k, hread⟩ := readPort_frame j { s with host := rest }
  exact ⟨b, k, by rw [step_cons h, hostAct, hread]⟩

/-- Settles O39: the issuing step, then the turns of the command's loop one by one. -/
theorem recordGranularityReachesTheSameState : Obligations.RecordGranularityReachesTheSameState := by
  intro s w i hg hh hd
  obtain ⟨k, u, t, hk, hopen, hexec, hrun⟩ :=
    run_openCommand (decodeCommand_isRecord hd) (s := { s with host := [] }) rfl
  refine ⟨k + 1, t, Nat.succ_le_succ hk, hexec, ?_⟩
  rw [run_succ Sys2Proof.core k s u ((step_openCommand hg hh hd).trans hopen), hrun]

/-- Settles O56: work reads none of the host's actions and passes them through. -/
theorem waitWorksAndHoldKeepsTheState : Obligations.WaitWorksAndHoldKeepsTheState := by
  refine fun s rest => ⟨fun h => ⟨fun t ht => ?_, fun r hr => ?_, fun r hr => ?_⟩, fun h => step_cons h⟩
  · rw [step_wait h, ht]; rfl
  · rw [step_wait h, hr]; rfl
  · rw [step_wait h, hr]; rfl

/-- Settles O11: at the command granularity the issuing step is the whole command. -/
theorem stepRunsTheDecodedCommand : Obligations.StepRunsTheDecodedCommand := by
  intro s w rest i h hg hd
  rw [step_writeCmd h, issue_of_command (s := { s with host := rest }) hg hd]

/-- Settles O19: NOP leaves the state, as a transition and as a write to CMD. -/
theorem nopChangesNothing : Obligations.NopChangesNothing :=
  fun s => ⟨rfl, fun rest h => (step_writeCmd h).trans (issue_nop { s with host := rest })⟩

/-- Settles O26: DEC_FRAME commits at once, and ENC_FRAME emits the empty tail at once. -/
theorem emptyFrames : Obligations.EmptyFrames := by
  intro s ha hN
  have hn : s.frameLen ≤ s.nmax := hN.trans_le (Nat.zero_le _)
  have hidle := (accepts_iff.mp ha).1
  refine ⟨?_, ?_⟩
  · rw [execDecFrame_eq ha hn, State.decTurns, decLoop_empty hN, hidle]
  · rw [execEncFrame_eq ha hn, State.encTurns, encLoop_empty hN, hidle]

/-- Settles O54: the issuing step begins a frame command that passes its check, and completes CLEAR. -/
theorem frameCommandsShowBusyFromIssue : Obligations.FrameCommandsShowBusyFromIssue := by
  intro s rest hg ha
  have hidle := (accepts_iff.mp ha).1
  have hu : ({ s with host := rest } : State).accepts = true := ha
  refine ⟨fun h hn => ?_, fun h hn => ?_, fun w hw h hn => ?_, fun h => ?_⟩
  · refine ⟨beginDec { s with host := rest }, ?_, rfl, statusWord_busy _, rfl⟩
    rw [step_openCommand hg h rfl, openCommand, frameCommand_ok hu hn]
  · refine ⟨beginEnc { s with host := rest }, _, _, ?_, rfl, statusWord_busy _,
      Memory.read_difference s.frameLen s.e s.x s.p, Memory.read_copyBelow s.frameLen s.p s.x⟩
    rw [step_openCommand hg h rfl, openCommand, frameCommand_ok hu hn]
  · refine ⟨_, ?_, rfl, statusWord_of_badCfg hidle rfl rfl⟩
    rcases hw with rfl | rfl
    · rw [step_openCommand hg h rfl, openCommand, frameCommand_badCfg hu hn]
    · rw [step_openCommand hg h rfl, openCommand, frameCommand_badCfg hu hn]
  · have hclear := exec_clear hu
    refine ⟨_, (step_openCommand hg h rfl).trans hclear, hclear, (statusWord_busy _).trans ?_⟩
    rw [State.busy, clearFrames_running, hidle]; rfl

end Sys2Proof.Machine
end

section
/-! PROOFS. The exception family (60_exceptions.md): the stream faults with what each leaves (R151, R152), the faults of a command
(R153, R154), what any step that raises a fault leaves alone (R156), the faulted state (R157) and the idle block (R165). -/

namespace Sys2Proof.Machine

/-! ### Taking a fault -/

/-- An idle block has no BUSY to take back (R156). -/
theorem takeFault_of_idle {s : State} (hr : s.running = none) (c : Cause) :
    takeFault c s = { s with cause := c, fault := true } := by
  rw [takeFault, ← hr]

/-- STATUS after a fault: the code of its cause, FAULT = 1, BUSY = 0 (10_state.md R30, R156). -/
theorem statusWord_of_fault {s : State} (hr : s.running = none) (hf : s.fault = true) :
    s.statusWord = BitVec.ofNat 32 (16 * s.cause.code.toNat + 2) := by
  cases hc : s.cause <;> simp [State.statusWord, State.busy, Cause.code, hr, hf, hc]

/-! ### TRUNCATED -/

theorem sp_eq_length_of_ahead_nil {s : State} (ha : s.ahead = []) (hsp : s.sp ≤ s.input.length) :
    s.sp = s.input.length :=
  Nat.le_antisymm hsp (List.drop_eq_nil_iff.mp ha)

/-- The header is missing (40_decoder.md R80): nothing has been read. -/
theorem recordTurn_noHeader {s : State} (ha : s.ahead = []) : recordTurn s = takeFault .truncated s := by
  have hd : decodeRecord s.ahead = .error .noHeader := by rw [ha]; rfl
  rw [recordTurn_of_rejected hd, recordCut]

/-- A frame of at least one byte whose stream has nothing left is cut short at its first header (R151). -/
theorem exec_decFrame_noHeader {s : State} (ha : s.accepts = true) (hn : s.frameLen ≤ s.nmax) (hN : 0 < s.frameLen)
    (hahead : s.ahead = []) : exec .decFrame s = .next (takeFault .truncated (beginDec s)) := by
  have hturn : decTurn (beginDec s) = takeFault .truncated (beginDec s) := by
    rw [decTurn, if_pos (show (beginDec s).pos < (beginDec s).frameLen from hN),
      recordTurn_noHeader (s := beginDec s) hahead]
  rw [execDecFrame_eq ha hn, State.decTurns, decLoop_succ _ rfl, hturn, decLoop_idle _ (by simp)]

/-- The bytes written to a buffer are the ones read back where they were written. -/
theorem Memory.slice_writeAll_same (m : Memory) (p : Nat) (bs : List Byte) :
    Memory.slice (Memory.writeAll m p bs) p bs.length = bs := by
  apply List.ext_getElem
  · simp
  · intro j _ hj
    simp [Memory.slice, Memory.read_writeAll, hj]

/-! ### OVERRUN -/

/-- The count of a header, as R80 masks it out. -/
theorem and_mask_toNat (h : Byte) : (h &&& 0x7F#8).toNat = h.toNat % 128 := by
  rw [BitVec.toNat_and]; exact Nat.and_two_pow_sub_one_eq_mod h.toNat 7

theorem exec_run_overrun {s : State} (he : s.recordEnabled = true) (hn : s.frameLen ≤ s.nmax) {c : BitVec 7} (v : Byte)
    (hc : s.room < c.toNat) : exec (.run c v) s = .next (takeFault .overrun (loadHeader (runHeader c) s)) := by
  rw [exec_run, whenRecordEnabled_ok he hn, runRecord_overrun hc]

theorem exec_lit_overrun {s : State} (he : s.recordEnabled = true) (hn : s.frameLen ≤ s.nmax) {raw : List Byte}
    (hw : (Instr.lit raw).wf = true) (hc : s.room < raw.length) :
    exec (.lit raw) s = .next (takeFault .overrun (loadHeader (litHeader (litCount raw.length)) s)) := by
  rw [exec_lit hw, whenRecordEnabled_ok he hn, litRecord_overrun (wf_lit.mp hw) hc]

/-! ### What a step that raises a fault leaves alone -/

/-- Where a fault has been raised FAULT has been written. -/
theorem fault_ne {s t : State} (hf : s.fault = false) (ht : t.fault = true) : t.fault ≠ s.fault := by
  rw [hf, ht]; decide

/-- From `s` to `t` no more than the decoder's registers, D and SP have changed, and SP has not moved back. -/
def DecodesOn (s t : State) : Prop :=
  ∃ sp hdr cnt val pos d, s.sp ≤ sp ∧ t = { s with sp := sp, hdr := hdr, cnt := cnt, val := val, pos := pos, d := d }

theorem DecodesOn.refl (s : State) : DecodesOn s s := ⟨_, _, _, _, _, _, Nat.le_refl _, rfl⟩

theorem DecodesOn.trans {s t u : State} (h : DecodesOn s t) (h' : DecodesOn t u) : DecodesOn s u := by
  obtain ⟨_, _, _, _, _, _, hsp, rfl⟩ := h
  obtain ⟨_, _, _, _, _, _, hsp', rfl⟩ := h'
  exact ⟨_, _, _, _, _, _, hsp.trans hsp', rfl⟩

theorem DecodesOn.running_eq {s t : State} (h : DecodesOn s t) : t.running = s.running := by
  obtain ⟨_, _, _, _, _, _, _, rfl⟩ := h; rfl

theorem DecodesOn.fault_eq {s t : State} (h : DecodesOn s t) : t.fault = s.fault := by
  obtain ⟨_, _, _, _, _, _, _, rfl⟩ := h; rfl

/-- From `s` to `t` a fault has been taken, and no more than decoding has come before it (R156). -/
def TakesFault (s t : State) : Prop := ∃ c u, c ≠ .none ∧ DecodesOn s u ∧ t = takeFault c u

theorem takesFault_takeFault (s : State) {c : Cause} (hc : c ≠ .none) : TakesFault s (takeFault c s) :=
  ⟨c, s, hc, .refl s, rfl⟩

theorem TakesFault.running_eq {s t : State} (h : TakesFault s t) : t.running = none := by
  obtain ⟨_, _, _, _, rfl⟩ := h; rfl

theorem TakesFault.of_decodesOn {s u t : State} (hu : DecodesOn s u) (h : TakesFault u t) : TakesFault s t := by
  obtain ⟨c, v, hc, hv, ht⟩ := h
  exact ⟨c, v, hc, hu.trans hv, ht⟩

/-- The beginning of a DEC_FRAME sets BUSY, which the fault takes back, and POS. -/
theorem TakesFault.of_beginDec {s t : State} (h : TakesFault (beginDec s) t) : TakesFault s t := by
  obtain ⟨c, _, hc, ⟨_, _, _, _, _, _, hsp, rfl⟩, rfl⟩ := h
  exact ⟨c, _, hc, ⟨_, _, _, _, _, _, hsp, rfl⟩, rfl⟩

theorem decodesOn_loadHeader (h : Byte) (s : State) : DecodesOn s (loadHeader h s) :=
  ⟨_, _, _, _, _, _, Nat.le_succ _, rfl⟩

theorem decodesOn_copyRaw (bs : List Byte) (s : State) : DecodesOn s (copyRaw bs s) :=
  ⟨_, _, _, _, _, _, Nat.le_add_right _ _, copyRaw_eq bs s⟩

/-- A record step takes a fault, or decodes on without one. -/
theorem recordTurn_takesFault_or_decodesOn (s : State) :
    TakesFault s (recordTurn s) ∨ DecodesOn s (recordTurn s) := by
  rcases recordTurn_cases s with ⟨_, h⟩ | ⟨x, _, _, _, h⟩ | ⟨c, _, _, h⟩ | ⟨c, present, _, _, _, h⟩ | ⟨_, _, _, _, hc, h⟩ |
    ⟨raw, _, _, hl, hc, h⟩ <;> rw [h]
  · exact .inl (takesFault_takeFault s (by decide))
  · exact .inl ⟨_, _, by decide, decodesOn_loadHeader x s, rfl⟩
  · exact .inl ⟨_, _, by decide, decodesOn_loadHeader (runHeader c) s, rfl⟩
  · exact .inl ⟨_, _, by decide, (decodesOn_loadHeader (litHeader c) s).trans (decodesOn_copyRaw present _), rfl⟩
  · exact .inr ⟨_, _, _, _, _, _, Nat.le_add_right _ _, runRecord_eq hc⟩
  · exact .inr ⟨_, _, _, _, _, _, (Nat.le_succ _).trans (Nat.le_add_right _ _), litRecord_eq hl hc⟩

theorem recordTurn_takesFault {s : State} (hf : s.fault = false) (ht : (recordTurn s).fault = true) :
    TakesFault s (recordTurn s) :=
  (recordTurn_takesFault_or_decodesOn s).resolve_right fun h => fault_ne hf ht h.fault_eq

/-- A DEC_FRAME that ends with a fault took it in a record step, after which there is no commit. -/
theorem decLoop_takesFault (k : Nat) {s : State} (hr : s.running = some .dec) (hf : s.fault = false)
    (ht : (decLoop k s).fault = true) : TakesFault s (decLoop k s) := by
  induction k generalizing s with
  | zero => exact (fault_ne hf ht rfl).elim
  | succ k ih =>
    rw [decLoop_succ k hr] at ht ⊢
    by_cases hp : s.pos < s.frameLen
    · rw [decTurn, if_pos hp] at ht ⊢
      rcases recordTurn_takesFault_or_decodesOn s with h | h
      · rwa [decLoop_idle k (by simp [h.running_eq])]
      · exact .of_decodesOn h (ih (h.running_eq.trans hr) (h.fault_eq.trans hf) ht)
    · rw [decTurn, if_neg hp, decLoop_idle k (by simp [commitTurn])] at ht
      exact (fault_ne hf ht rfl).elim

theorem encLoop_fault (k : Nat) (s : State) : (encLoop k s).fault = s.fault :=
  encLoop_keeps (P := fun u => u.fault = s.fault) (fun u _ h => (encTurn_fault u).trans h) k s rfl

theorem work_takesFault {s t : State} (hf : s.fault = false) (ht : t.fault = true) (h : work s = .next t) :
    TakesFault s t := by
  rcases work_cases h with ⟨_, rfl⟩ | ⟨_, _, _, _, rfl⟩ | ⟨_, _, _, rfl⟩ | ⟨_, _, rfl⟩
  · exact (fault_ne hf ht rfl).elim
  · exact recordTurn_takesFault hf ht
  · exact (fault_ne hf ht rfl).elim
  · exact (fault_ne hf ht (encTurn_fault s)).elim

theorem issue_takesFault {w : Word} {s t : State} (hf : s.fault = false) (ht : t.fault = true) (h : issue w s = .next t) :
    TakesFault s t := by
  rcases issue_cases h with rfl | ⟨_, ⟨_, rfl⟩ | ⟨_, rfl⟩ | ⟨_, _, rfl⟩ | ⟨_, _, _, rfl⟩ | ⟨_, _, _, rfl⟩ |
    ⟨_, _, _, rfl⟩ | ⟨_, _, _, rfl⟩⟩
  · exact (fault_ne hf ht rfl).elim
  · exact takesFault_takeFault s (by decide)
  · exact (fault_ne hf ht rfl).elim
  · exact takesFault_takeFault s (by decide)
  · exact (decLoop_takesFault s.decTurns (s := beginDec s) rfl hf ht).of_beginDec
  · exact (fault_ne hf ht rfl).elim
  · exact (fault_ne hf ht (encLoop_fault s.encTurns (beginEnc s))).elim
  · exact (fault_ne hf ht rfl).elim

/-- A step raises a fault in the block's own work or on a write to CMD: no other access of the host does. -/
theorem step_takesFault {s t : State} (hf : s.fault = false) (ht : t.fault = true) (h : step s = .next t) :
    ∃ rest, TakesFault { s with host := rest } t := by
  have hreset : ∀ input left rest, s.host ≠ .reset input left :: rest := by
    intro input left rest hh
    rw [step_cons hh] at h
    cases h
    cases ht
  rcases step_cases_of_no_reset h hreset with ⟨rest, hw⟩ | ⟨w, rest, _, hw⟩ | ⟨_, _, _, _, rfl⟩ | ⟨_, _, _, _, rfl⟩ |
    ⟨_, _, _, _, _, rfl⟩
  · exact ⟨rest, work_takesFault hf ht hw⟩
  · exact ⟨rest, issue_takesFault hf ht hw⟩
  · exact (fault_ne hf ht rfl).elim
  · exact (fault_ne hf ht rfl).elim
  · exact (fault_ne hf ht rfl).elim

/-! ### Idle and faulted blocks -/

theorem step_idle {s : State} (hr : s.running = none) (hh : s.host = []) : step s = .next s := by
  rw [step_nil hh, work_idle hr]

theorem step_wait_idle {s : State} {rest : List HostAction} (hr : s.running = none) (hh : s.host = .wait :: rest) :
    step s = .next { s with host := rest } := by
  rw [step_cons hh, hostAct, work_idle (s := { s with host := rest }) hr]

/-- A faulted block keeps its state at every step that is no reset (R157); a read leaves what it returned on the host's side. -/
theorem step_faulted {s : State} (hr : s.running = none) (hf : s.fault = true)
    (hreset : ∀ input left rest, s.host ≠ .reset input left :: rest) :
    ∃ regData portData free,
      step s = .next { s with host := s.host.tail, regData := regData, portData := portData, free := free } := by
  have ha := accepts_of_fault hf
  cases hh : s.host with
  | nil => exact ⟨s.regData, s.portData, s.free, by rw [step_idle hr hh, List.tail_nil, ← hh]⟩
  | cons a rest =>
    cases a with
    | writeReg n v => exact ⟨_, _, _, step_writeReg_ignored ha hh⟩
    | readReg n => exact ⟨_, _, _, step_readReg hh⟩
    | writeX j b => exact ⟨_, _, _, step_writeX_ignored ha hh⟩
    | readF j =>
      obtain ⟨b, k, hread⟩ := readPort_frame j { s with host := rest }
      exact ⟨s.regData, b, k, by rw [step_cons hh, hostAct, hread]; rfl⟩
    | wait => exact ⟨_, _, _, step_wait_idle hr hh⟩
    | hold => exact ⟨_, _, _, step_cons hh⟩
    | reset input left => exact absurd hh (hreset input left rest)

/-! ### The statements -/

/-- Settles O16: the closed forms of a record step that the stream cuts short, from the cursor or from a DEC_FRAME's start. -/
theorem truncatedAtEachPoint : Obligations.TruncatedAtEachPoint := by
  intro s hn hh hsp
  refine ⟨fun he => ?_, fun ha => ⟨fun hr hf hp => ?_, fun hacc => ?_, fun hacc hN => ?_⟩⟩
  · have hstep {t : State} (ht : recordTurn s = t) : step s = .next t := ht ▸ step_record he hn hh
    refine ⟨fun ha => ?_, fun c hc ha => ?_, fun c present hc hl ha => ?_⟩
    · have hend := sp_eq_length_of_ahead_nil ha hsp
      exact ⟨_, hstep (recordTurn_noHeader ha), rfl, statusWord_of_fault rfl rfl, hend, rfl,
        congrArg (BitVec.ofNat 32) hend, rfl⟩
    · exact ⟨_, hstep (recordTurn_noValue ha hc), rfl, statusWord_of_fault rfl rfl, rfl, rfl, rfl, rfl⟩
    · exact ⟨_, hstep (recordTurn_shortRaw ha hl hc), rfl, statusWord_of_fault rfl rfl, rfl, rfl,
        Memory.slice_writeAll_same s.d s.pos present, rfl, rfl⟩
  · exact ⟨commitTurn s, by rw [step_nil hh, work_commit hr hp.ge hn], hf⟩
  · obtain ⟨hidle, hf⟩ := accepts_iff.mp hacc
    exact ⟨s, step_idle hidle hh, hf⟩
  · exact ⟨_, exec_decFrame_noHeader hacc hn hN ha, rfl, statusWord_of_fault rfl rfl, sp_eq_length_of_ahead_nil ha hsp, rfl⟩

/-- Settles O17: the closed form of OVERRUN, from the stream and for either kind of record. -/
theorem overrunDirectlyAfterTheHeader : Obligations.OverrunDirectlyAfterTheHeader := by
  intro s he hn
  refine ⟨fun h after hh ha hc => ?_, fun c v hc => ?_, fun raw hw hc => ?_⟩
  · rw [and_mask_toNat] at hc
    exact ⟨_, by rw [step_record he hn hh, recordTurn_overrun ha hc]; rfl, statusWord_of_fault rfl rfl, rfl⟩
  · exact ⟨_, exec_run_overrun he hn v hc, statusWord_of_fault rfl rfl, by rw [loadHeader_runHeader]; rfl⟩
  · exact ⟨_, exec_lit_overrun he hn hw hc, statusWord_of_fault rfl rfl,
      by rw [loadHeader_litHeader, litHeader_litCount (wf_lit.mp hw)]; rfl⟩

/-- Settles O32: a faulted block does not run and accepts nothing, and the reset event writes the table of R35. -/
theorem onlyResetLeavesTheFaultedState : Obligations.OnlyResetLeavesTheFaultedState := by
  rintro s t ⟨_, hidle⟩ hf h
  refine ⟨fun hreset => ?_, fun ⟨input, left, rest, hh⟩ => ?_⟩
  · obtain ⟨regData, portData, free, hstep⟩ := step_faulted (hidle hf) hf hreset
    rw [hstep] at h
    cases h
    rfl
  · obtain rfl := Host.Outcome.next.inj ((step_cons hh).symm.trans h)
    exact ⟨rfl, statusWord_of_cleared rfl rfl rfl, rfl, rfl, rfl, fun j => ⟨Memory.read_nil j, Memory.read_nil j⟩⟩

/-- Settles O33: a step that takes a fault has done no more than decode before it, which leaves F and the encoder alone. -/
theorem faultingStepLeavesTheFrame : Obligations.FaultingStepLeavesTheFrame := by
  intro s t h hf ht
  obtain ⟨_, _, _, hc, ⟨_, _, _, _, _, _, hsp, rfl⟩, rfl⟩ := step_takesFault hf ht h
  exact ⟨rfl, hc, rfl, rfl, rfl, rfl, rfl, rfl, rfl, rfl, rfl, rfl, rfl, hsp⟩

/-- Settles O24: the check comes first, whichever of the two frame commands it is. -/
theorem badConfigurationBeforeAnythingElse : Obligations.BadConfigurationBeforeAnythingElse := by
  intro s i ha hn hi
  refine ⟨?_, statusWord_of_badCfg (accepts_iff.mp ha).1 rfl rfl⟩
  rcases hi with rfl | rfl
  · exact congrArg Host.Outcome.next (frameCommand_badCfg ha hn)
  · exact congrArg Host.Outcome.next (frameCommand_badCfg ha hn)

/-- Settles O25: a value that selects no command raises BADCMD where a command would be accepted, and is ignored elsewhere. -/
theorem badCommandOnlyWhereCommandsAreAccepted : Obligations.BadCommandOnlyWhereCommandsAreAccepted := by
  intro s w rest h hw
  refine ⟨fun ha => ?_, fun ha => step_writeReg_ignored ha h⟩
  have hfault := takeFault_of_idle (s := { s with host := rest }) (accepts_iff.mp ha).1 .badCmd
  refine ⟨?_, statusWord_of_fault (accepts_iff.mp ha).1 rfl⟩
  rw [step_writeCmd h, issue_of_four_le (s := { s with host := rest }) hw ha, hfault]

/-- Settles O31: without a command in progress there is nothing to work on. -/
theorem idleBlockWaits : Obligations.IdleBlockWaits :=
  fun _ hr => ⟨step_idle hr, fun _ => step_wait_idle hr⟩

end Sys2Proof.Machine
end

section
/-! PROOFS. The hazards family (70_reset_and_hazards.md): the configuration registers act through their product N alone (R187). -/

namespace Sys2Proof.Machine

/-- `s` with its two configuration registers replaced. -/
def withConfig (w h : Word) (s : State) : State := { s with cfgW := w, cfgH := h }

theorem MovesForward.frameLen_eq {s t : State} (h : MovesForward s t) : t.frameLen = s.frameLen := by
  rw [State.frameLen, h.cfgW, h.cfgH, ← State.frameLen]

section Product

variable {w h : Word} {s : State} (hN : w.toNat * h.toNat = s.frameLen)
include hN

theorem frameLen_withConfig : (withConfig w h s).frameLen = s.frameLen := hN

theorem room_withConfig : (withConfig w h s).room = s.room := congrArg (· - s.pos) hN

theorem rem_withConfig : (withConfig w h s).rem = s.rem := congrArg (· - s.cur) hN

/-- A loop of turns of unit `g` passes the configuration through where each turn does, and keeps N for the next turn. -/
theorem loop_withConfig {g : Engine} {turn : State → State} {loop : Nat → State → State}
    (hzero : ∀ u, loop 0 u = u) (hidle : ∀ k u, u.running ≠ some g → loop k u = u)
    (hsucc : ∀ k u, u.running = some g → loop (k + 1) u = loop k (turn u))
    (hturn : ∀ u, w.toNat * h.toNat = u.frameLen → turn (withConfig w h u) = withConfig w h (turn u))
    (hmoves : ∀ u, MovesForward u (turn u)) (k : Nat) : loop k (withConfig w h s) = withConfig w h (loop k s) := by
  induction k generalizing s with
  | zero => rw [hzero, hzero]
  | succ k ih =>
    by_cases hr : s.running = some g
    · rw [hsucc k s hr, hsucc k (withConfig w h s) hr, hturn s hN, ih (hN.trans (hmoves s).frameLen_eq.symm)]
    · rw [hidle _ s hr, hidle _ (withConfig w h s) hr]

/-! ### DEC -/

/-- Of the configuration a record step reads only the room, and no closed form of its ends writes it. -/
theorem recordTurn_withConfig : recordTurn (withConfig w h s) = withConfig w h (recordTurn s) := by
  have hroom := room_withConfig hN
  rcases recordTurn_cases s with ⟨ha, ht⟩ | ⟨_, _, ha, hc, ht⟩ | ⟨_, ha, hc, _⟩ | ⟨_, _, ha, hl, hc, _⟩ |
    ⟨c, v, after, ha, hc, ht⟩ | ⟨raw, after, ha, hl, hc, ht⟩ <;> have ha' : (withConfig w h s).ahead = _ := ha
  · rw [ht, recordTurn_noHeader ha']; rfl
  · rw [ht, recordTurn_overrun ha' (hroom.trans_lt hc)]; rfl
  · rw [recordTurn_noValue ha hc, recordTurn_noValue ha' (hc.trans_eq hroom.symm)]; rfl
  · rw [recordTurn_shortRaw ha hl hc, recordTurn_shortRaw ha' hl (hc.trans_eq hroom.symm)]; rfl
  · have hd := decodeRecord_run c v after
    rw [ht, runRecord_eq hc, recordTurn_of_decoded (by rw [ha', hd]), recordEffect, runRecord_eq (hc.trans_eq hroom.symm)]
    rfl
  · have hd := decodeRecord_lit after hl
    rw [ht, litRecord_eq hl hc, recordTurn_of_decoded (by rw [ha', hd]), recordEffect,
      litRecord_eq hl (hc.trans_eq hroom.symm)]
    rfl

theorem commitTurn_withConfig : commitTurn (withConfig w h s) = withConfig w h (commitTurn s) := by
  rw [commitTurn, accumulate, frameLen_withConfig hN]; rfl

theorem decTurn_withConfig : decTurn (withConfig w h s) = withConfig w h (decTurn s) := by
  have hpos : (withConfig w h s).pos = s.pos := rfl
  simp only [decTurn, hpos, frameLen_withConfig hN, recordTurn_withConfig hN, commitTurn_withConfig hN,
    apply_ite (withConfig w h)]

theorem decLoop_withConfig (k : Nat) : decLoop k (withConfig w h s) = withConfig w h (decLoop k s) :=
  loop_withConfig hN (fun _ => rfl) (fun k _ => decLoop_idle k) (fun k _ => decLoop_succ k)
    (fun _ => decTurn_withConfig) decTurn_movesForward k

/-! ### ENC -/

theorem beginEnc_withConfig : beginEnc (withConfig w h s) = withConfig w h (beginEnc s) := by
  rw [beginEnc, difference, frameLen_withConfig hN]; rfl

theorem lookAll_rem_withConfig : (withConfig w h s).lookAll (withConfig w h s).rem = s.lookAll s.rem := by
  rw [rem_withConfig hN]; rfl

/-- Each kind of iteration forms the record that the pure encoder forms from the bytes left (R105), and of the configuration
only their number tells which they are. -/
theorem encTurn_withConfig : encTurn (withConfig w h s) = withConfig w h (encTurn s) := by
  have hrem := rem_withConfig hN
  rcases encTurn_cases s with ⟨h3, ht⟩ | ⟨h3, heq, _, _, _, ht⟩ | ⟨h3, hne, _, _, _, ht⟩ <;> rw [ht]
  · rw [encTurn_tail (hrem.trans_lt h3), emitTail_eq, emitTail_eq, hrem]; rfl
  · have h3' := h3.trans_eq hrem.symm
    obtain ⟨h01, h12⟩ := heq
    have hlen : (withConfig w h s).runLen = s.runLen := by
      rw [(runLen_eq_runLength h3 h01 h12).1, (runLen_eq_runLength (s := withConfig w h s) h3' h01 h12).1,
        lookAll_rem_withConfig hN]
      rfl
    rw [encTurn_run (s := withConfig w h s) h3' ⟨h01, h12⟩, emitRun_eq, emitRun_eq, hlen]; rfl
  · have h3' := h3.trans_eq hrem.symm
    have hlen : (withConfig w h s).litLen = s.litLen := by
      rw [litLen_eq_litLength h3, litLen_eq_litLength h3', lookAll_rem_withConfig hN]
    rw [encTurn_lit (s := withConfig w h s) h3' hne, emitLit, emitLit, hlen, emitLiteralOf_eq, emitLiteralOf_eq]; rfl

theorem encLoop_withConfig (k : Nat) : encLoop k (withConfig w h s) = withConfig w h (encLoop k s) :=
  loop_withConfig hN (fun _ => rfl) (fun k _ => encLoop_idle k) (fun k _ => encLoop_succ k)
    (fun _ => encTurn_withConfig) encTurn_movesForward k

/-! ### The frame commands -/

theorem execDecFrame_withConfig {t : State} (ht : exec .decFrame s = .next t) :
    exec .decFrame (withConfig w h s) = .next (withConfig w h t) := by
  obtain rfl := Host.Outcome.next.inj ht
  exact congrArg Host.Outcome.next
    (frameCommand_map (body := fun s => decLoop s.decTurns (beginDec s)) rfl rfl hN rfl
      (decLoop_withConfig (s := beginDec s) hN s.decTurns))

theorem execEncFrame_withConfig {t : State} (ht : exec .encFrame s = .next t) :
    exec .encFrame (withConfig w h s) = .next (withConfig w h t) := by
  obtain rfl := Host.Outcome.next.inj ht
  have hturns : (withConfig w h s).encTurns = s.encTurns := congrArg (· / 2 + 1) hN
  have hbody : encLoop (withConfig w h s).encTurns (beginEnc (withConfig w h s))
      = withConfig w h (encLoop s.encTurns (beginEnc s)) := by
    rw [hturns, beginEnc_withConfig hN, encLoop_withConfig (s := beginEnc s) hN]
  exact congrArg Host.Outcome.next
    (frameCommand_map (body := fun s => encLoop s.encTurns (beginEnc s)) rfl rfl hN rfl hbody)

end Product

/-! ### The statement -/

/-- Settles O38: a turn of either unit reads the configuration through N only, and leaves it as it is for the next turn. -/
theorem onlyTheProductMatters : Obligations.OnlyTheProductMatters := by
  rintro s t w h i (rfl | rfl) hN ht
  · exact execDecFrame_withConfig hN ht
  · exact execEncFrame_withConfig hN ht

end Sys2Proof.Machine
end
